-- ==== Sys2Proof/Word.lean ====
section
/-! DEFINITION. The word types of `bip39_core` (00_scope.md R7): a host register is 32 bits, a hex character
and an entropy byte are 8 bits. -/

namespace Sys2Proof

/-- A host register, a command word, the data of one bus access (00 R7, 30 R110). -/
abbrev Word := BitVec 32

/-- One character of the HEX buffer, one byte of entropy, one byte of a digest (00 R9, 10 R37). -/
abbrev Byte := BitVec 8

end Sys2Proof
end

