-- ==== Sys2Proof/Syntax.lean ====
section
/-! DEFINITION. The commands of `bip39_core`: one constructor per row of spec/opcode_table.json
(30_encoding.md R112, R113). -/

namespace Sys2Proof

/-- A command. `w` is the word-count operand `CMD.W`, a number (30 R111; WellFormed says it fits its 8 bits);
`vfy` is the verify flag `CMD.VFY`. Every other operand is an implicit register. -/
inductive Instr where
  /-- SPECW, 40_entropy_spec.md R145. -/
  | specw (w : Nat)
  /-- SPECE, 40_entropy_spec.md R146. -/
  | spece
  /-- HEX2BITS, 42_bit_packer.md R190. -/
  | hex2bits
  /-- BITS2HEX, 42_bit_packer.md R192. -/
  | bits2hex
  /-- CSUM, 41_checksum_deriver.md R164. -/
  | csum
  /-- PACK, 42_bit_packer.md R194. -/
  | pack
  /-- UNPACK, 42_bit_packer.md R196. -/
  | unpack (w : Nat)
  /-- CSCHK, 41_checksum_deriver.md R166. -/
  | cschk
  /-- ENCODE, 43_codec.md R230. -/
  | encode
  /-- GENERATE, 43_codec.md R234. -/
  | generate (w : Nat)
  /-- DECODE, 43_codec.md R240. -/
  | decode (w : Nat) (vfy : Bool)
  deriving DecidableEq, Repr

end Sys2Proof
end

