-- ==== Sys2Proof/WellFormed.lean ====
section
/-! DEFINITION. Which commands have a command word (30_encoding.md R111, R117): `<w>` must be 0..255.
`<v>` must be 0 or 1, which its type says. -/

namespace Sys2Proof

/-- The word-count operand fits the 8-bit field W (30 R111, R117). -/
def Instr.wf : Instr → Bool
  | .specw w => decide (w ≤ 255)
  | .spece => true
  | .hex2bits => true
  | .bits2hex => true
  | .csum => true
  | .pack => true
  | .unpack w => decide (w ≤ 255)
  | .cschk => true
  | .encode => true
  | .generate w => decide (w ≤ 255)
  | .decode w _ => decide (w ≤ 255)

end Sys2Proof
end

