-- ==== Sys2Proof/Decode.lean ====
section
/-! DEFINITION. Command decoding by the mask and match patterns of 30_encoding.md R113, the reasons a word is
illegal (R114, R115), and the encoder, written from the format of R110 and the words of R117. -/

namespace Sys2Proof

/-! ## Fields of a command word (10 R33, 30 R110) -/

/-- `OPC = CMD[4:0]`. -/
def fieldOpc (v : Word) : BitVec 5 := v.extractLsb' 0 5

/-- `CMD[7:5]`, reserved. -/
def fieldRsvLow (v : Word) : BitVec 3 := v.extractLsb' 5 3

/-- `VFY = CMD[8]`. -/
def fieldVfy (v : Word) : Bool := v.getLsbD 8

/-- `CMD[15:9]`, reserved. -/
def fieldRsvMid (v : Word) : BitVec 7 := v.extractLsb' 9 7

/-- `W = CMD[23:16]`, an unsigned number, neither scaled nor signed (30 R111). -/
def fieldW (v : Word) : Nat := (v.extractLsb' 16 8).toNat

/-- `CMD[31:24]`, reserved. -/
def fieldRsvHigh (v : Word) : BitVec 8 := v.extractLsb' 24 8

/-! ## The table of R113 -/

/-- One row of R113: a word `v` selects the row when `v AND mask = fixed`; `build` reads its operand fields. -/
structure Row where
  /-- The fixed bits' value, the row's `match`. -/
  fixed : Word
  /-- The row's `mask`. -/
  mask : Word
  /-- The command the row stands for, its operands taken from the word. -/
  build : Word → Instr

/-- `(v AND mask) = match` (30 R113). -/
def Row.selects (r : Row) (v : Word) : Bool := decide (v &&& r.mask = r.fixed)

/-- The eleven rows of R113, in the table's order. -/
def opcodeTable : List Row :=
  [ ⟨0x00000001#32, 0xFF00FFFF#32, fun v => .specw (fieldW v)⟩,
    ⟨0x00000002#32, 0xFFFFFFFF#32, fun _ => .spece⟩,
    ⟨0x00000003#32, 0xFFFFFFFF#32, fun _ => .hex2bits⟩,
    ⟨0x00000004#32, 0xFFFFFFFF#32, fun _ => .bits2hex⟩,
    ⟨0x00000005#32, 0xFFFFFFFF#32, fun _ => .csum⟩,
    ⟨0x00000006#32, 0xFFFFFFFF#32, fun _ => .pack⟩,
    ⟨0x00000007#32, 0xFF00FFFF#32, fun v => .unpack (fieldW v)⟩,
    ⟨0x00000008#32, 0xFFFFFFFF#32, fun _ => .cschk⟩,
    ⟨0x00000009#32, 0xFFFFFFFF#32, fun _ => .encode⟩,
    ⟨0x0000000A#32, 0xFF00FFFF#32, fun v => .generate (fieldW v)⟩,
    ⟨0x0000000B#32, 0xFF00FEFF#32, fun v => .decode (fieldW v) (fieldVfy v)⟩ ]

/-! ## Rejections, by name (30 R114, R115) -/

/-- Why a command word matches no row. Whatever the reason, the word completes with IllegalCommand (30 R116). -/
inductive Illegal where
  /-- OPC is 0x00 or 0x0C to 0x1F (R114). -/
  | reservedOpcode
  /-- A nonzero value in CMD[31:24], CMD[15:9] or CMD[7:5] (R115). -/
  | reservedField
  /-- A nonzero W or VFY for an opcode that takes none (R115). -/
  | unusedOperand
  deriving DecidableEq, Repr

/-- R114: OPC values 0x00 and 0x0C to 0x1F are reserved. -/
def opcReserved (v : Word) : Bool := decide (fieldOpc v = 0 ∨ 0x0C ≤ (fieldOpc v).toNat)

/-- R115: some reserved field is not 0. -/
def fieldsReserved (v : Word) : Bool :=
  decide (fieldRsvHigh v ≠ 0 ∨ fieldRsvMid v ≠ 0 ∨ fieldRsvLow v ≠ 0)

/-- The reason a word that matches no row is illegal. -/
def whyIllegal (v : Word) : Illegal :=
  if opcReserved v then .reservedOpcode
  else if fieldsReserved v then .reservedField
  else .unusedOperand

/-- Decoding (30 R113): the command of the row that `v` selects, or the reason no row matches. Total. -/
def decode (v : Word) : Except Illegal Instr :=
  match opcodeTable.find? (fun r => r.selects v) with
  | some r => .ok (r.build v)
  | none => .error (whyIllegal v)

/-- The instruction the decoder reads from a table word of `nbits` bits: one 32-bit command word, the bits above
`nbits` 0 (30 R110: one format, one length). -/
def decodeTableWord (nbits w : Nat) : Option Instr :=
  match decode (BitVec.ofNat 32 (w % 2 ^ nbits)) with
  | .ok i => some i
  | .error _ => none

/-! ## The encoder (30 R110, R117) -/

/-- A command word from its three fields, the reserved fields 0: R110's layout, bit 31 first. -/
def commandWord (w : Nat) (vfy : Bool) (opc : Nat) : Word :=
  0#8 ++ BitVec.ofNat 8 w ++ 0#7 ++ BitVec.ofBool vfy ++ 0#3 ++ BitVec.ofNat 5 opc

/-- The word of a well-formed command (30 R117). -/
def encode : Instr → Word
  | .specw w => commandWord w false 0x01
  | .spece => commandWord 0 false 0x02
  | .hex2bits => commandWord 0 false 0x03
  | .bits2hex => commandWord 0 false 0x04
  | .csum => commandWord 0 false 0x05
  | .pack => commandWord 0 false 0x06
  | .unpack w => commandWord w false 0x07
  | .cschk => commandWord 0 false 0x08
  | .encode => commandWord 0 false 0x09
  | .generate w => commandWord w false 0x0A
  | .decode w vfy => commandWord w vfy 0x0B

/-- The assembler's rule of R117: a command whose operands are out of range is rejected. -/
def assemble (i : Instr) : Option Word := if i.wf then some (encode i) else none

end Sys2Proof
end

