-- ==== Sys2Proof/Machine/Bits.lean ====
section
/-! DEFINITION. Bit strings and byte strings as 00_scope.md R8 and R9 define them: index 0 is the first and most
significant bit. -/

namespace Sys2Proof.Machine

/-- A bit string: a finite sequence of bits, the first the most significant (00 R8). -/
abbrev Bits := List Bool

/-- `bits_n(v)`: the n-bit string of `v`, most significant bit first (00 R8). -/
def bitsN : Nat → Nat → Bits
  | 0, _ => []
  | n + 1, v => v.testBit n :: bitsN n v

/-- `val(s) = Σ s⟨i⟩ · 2^(|s|-1-i)`, and 0 for the empty string (00 R8). -/
def val : Bits → Nat
  | [] => 0
  | b :: s => b.toNat * 2 ^ s.length + val s

/-- `s⟨a..b⟩`: the bits from index `a` up to and not including `b` (00 R8). -/
def slice (s : Bits) (a b : Nat) : Bits := (s.drop a).take (b - a)

/-- `bitsOf(b)`: the first byte first, each byte most significant bit first (00 R9). -/
def bitsOf (b : List Byte) : Bits := b.flatMap fun x => bitsN 8 x.toNat

/-- `bytesOf(s)`: byte `j` is `val(s⟨8j..8j+8⟩)` (00 R9). -/
def bytesOf (s : Bits) : List Byte :=
  (List.range (s.length / 8)).map fun j => BitVec.ofNat 8 (val (slice s (8 * j) (8 * j + 8)))

/-- `s` written at the front of a register of `n` bits whose bit 0 is the first, every later bit 0. -/
def padTo (n : Nat) (s : Bits) : BitVec n :=
  BitVec.ofNat n (val (s ++ List.replicate (n - s.length) false))

end Sys2Proof.Machine
end

