-- ==== Sys2Proof/Machine/Hex.lean ====
section
/-! DEFINITION. Hex characters and the hex↔bit conversions of the bit packer (42_bit_packer.md R180 to R184). -/

namespace Sys2Proof.Machine

/-- The value of a hex character, none for every other byte (42 R181): '0'..'9', 'a'..'f' and 'A'..'F' in ASCII. -/
def hexValue (ch : Byte) : Option Nat :=
  if 0x30 ≤ ch.toNat ∧ ch.toNat ≤ 0x39 then some (ch.toNat - 0x30)
  else if 0x61 ≤ ch.toNat ∧ ch.toNat ≤ 0x66 then some (ch.toNat - 0x61 + 10)
  else if 0x41 ≤ ch.toNat ∧ ch.toNat ≤ 0x46 then some (ch.toNat - 0x41 + 10)
  else none

/-- `ch` is a hex character (42 R181). -/
def isHex (ch : Byte) : Bool := (hexValue ch).isSome

/-- `nib(ch)` (42 R181). It is asked of hex characters only; 0 elsewhere (log entry 15). -/
def nib (ch : Byte) : Nat := (hexValue ch).getD 0

/-- `hexChar(v)`, lower case, for `v` in 0..15 (42 R184). -/
def hexChar (v : Nat) : Byte :=
  if v ≤ 9 then BitVec.ofNat 8 (0x30 + v) else BitVec.ofNat 8 (0x61 + (v - 10))

/-- `lower`: 'A'..'F' become 'a'..'f', every other character stays (42 R185). -/
def lowerHex (ch : Byte) : Byte := if 0x41 ≤ ch.toNat ∧ ch.toNat ≤ 0x46 then ch + 0x20 else ch

/-- `hexToBits(h, |h|)` (42 R180). -/
def hexToBits (h : List Byte) : Bits := h.flatMap fun ch => bitsN 4 (nib ch)

/-- The bit `s⟨i⟩` as a number. -/
def bitAt (s : Bits) (i : Nat) : Nat := (s.getD i false).toNat

/-- `bitsToHex(s)` for `|s| mod 4 = 0` (42 R183): window `j` is `(b0<<3)|(b1<<2)|(b2<<1)|b3`. -/
def bitsToHex (s : Bits) : List Byte :=
  (List.range (s.length / 4)).map fun j =>
    hexChar ((bitAt s (4 * j) <<< 3) ||| (bitAt s (4 * j + 1) <<< 2) ||| (bitAt s (4 * j + 2) <<< 1)
      ||| bitAt s (4 * j + 3))

end Sys2Proof.Machine
end

