-- ==== Sys2Proof/Config.lean ====
section
/-! DEFINITION. The open parameters of 00_scope.md R6 and the one unspecified value of
70_reset_and_hazards.md R301. None has a body: nothing can prove what it is, so a claim holds for every value
of it. -/

namespace Sys2Proof

/-- The hash port `H`: a function of the byte string alone, 32 bytes out (20 R87, decision D12). OPEN parameter;
see log entry 4. -/
opaque Config.hash : List Byte → Vector Byte 32

/-- `BASE`, the byte address of the register window on the host bus (20 R70, decision D35). OPEN parameter;
see log entry 8. -/
opaque Config.base : Nat

/-- The free values: what the n-th read of a data register while BUSY = 1 returns (70 R301). See log entry 5. -/
opaque Config.busyRead : Nat → Word

end Sys2Proof
end

