-- ==== Sys2Proof/Machine/State.lean ====
section
/-! DEFINITION. The state of `bip39_core` as plain data (10_state.md R30): control registers, the data registers
`D`, the hidden state, and beside them the model's own environment (what the other agents still have to do).
Reset values: 10_state.md R50, 70_reset_and_hazards.md R290. -/

namespace Sys2Proof.Machine

/-- An EntropySpec: the tuple (w, overallBits, checksumBits, entropyBits) (00 R11, 40 R140). -/
structure EntropySpec where
  w : Nat
  overallBits : Nat
  checksumBits : Nat
  entropyBits : Nat
  deriving DecidableEq, Repr

/-- One WORD register (10 R42): the 11-bit index and the not-found flag. -/
structure WordReg where
  idx : BitVec 11
  nf : Bool
  deriving DecidableEq, Repr

/-- STATUS (10 R34): its five fields. `STATUS[7:4]` and `STATUS[31:16]` read as 0 and hold nothing. -/
structure Status where
  busy : Bool
  done : Bool
  err : Bool
  wdrop : Bool
  code : BitVec 8
  deriving DecidableEq, Repr

/-- The data registers, the set `D` (10 R30, R36 to R43). -/
structure Data where
  /-- HEX_LEN[7:0] (R36). -/
  hexLen : BitVec 8
  /-- HEX[0..63] (R37). -/
  hex : Vector Byte 64
  /-- ENT (R38): `ENT⟨i⟩` is bit `255 - i`, `ENT⟨0⟩` the most significant. -/
  ent : BitVec 256
  /-- ENT_LEN (R38). -/
  entLen : BitVec 9
  /-- CS (R39). -/
  cs : BitVec 8
  /-- CS_LEN (R39). -/
  csLen : BitVec 4
  /-- CS_RX (R40). -/
  csRx : BitVec 8
  /-- CS_RX_LEN (R40). -/
  csRxLen : BitVec 4
  /-- SW (R41): word count. -/
  sw : BitVec 5
  /-- SCSB (R41): checksumBits. -/
  scsb : BitVec 4
  /-- SENTB (R41): entropyBits. -/
  sentb : BitVec 9
  /-- SOVB (R41): overallBits. -/
  sovb : BitVec 9
  /-- WORD[0..23] (R42). -/
  word : Vector WordReg 24
  /-- RESULT_W (R43). -/
  resultW : BitVec 5
  deriving DecidableEq, Repr

/-- GCTX (10 R47): the resolved EntropySpec and the requested byte count `n`. -/
structure GenContext where
  spec : EntropySpec
  n : Nat
  deriving DecidableEq, Repr

/-- FSM (10 R46). GCTX is held while FSM is RNG_WAIT and is never read outside it (10 R47), so it stands with
RNG_WAIT (log entry 7). -/
inductive Fsm where
  /-- No command is running. -/
  | idle
  /-- A command was accepted and its execution step has not been taken. -/
  | exec
  /-- A GENERATE has issued its request and waits for the answer. -/
  | rngWait (gctx : GenContext)
  deriving DecidableEq, Repr

/-- A host operation (30 R118, R119; 20 R70): an access at a byte offset from BASE. Offsets are integers, so that
every bus address has one (log entry 8). -/
inductive HostOp where
  /-- `MemRead(BASE+off, size)`. -/
  | read (off : Int) (size : Nat)
  /-- `MemWrite(BASE+off, size, v)`. -/
  | write (off : Int) (size : Nat) (v : Word)
  /-- `poll`: repeat `rd STATUS` until bit 0 reads 0 (30 R119). -/
  | poll
  deriving DecidableEq, Repr

/-- An answer of the entropy port (20 R88). `RngOk(b)` has exactly the requested `n ≤ 32` bytes: `draw` is the
source's next 32 draws and `b` its first `n` (log entry 6). -/
inductive RngAnswer where
  | ok (draw : Vector Byte 32)
  | fail
  deriving DecidableEq, Repr

/-- Who takes the next step (60 R280; the reset input of 70 R290 beside the three agents). -/
inductive Turn where
  | host
  | block
  | source
  | reset
  deriving DecidableEq, Repr

/-- The MODEL's own state, none of it a register of the block: what the host and the entropy source still have
to do, who moves next, and what the block's ports have put out (log entries 1, 5, 11). -/
structure Env where
  /-- The host operations not yet issued, in issue order (70 R304). -/
  program : List HostOp
  /-- The entropy source's answers still to come, in order (20 R88). -/
  answers : List RngAnswer
  /-- Who takes the next steps; empty: the default order (log entry 3). -/
  turns : List Turn
  /-- How many free values have been drawn (70 R301). -/
  draws : Nat
  /-- What the last `MemRead` returned to the host; none before the first. -/
  readData : Option Word
  /-- The `n` of every `RngRequest(n)` issued, newest first. -/
  requests : List Nat
  deriving DecidableEq, Repr

/-- The state (10 R30). -/
structure State where
  /-- LASTCMD (10 R33, R47). -/
  lastCmd : Word
  /-- STATUS (10 R34). -/
  status : Status
  /-- WL_SIZE (10 R35). -/
  wlSize : Word
  /-- The data registers `D` (10 R30). -/
  d : Data
  /-- FSM, with GCTX (10 R46, R47). -/
  fsm : Fsm
  /-- The model's own environment; no register of the block. -/
  env : Env
  deriving DecidableEq, Repr

/-- Why a step stops with a fault. -/
inductive Fault where
  /-- HostAccessFault(off, size) (20 R72, 60 R272): raised by a host access that is not an aligned 32-bit access
  inside the window. Safe: the run has no meaning after it. -/
  | hostAccess (off : Int) (size : Nat)
  deriving DecidableEq, Repr

/-- Why a step is refused. -/
inductive Refusal where
  /-- An instruction without a meaning. Raised by nobody: every command has its meaning. Safe. -/
  | notModelled (mnemonic : String)
  deriving DecidableEq, Repr

/-- The outcome of a meaning or of a step. -/
abbrev Result := Host.Outcome State Fault Refusal

/-- Every data register 0: the reset values of 10 R36 to R43, and the empty Mnemonic of 43 R225. -/
def Data.zero : Data where
  hexLen := 0
  hex := Vector.replicate 64 0
  ent := 0
  entLen := 0
  cs := 0
  csLen := 0
  csRx := 0
  csRxLen := 0
  sw := 0
  scsb := 0
  sentb := 0
  sovb := 0
  word := Vector.replicate 24 ⟨0, false⟩
  resultW := 0

/-- STATUS at reset: 0x00000000 (10 R34). -/
def Status.zero : Status := ⟨false, false, false, false, 0⟩

/-- No host program, no answer, no turn chosen, nothing read (log entries 1, 5, 11: DESIGN CHOICE, the fields are
the model's own). -/
def Env.empty : Env := ⟨[], [], [], 0, none, []⟩

/-- The machine right after reset (10 R50, 70 R290): every register 0, FSM IDLE, no GENERATE context. -/
def State.reset : State where
  lastCmd := 0
  status := Status.zero
  wlSize := 0
  d := Data.zero
  fsm := .idle
  env := Env.empty

end Sys2Proof.Machine
end

