-- ==== Sys2Proof/Machine/Flags.lean ====
section
/-! DEFINITION. The flags of the block: STATUS and its completion codes (10_state.md R34, R49;
60_exceptions.md R260, R261, R265; 70_reset_and_hazards.md R300). -/

namespace Sys2Proof.Machine

/-- The completion codes (60 R265). -/
inductive Code where
  | ok
  | notFound
  | invalidWordCount
  | invalidEntropy
  | emptyWordlist
  | entropySourceError
  | checksumMismatch
  | illegalCommand
  | wordlistSize
  | operandError
  deriving DecidableEq, Repr

/-- The number of a completion code in STATUS.CODE (60 R265). -/
def Code.num : Code → BitVec 8
  | .ok => 0
  | .notFound => 1
  | .invalidWordCount => 2
  | .invalidEntropy => 3
  | .emptyWordlist => 4
  | .entropySourceError => 5
  | .checksumMismatch => 6
  | .illegalCommand => 7
  | .wordlistSize => 8
  | .operandError => 9

/-- STATUS at acceptance (60 R260): BUSY 1, every other field 0. -/
def Status.accepted : Status := ⟨true, false, false, false, 0⟩

/-- STATUS at completion (60 R261): BUSY 0, DONE 1, CODE, ERR = (CODE ≥ 2); WDROP as it stood. -/
def Status.finished (c : Code) (st : Status) : Status :=
  ⟨false, true, decide (2 ≤ c.num.toNat), st.wdrop, c.num⟩

/-- STATUS when a host write is dropped (70 R300): WDROP 1, the rest as it stood. -/
def Status.dropped (st : Status) : Status := { st with wdrop := true }

/-- STATUS as a register read (10 R34): BUSY[0] DONE[1] ERR[2] WDROP[3] CODE[15:8], the rest 0. -/
def Status.toWord (st : Status) : Word :=
  0#16 ++ st.code ++ 0#4 ++ BitVec.ofBool st.wdrop ++ BitVec.ofBool st.err ++ BitVec.ofBool st.done
    ++ BitVec.ofBool st.busy

end Sys2Proof.Machine
end

