-- ==== Sys2Proof/Machine/Operands.lean ====
section
/-! DEFINITION. The implicit register operands of the commands: what a command reads of HEX, ENT, CS and WORD,
and what it writes to them, with the zero-fill of 10_state.md R45 (30_encoding.md R111, R112). -/

namespace Sys2Proof.Machine

/-! ## Reading -/

/-- The characters `HEX[0..L)` with `L = HEX_LEN` (10 R36, R37). -/
def Data.hexChars (d : Data) : List Byte := d.hex.toList.take d.hexLen.toNat

/-- `ENT⟨0..ENT_LEN⟩` (10 R38). -/
def Data.entBits (d : Data) : Bits := (bitsN 256 d.ent.toNat).take d.entLen.toNat

/-- `bits_{CS_LEN}(CS)` (10 R39). -/
def Data.csBits (d : Data) : Bits := bitsN d.csLen.toNat d.cs.toNat

/-- `[WORD[i].IDX for i < w]` (10 R42). -/
def Data.wordIdxs (d : Data) (w : Nat) : List Nat := (d.word.toList.take w).map fun r => r.idx.toNat

/-- `exists i < w with WORD[i].NF = 1` (43 R240 step 2). -/
def Data.anyNotFound (d : Data) (w : Nat) : Bool := (d.word.toList.take w).any fun r => r.nf

/-! ## Writing, with the zero-fill of 10 R45 -/

/-- A list padded and cut to `n` entries has `n` entries. -/
theorem length_padded {α : Type} (l : List α) (x : α) (n : Nat) :
    ((l ++ List.replicate n x).take n).length = n := by
  rw [List.length_take, List.length_append, List.length_replicate]
  omega

/-- The HEX buffer that holds `h` and 0 at every later position. -/
def hexBuffer (h : List Byte) : Vector Byte 64 :=
  ⟨((h ++ List.replicate 64 0).take 64).toArray, by rw [List.size_toArray, length_padded]⟩

/-- The WORD array that holds the groups `g` with NF = 0, and 0 at every later position. -/
def wordArray (g : List Nat) : Vector WordReg 24 :=
  ⟨((g.map (fun x => WordReg.mk (BitVec.ofNat 11 x) false) ++ List.replicate 24 (WordReg.mk 0 false)).take 24).toArray,
    by rw [List.size_toArray, length_padded]⟩

/-- `HEX[0..|h|) <- h; HEX[|h|..64) <- 0; HEX_LEN <- |h|`. -/
def Data.setHex (h : List Byte) (d : Data) : Data :=
  { d with hex := hexBuffer h, hexLen := BitVec.ofNat 8 h.length }

/-- `ENT⟨0..|t|⟩ <- t; ENT⟨|t|..256⟩ <- 0; ENT_LEN <- |t|`. -/
def Data.setEnt (t : Bits) (d : Data) : Data :=
  { d with ent := padTo 256 t, entLen := BitVec.ofNat 9 t.length }

/-- `CS <- x; CS_LEN <- c`. -/
def Data.setCs (x c : Nat) (d : Data) : Data :=
  { d with cs := BitVec.ofNat 8 x, csLen := BitVec.ofNat 4 c }

/-- `CS_RX <- x; CS_RX_LEN <- c`. -/
def Data.setCsRx (x c : Nat) (d : Data) : Data :=
  { d with csRx := BitVec.ofNat 8 x, csRxLen := BitVec.ofNat 4 c }

/-- `SW <- s.w; SOVB <- s.overallBits; SCSB <- s.checksumBits; SENTB <- s.entropyBits`. -/
def Data.setSpec (s : EntropySpec) (d : Data) : Data :=
  { d with sw := BitVec.ofNat 5 s.w, sovb := BitVec.ofNat 9 s.overallBits,
           scsb := BitVec.ofNat 4 s.checksumBits, sentb := BitVec.ofNat 9 s.entropyBits }

/-- `WORD[i].IDX <- g[i], WORD[i].NF <- 0` for `i < |g|`, `WORD[i] <- 0` beyond, `RESULT_W <- |g|`. -/
def Data.setWords (g : List Nat) (d : Data) : Data :=
  { d with word := wordArray g, resultW := BitVec.ofNat 5 g.length }

end Sys2Proof.Machine
end

