-- ==== Sys2Proof/Machine/Ops.lean ====
section
/-! DEFINITION. The named operations on the state: accepting a command and ending one, which is this block's whole
error mechanism (60_exceptions.md R260, R261, R266, R270: nothing vectors and there is no return), the register
window (20_memory.md R71 to R80) and the host's accesses to it (20 R72, R80; 70 R300, R301). -/

namespace Sys2Proof.Machine

/-! ## Acceptance and completion -/

/-- `accept(v)` (60 R260). -/
def accept (v : Word) (s : State) : State :=
  { s with lastCmd := v, status := Status.accepted, fsm := .exec }

/-- `finish(code)` (60 R261). -/
def finish (c : Code) (s : State) : State :=
  { s with status := s.status.finished c, fsm := .idle }

/-- `raise code` (60 R261, R266): `finish` alone, no data register written. -/
def raise (c : Code) (s : State) : State := finish c s

/-- `complete(code)` with the commit set applied (60 R261): the data registers become `d`, then `finish`. -/
def complete (c : Code) (d : Data) (s : State) : State := finish c { s with d := d }

/-! ## The register map (20 R71) -/

/-- The registers of the window. -/
inductive Reg where
  | cmd
  | status
  | wlSize
  | hexLen
  | entLen
  | csum
  | spec
  | specBits
  | resultW
  | reserved
  | hexData (k : Fin 16)
  | entData (k : Fin 8)
  | word (i : Fin 24)
  deriving DecidableEq, Repr

/-- The register at an aligned offset inside the window (20 R71). -/
def regAt (off : Nat) : Reg :=
  if off = 0x000 then .cmd
  else if off = 0x004 then .status
  else if off = 0x008 then .wlSize
  else if off = 0x00C then .hexLen
  else if off = 0x010 then .entLen
  else if off = 0x014 then .csum
  else if off = 0x018 then .spec
  else if off = 0x01C then .specBits
  else if off = 0x020 then .resultW
  else if off < 0x040 then .reserved
  else if off < 0x080 then .hexData (Fin.ofNat 16 ((off - 0x040) / 4))
  else if off < 0x0A0 then .entData (Fin.ofNat 8 ((off - 0x080) / 4))
  else .word (Fin.ofNat 24 ((off - 0x0A0) / 4))

/-- The offset of a register (20 R71); of the reserved range, its first. -/
def Reg.offset : Reg → Nat
  | .cmd => 0x000
  | .status => 0x004
  | .wlSize => 0x008
  | .hexLen => 0x00C
  | .entLen => 0x010
  | .csum => 0x014
  | .spec => 0x018
  | .specBits => 0x01C
  | .resultW => 0x020
  | .reserved => 0x024
  | .hexData k => 0x040 + 4 * k.val
  | .entData k => 0x080 + 4 * k.val
  | .word i => 0x0A0 + 4 * i.val

/-- The registers of `D` (20 R71, column access; 70 R301). -/
def Reg.isData : Reg → Bool
  | .cmd | .status | .wlSize | .reserved => false
  | .hexLen | .entLen | .csum | .spec | .specBits | .resultW => true
  | .hexData _ | .entData _ | .word _ => true

/-- The host-writable registers (20 R71, R80). -/
def Reg.isRW : Reg → Bool
  | .cmd | .wlSize | .hexLen => true
  | .hexData _ | .word _ => true
  | .status | .entLen | .csum | .spec | .specBits | .resultW | .reserved => false
  | .entData _ => false

/-! ## Register contents -/

/-- Character position `4k + m` of the HEX buffer (20 R75). -/
def hexLane (k : Fin 16) (m : Fin 4) : Fin 64 := ⟨4 * k.val + m.val, by omega⟩

/-- HEX_DATA[k]: the lower position in the more significant lane (20 R75). -/
def readHexData (d : Data) (k : Fin 16) : Word :=
  d.hex[hexLane k 0] ++ d.hex[hexLane k 1] ++ d.hex[hexLane k 2] ++ d.hex[hexLane k 3]

/-- ENT_DATA[k] = val(ENT⟨32k .. 32k+32⟩) (20 R76). -/
def readEntData (d : Data) (k : Fin 8) : Word := d.ent.extractLsb' (224 - 32 * k.val) 32

/-- WORD[i]: IDX[10:0] and NF[15], the rest 0 (10 R42). -/
def readWord (r : WordReg) : Word := 0#16 ++ BitVec.ofBool r.nf ++ 0#4 ++ r.idx

/-- What a register holds (10 R33 to R43; 20 R73 to R76). -/
def readReg (s : State) : Reg → Word
  | .cmd => s.lastCmd
  | .status => s.status.toWord
  | .wlSize => s.wlSize
  | .hexLen => 0#24 ++ s.d.hexLen
  | .entLen => 0#23 ++ s.d.entLen
  | .csum => 0#4 ++ s.d.csRxLen ++ s.d.csRx ++ 0#4 ++ s.d.csLen ++ s.d.cs
  | .spec => 0#20 ++ s.d.scsb ++ 0#3 ++ s.d.sw
  | .specBits => 0#7 ++ s.d.sovb ++ 0#7 ++ s.d.sentb
  | .resultW => 0#27 ++ s.d.resultW
  | .reserved => 0
  | .hexData k => readHexData s.d k
  | .entData k => readEntData s.d k
  | .word i => readWord s.d.word[i]

/-- The HEX buffer after a write of HEX_DATA[k] (20 R75). -/
def writeHexData (hex : Vector Byte 64) (k : Fin 16) (v : Word) : Vector Byte 64 :=
  (((hex.set (hexLane k 0) (v.extractLsb' 24 8)).set (hexLane k 1) (v.extractLsb' 16 8)).set
    (hexLane k 2) (v.extractLsb' 8 8)).set (hexLane k 3) (v.extractLsb' 0 8)

/-- The fields of WORD[i] that a write stores (20 R74, R80). -/
def wordOf (v : Word) : WordReg := ⟨v.extractLsb' 0 11, v.getLsbD 15⟩

/-- A write to a register while BUSY = 0 (20 R80); RO and reserved offsets ignore it (R73). -/
def writeReg (v : Word) (s : State) : Reg → State
  | .cmd => accept v s
  | .wlSize => { s with wlSize := v }
  | .hexLen => { s with d := { s.d with hexLen := v.extractLsb' 0 8 } }
  | .hexData k => { s with d := { s.d with hex := writeHexData s.d.hex k v } }
  | .word i => { s with d := { s.d with word := s.d.word.set i (wordOf v) } }
  | .status | .entLen | .csum | .spec | .specBits | .resultW | .reserved => s
  | .entData _ => s

/-! ## Host accesses -/

/-- R72: an aligned 32-bit access inside the window. -/
def accessOk (off : Int) (size : Nat) : Bool :=
  decide (size = 4 ∧ 0 ≤ off ∧ off ≤ 0x0FC ∧ off % 4 = 0)

/-- The word is put on the bus for the host. -/
def returnWord (v : Word) (s : State) : State := { s with env := { s.env with readData := some v } }

/-- An unspecified read (70 R301): the next free value goes on the bus. -/
def returnFree (s : State) : State :=
  { s with env := { s.env with readData := some (Config.busyRead s.env.draws), draws := s.env.draws + 1 } }

/-- `MemRead(BASE+off, size)` (20 R72, R80; 70 R301). -/
def memRead (off : Int) (size : Nat) (s : State) : Result :=
  if accessOk off size then
    if (regAt off.toNat).isData && s.status.busy then .next (returnFree s)
    else .next (returnWord (readReg s (regAt off.toNat)) s)
  else .fault (.hostAccess off size)

/-- A write dropped while BUSY = 1 (70 R300). -/
def dropWrite (s : State) : State := { s with status := s.status.dropped }

/-- `MemWrite(BASE+off, size, v)` (20 R72, R80; 70 R300). -/
def memWrite (off : Int) (size : Nat) (v : Word) (s : State) : Result :=
  if accessOk off size then
    if (regAt off.toNat).isRW && s.status.busy then .next (dropWrite s)
    else .next (writeReg v s (regAt off.toNat))
  else .fault (.hostAccess off size)

end Sys2Proof.Machine
end

