-- ==== Sys2Proof/Machine/EntropySpec.lean ====
section
/-! DEFINITION. EntropySpec resolution: the size invariants and the commands SPECW and SPECE
(40_entropy_spec.md). -/

namespace Sys2Proof.Machine

/-- `validW(w) = (12 ≤ w ≤ 24) ∧ (w mod 3 = 0)` (40 R141). -/
def validW (w : Nat) : Bool := decide (12 ≤ w ∧ w ≤ 24 ∧ w % 3 = 0)

/-- `specFromW(w)` (40 R140); none is INVALID. -/
def specFromW (w : Nat) : Option EntropySpec :=
  if validW w then
    let overallBits := w * 11
    let checksumBits := (w - 12) / 3 + 4
    some ⟨w, overallBits, checksumBits, overallBits - checksumBits⟩
  else none

/-- The valid entropy bit lengths (40 R142). -/
def validEntBits (e : Nat) : Bool := decide (e = 128 ∨ e = 160 ∨ e = 192 ∨ e = 224 ∨ e = 256)

/-- `specFromEntBits(e)` (40 R142); none is INVALID. -/
def specFromEntBits (e : Nat) : Option EntropySpec :=
  if validEntBits e then
    let checksumBits := (e - 128) / 32 + 4
    let overallBits := e + checksumBits
    some ⟨overallBits / 11, overallBits, checksumBits, e⟩
  else none

/-- The size table (40 R143): the five EntropySpecs there are. -/
def specRows : List EntropySpec :=
  [⟨12, 132, 4, 128⟩, ⟨15, 165, 5, 160⟩, ⟨18, 198, 6, 192⟩, ⟨21, 231, 7, 224⟩, ⟨24, 264, 8, 256⟩]

/-- The valid entropy hex lengths (40 R144). -/
def validHexLen (l : Nat) : Bool := decide (l = 32 ∨ l = 40 ∨ l = 48 ∨ l = 56 ∨ l = 64)

/-- `validEntropyHex(HEX, L)` with `L = HEX_LEN` (40 R144). -/
def validEntropyHex (d : Data) : Bool := validHexLen d.hexLen.toNat && d.hexChars.all isHex

/-- SPECW (40 R145). -/
def execSpecw (w : Nat) (s : State) : Result :=
  match specFromW w with
  | none => .next (raise .invalidWordCount s)
  | some sp => .next (complete .ok (s.d.setSpec sp) s)

/-- SPECE (40 R146). -/
def execSpece (s : State) : Result :=
  if validEntropyHex s.d then
    match specFromEntBits (4 * s.d.hexLen.toNat) with
    | none => .next (raise .invalidEntropy s)
    | some sp => .next (complete .ok (s.d.setSpec sp) s)
  else .next (raise .invalidEntropy s)

end Sys2Proof.Machine
end

