-- ==== Sys2Proof/Machine/BitPacker.lean ====
section
/-! DEFINITION. The bit_packer: 11-bit grouping and its inverse, and the commands HEX2BITS, BITS2HEX, PACK and
UNPACK (42_bit_packer.md). -/

namespace Sys2Proof.Machine

/-- `group(s, w)`: consecutive windows of 11 bits, each read as a number (42 R187). -/
def group (s : Bits) (w : Nat) : List Nat :=
  (List.range w).map fun i => val (slice s (11 * i) (11 * i + 11))

/-- `ungroup(g, w)`: the 11-bit strings of the groups in order (42 R188). -/
def ungroup (g : List Nat) : Bits := g.flatMap fun x => bitsN 11 x

/-- `split(t, e)`: the entropy bits and the checksum bits (42 R188). -/
def split (t : Bits) (e : Nat) : Bits × Bits := (slice t 0 e, slice t e t.length)

/-- HEX2BITS (42 R190). -/
def execHex2bits (s : State) : Result :=
  if 64 < s.d.hexLen.toNat then .next (raise .invalidEntropy s)
  else if s.d.hexChars.all isHex then .next (complete .ok (s.d.setEnt (hexToBits s.d.hexChars)) s)
  else .next (raise .invalidEntropy s)

/-- BITS2HEX (42 R192). -/
def execBits2hex (s : State) : Result :=
  if s.d.entLen.toNat % 4 ≠ 0 then .next (raise .invalidEntropy s)
  else .next (complete .ok (s.d.setHex (bitsToHex s.d.entBits)) s)

/-- PACK (42 R194). -/
def execPack (s : State) : Result :=
  match specFromEntBits s.d.entLen.toNat with
  | none => .next (raise .invalidEntropy s)
  | some sp =>
    if s.d.csLen.toNat ≠ sp.checksumBits then .next (raise .operandError s)
    else .next (complete .ok (s.d.setWords (group (s.d.entBits ++ s.d.csBits) sp.w)) s)

/-- UNPACK (42 R196). NF is not looked at. -/
def execUnpack (w : Nat) (s : State) : Result :=
  match specFromW w with
  | none => .next (raise .invalidWordCount s)
  | some sp =>
    let t := ungroup (s.d.wordIdxs w)
    let (eb, cb) := split t sp.entropyBits
    .next (complete .ok ((s.d.setEnt eb).setCsRx (val cb) sp.checksumBits) s)

end Sys2Proof.Machine
end

