-- ==== Sys2Proof/Machine/Checksum.lean ====
section
/-! DEFINITION. The entropy_checksum_deriver: the top bits of a digest, and the commands CSUM and CSCHK
(41_checksum_deriver.md). -/

namespace Sys2Proof.Machine

/-- `mask(c) = (0xFF << (8 - c)) AND 0xFF` (41 R160). -/
def mask (c : Nat) : Byte := (0xFF#8 <<< (8 - c))

/-- The checksum from the first digest byte: `(d[0] AND mask(c)) >> (8 - c)` (41 R161). -/
def topBits (d0 : Byte) (c : Nat) : Nat := ((d0 &&& mask c) >>> (8 - c)).toNat

/-- `checksum(b, c)` (41 R161): only `d[0]` of the digest is read. -/
def checksum (b : List Byte) (c : Nat) : Nat := topBits (Config.hash b)[0] c

/-- CSUM (41 R164). The hashed bytes are the whole entropy, zero bytes included (R163). -/
def execCsum (s : State) : Result :=
  match specFromEntBits s.d.entLen.toNat with
  | none => .next (raise .invalidEntropy s)
  | some sp => .next (complete .ok (s.d.setCs (checksum (bytesOf s.d.entBits) sp.checksumBits) sp.checksumBits) s)

/-- CSCHK (41 R166). -/
def execCschk (s : State) : Result :=
  match specFromEntBits s.d.entLen.toNat with
  | none => .next (raise .invalidEntropy s)
  | some sp =>
    if s.d.csRxLen.toNat ≠ sp.checksumBits then .next (raise .operandError s)
    else
      let x := checksum (bytesOf s.d.entBits) sp.checksumBits
      if x ≠ s.d.csRx.toNat then .next (raise .checksumMismatch s)
      else .next (complete .ok (s.d.setCs x sp.checksumBits) s)

end Sys2Proof.Machine
end

