-- ==== Sys2Proof/Machine/Codec.lean ====
section
/-! DEFINITION. The bip39_codec: the shared steps, ENCODE, GENERATE with its wait for entropy, and DECODE
(43_codec.md). -/

namespace Sys2Proof.Machine

/-- `wordlistCheck()` (43 R222): the code it raises, none where it passes. -/
def wordlistCheck (wlSize : Word) : Option Code :=
  if wlSize = 0 then some .emptyWordlist
  else if wlSize ≠ 2048 then some .wordlistSize
  else none

/-- The commit set of `encodeCore` for entropy bytes `b` and checksum `x` (43 R224): every data register. -/
def encodeData (b : List Byte) (x : Nat) (sp : EntropySpec) : Data :=
  let ent := bitsOf b
  ((((Data.zero.setHex (bitsToHex ent)).setEnt ent).setCs x sp.checksumBits).setSpec sp).setWords
    (group (ent ++ bitsN sp.checksumBits x) sp.w)

/-- `encodeCore(b, s)` (43 R224), steps 3 to 6 of the encode path. -/
def encodeCore (b : List Byte) (sp : EntropySpec) (s : State) : State :=
  complete .ok (encodeData b (checksum b sp.checksumBits) sp) s

/-- `emptyMnemonic()` (43 R225): every data register 0, code NotFound. -/
def emptyMnemonic (s : State) : State := complete .notFound Data.zero s

/-- ENCODE (43 R230). -/
def execEncode (s : State) : Result :=
  if validEntropyHex s.d then
    match specFromEntBits (4 * s.d.hexLen.toNat) with
    | none => .next (raise .invalidEntropy s)
    | some sp =>
      match wordlistCheck s.wlSize with
      | some c => .next (raise c s)
      | none => .next (encodeCore (bytesOf (hexToBits s.d.hexChars)) sp s)
  else .next (raise .invalidEntropy s)

/-- `GCTX <- (s, n); RngRequest(n); FSM <- RNG_WAIT` (43 R234): no commit, BUSY stays as it is. -/
def requestEntropy (sp : EntropySpec) (s : State) : State :=
  { s with fsm := .rngWait ⟨sp, sp.entropyBits / 8⟩,
           env := { s.env with requests := sp.entropyBits / 8 :: s.env.requests } }

/-- GENERATE, its execution step in EXEC (43 R234). -/
def execGenerate (w : Nat) (s : State) : Result :=
  match specFromW w with
  | none => .next (raise .invalidWordCount s)
  | some sp =>
    match wordlistCheck s.wlSize with
    | some c => .next (raise c s)
    | none => .next (requestEntropy sp s)

/-- An answer of the entropy port (43 R236): consumed in RNG_WAIT, discarded anywhere else (20 R88). The bytes of
`RngOk` are the first `n` draws (log entry 6). -/
def rngAnswer (a : RngAnswer) (s : State) : State :=
  match s.fsm with
  | .rngWait g =>
    match a with
    | .ok draw => encodeCore (draw.toList.take g.n) g.spec s
    | .fail => raise .entropySourceError s
  | .idle => s
  | .exec => s

/-- The commit set of DECODE (43 R240 step 7) for entropy bits `eb`, received checksum `cb`, the reported checksum
`x` with its length `c`, and the word indices `g`: every data register. -/
def decodeData (eb cb : Bits) (x c : Nat) (g : List Nat) (sp : EntropySpec) : Data :=
  (((((Data.zero.setHex (bitsToHex eb)).setEnt eb).setCs x c).setCsRx (val cb) sp.checksumBits).setSpec sp).setWords g

/-- DECODE (43 R240). -/
def execDecode (w : Nat) (verify : Bool) (s : State) : Result :=
  match specFromW w with
  | none => .next (raise .invalidWordCount s)
  | some sp =>
    match wordlistCheck s.wlSize with
    | some c => .next (raise c s)
    | none =>
      if s.d.anyNotFound w then .next (emptyMnemonic s)
      else
        let g := s.d.wordIdxs w
        let (eb, cb) := split (ungroup g) sp.entropyBits
        if verify then
          let x := checksum (bytesOf eb) sp.checksumBits
          if x ≠ val cb then .next (raise .checksumMismatch s)
          else .next (complete .ok (decodeData eb cb x sp.checksumBits g sp) s)
        else .next (complete .ok (decodeData eb cb 0 0 g sp) s)

end Sys2Proof.Machine
end

