-- ==== Sys2Proof/Machine/Dispatch.lean ====
section
/-! DEFINITION. One arm per command: the command's meaning, at the block's execution step (30_encoding.md R112). -/

namespace Sys2Proof.Machine

/-- The execution step of a command. -/
def exec (i : Instr) (s : State) : Host.Outcome State Fault Refusal :=
  match i with
  | .specw w => Sys2Proof.Machine.execSpecw w s
  | .spece => Sys2Proof.Machine.execSpece s
  | .hex2bits => Sys2Proof.Machine.execHex2bits s
  | .bits2hex => Sys2Proof.Machine.execBits2hex s
  | .csum => Sys2Proof.Machine.execCsum s
  | .pack => Sys2Proof.Machine.execPack s
  | .unpack w => Sys2Proof.Machine.execUnpack w s
  | .cschk => Sys2Proof.Machine.execCschk s
  | .encode => Sys2Proof.Machine.execEncode s
  | .generate w => Sys2Proof.Machine.execGenerate w s
  | .decode w vfy => Sys2Proof.Machine.execDecode w vfy s

end Sys2Proof.Machine
end

