-- ==== Sys2Proof/Machine/Agents.lean ====
section
/-! DEFINITION. The agents of 60_exceptions.md R280 and how one of them takes a step: the host, the block (the
sequencer of 43_codec.md R220, R221), the entropy source (20_memory.md R88) and the reset input
(70_reset_and_hazards.md R290, R291). -/

namespace Sys2Proof.Machine

/-! ## The block -/

/-- The latched command word the execution step decodes (10 R47, 20 R85). -/
def fetch (s : State) : Word := s.lastCmd

/-- The execution step (43 R220): the latched command's meaning, or IllegalCommand where no row matches
(30 R116). -/
def execStep (s : State) : Result :=
  match decode (fetch s) with
  | .ok i => exec i s
  | .error _ => .next (raise .illegalCommand s)

/-- The block's turn: its execution step in EXEC; in IDLE and in RNG_WAIT it has none (43 R220, R221, R236). -/
def blockTurn (s : State) : Result :=
  match s.fsm with
  | .exec => execStep s
  | .idle => .next s
  | .rngWait _ => .next s

/-! ## The host -/

/-- One STATUS read of `poll`: the operation is over when BUSY reads 0, else it stands for the next turn
(30 R119). -/
def pollStatus (rest : List HostOp) (s : State) : State :=
  let s' := returnWord s.status.toWord s
  if s.status.busy then s' else { s' with env := { s'.env with program := rest } }

/-- The host's turn: its next operation, if it has one (20 R83). -/
def hostTurn (s : State) : Result :=
  match s.env.program with
  | [] => .next s
  | .read off size :: rest => memRead off size { s with env := { s.env with program := rest } }
  | .write off size v :: rest => memWrite off size v { s with env := { s.env with program := rest } }
  | .poll :: rest => .next (pollStatus rest s)

/-! ## The entropy source and the reset input -/

/-- The entropy source's turn: its next answer, if it has one (20 R88, 43 R236). -/
def sourceTurn (s : State) : Result :=
  match s.env.answers with
  | [] => .next s
  | a :: rest => .next (rngAnswer a { s with env := { s.env with answers := rest } })

/-- Reset (70 R290, R291): every register of the block at its reset value; what the other agents still have to do
is not the block's (log entry 10). -/
def resetBlock (s : State) : State := { State.reset with env := s.env }

/-! ## One step -/

/-- An agent takes its turn. -/
def takeTurn (t : Turn) (s : State) : Result :=
  match t with
  | .host => hostTurn s
  | .block => blockTurn s
  | .source => sourceTurn s
  | .reset => .next (resetBlock s)

/-- Who moves where `env.turns` names nobody (log entry 3): the block while it has a step, the source while an
answer is awaited and there is one, else the host. -/
def defaultTurn (s : State) : Turn :=
  match s.fsm with
  | .exec => .block
  | .rngWait _ => if s.env.answers.isEmpty then .host else .source
  | .idle => .host

/-- One step of the machine: the next turn of `env.turns`, or the default one. -/
def agentStep (s : State) : Result :=
  match s.env.turns with
  | [] => takeTurn (defaultTurn s) s
  | t :: ts => takeTurn t { s with env := { s.env with turns := ts } }

/-- `s` with the command word accepted (60 R260) and the block's execution step the next one; the bits of the word
above `nbits` are 0 (log entry 2). -/
def placeCommand (nbits w : Nat) (s : State) : State :=
  let s' := accept (BitVec.ofNat 32 (w % 2 ^ nbits)) s
  match s.env.turns with
  | [] => s'
  | t :: ts => { s' with env := { s'.env with turns := .block :: t :: ts } }

end Sys2Proof.Machine
end

