-- ==== Sys2Proof/Machine/Assembler.lean ====
section
/-! DEFINITION. The host's side of the interface: command text (30_encoding.md R117), host operations by register
name (R118), the pseudo-instructions (R119), and the programs of the host's duties (20_memory.md R89,
70_reset_and_hazards.md R293). -/

namespace Sys2Proof.Machine

/-! ## Command text (R117): lower case, operands in decimal or 0x hex -/

/-- The value of a decimal digit. -/
def decDigit (c : Char) : Option Nat :=
  if 48 ≤ c.toNat ∧ c.toNat ≤ 57 then some (c.toNat - 48) else none

/-- The value of a digit of a 0x number, its letters in lower or upper case: R117 names no case for them, and that both
are taken is the model's choice (DESIGN CHOICE, log entry 20). -/
def hexDigit (c : Char) : Option Nat :=
  if 48 ≤ c.toNat ∧ c.toNat ≤ 57 then some (c.toNat - 48)
  else if 97 ≤ c.toNat ∧ c.toNat ≤ 102 then some (c.toNat - 87)
  else if 65 ≤ c.toNat ∧ c.toNat ≤ 70 then some (c.toNat - 55)
  else none

/-- The number a list of digits writes in a base, none where a digit is not one or there is no digit. -/
def digitsValue (base : Nat) (digit : Char → Option Nat) : List Char → Option Nat
  | [] => none
  | cs => cs.foldl (fun acc c => match acc, digit c with
      | some a, some x => some (base * a + x)
      | _, _ => none) (some 0)

/-- An operand: decimal, or hex after 0x. Leading zeros are taken (DESIGN CHOICE, log entry 20). -/
def parseNumber : List Char → Option Nat
  | '0' :: 'x' :: cs => digitsValue 16 hexDigit cs
  | cs => digitsValue 10 decDigit cs

/-- The verify operand of `decode`: 0 or 1, every other value rejected. -/
def parseFlag (cs : List Char) : Option Bool :=
  match parseNumber cs with
  | some 0 => some false
  | some 1 => some true
  | _ => none

/-- The pieces of a line between its blanks and commas, which part words alike (DESIGN CHOICE, log entry 20). -/
def tokens : List Char → List (List Char)
  | [] => []
  | c :: cs =>
    if c = ' ' ∨ c = ',' then [] :: tokens cs
    else match tokens cs with
      | [] => [[c]]
      | t :: ts => (c :: t) :: ts

/-- A well-formed command, rejected where an operand is out of range (R117). -/
def checked (i : Instr) : Option Instr := if i.wf then some i else none

/-- The command a line of text writes (R117). -/
def parseCommand (line : List Char) : Option Instr :=
  match (tokens line).filter (fun t => !t.isEmpty) with
  | [['s', 'p', 'e', 'c', 'w'], w] => (parseNumber w).bind fun w => checked (.specw w)
  | [['s', 'p', 'e', 'c', 'e']] => some .spece
  | [['h', 'e', 'x', '2', 'b', 'i', 't', 's']] => some .hex2bits
  | [['b', 'i', 't', 's', '2', 'h', 'e', 'x']] => some .bits2hex
  | [['c', 's', 'u', 'm']] => some .csum
  | [['p', 'a', 'c', 'k']] => some .pack
  | [['u', 'n', 'p', 'a', 'c', 'k'], w] => (parseNumber w).bind fun w => checked (.unpack w)
  | [['c', 's', 'c', 'h', 'k']] => some .cschk
  | [['e', 'n', 'c', 'o', 'd', 'e']] => some .encode
  | [['g', 'e', 'n', 'e', 'r', 'a', 't', 'e'], w] => (parseNumber w).bind fun w => checked (.generate w)
  | [['d', 'e', 'c', 'o', 'd', 'e'], w, v] =>
    (parseNumber w).bind fun w => (parseFlag v).bind fun v => checked (.decode w v)
  | _ => none

/-! ## Host operations (R118) -/

/-- `wr <reg>, <value>`. -/
def wr (r : Reg) (v : Word) : HostOp := .write r.offset 4 v

/-- `rd <reg>`. -/
def rd (r : Reg) : HostOp := .read r.offset 4

/-- `MemRead(addr, size)` at a bus address: the offset is taken from BASE (20 R70). -/
def busRead (addr size : Nat) : HostOp := .read ((addr : Int) - (Config.base : Int)) size

/-- `MemWrite(addr, size, v)` at a bus address. -/
def busWrite (addr size : Nat) (v : Word) : HostOp := .write ((addr : Int) - (Config.base : Int)) size v

/-! ## Pseudo-instructions (R119) -/

/-- `run <command>`: write its word to CMD, then poll. -/
def run (i : Instr) : List HostOp := [wr .cmd (encode i), .poll]

/-- `setwl <n>`; of an `n` above 32 bits the low 32 are written (DESIGN CHOICE, log entry 22). -/
def setwl (n : Nat) : HostOp := wr .wlSize (BitVec.ofNat 32 n)

/-- The HEX_DATA word of characters `4k..4k+3` of a string, missing characters 0x00 (R119). -/
def hexWord (s : List Byte) (k : Nat) : Word :=
  s.getD (4 * k) 0 ++ s.getD (4 * k + 1) 0 ++ s.getD (4 * k + 2) 0 ++ s.getD (4 * k + 3) 0

/-- `loadhex "<s>"`: the HEX_DATA words the string fills, at most 16, then HEX_LEN, at most 255. -/
def loadhex (s : List Byte) : List HostOp :=
  (((List.finRange 16).filter fun k => decide (k.val < (s.length + 3) / 4)).map fun k =>
    wr (.hexData k) (hexWord s k.val)) ++ [wr .hexLen (BitVec.ofNat 32 (min s.length 255))]

/-- An entry of `loadwords`: a number, or `nf` for NF = 1 and IDX = 0. R119 gives numbers 0 to 2047; of a larger one
the low 32 bits are written as they are, so that its bit 15 sets NF (DESIGN CHOICE, log entry 22). -/
def wordEntry : Option Nat → Word
  | some n => BitVec.ofNat 32 n
  | none => 0x00008000

/-- `loadwords <e_0>, …`: one WORD register per entry. R119 gives at most 24 entries; later ones write nothing (DESIGN
CHOICE, log entry 22). -/
def loadwords (es : List (Option Nat)) : List HostOp :=
  ((List.finRange 24).filter fun i => decide (i.val < es.length)).map fun i =>
    wr (.word i) (wordEntry (es.getD i.val none))

/-! ## The host's duties (20 R89, 70 R293) -/

/-- Duties (a) and 70 R293: report the Wordlist's size, load a hex string, run ENCODE. -/
def encodeProgram (size : Nat) (hex : List Byte) : List HostOp :=
  setwl size :: (loadhex hex ++ run .encode)

/-- Duty (a) before GENERATE; a word count above 255 is reported as 255 (30 R111). -/
def generateProgram (size w : Nat) : List HostOp := setwl size :: run (.generate (min w 255))

/-- Duties (a) and (b): the Wordlist's size, the `indexOf` results of the phrase's words, `min(m, 255)` in
CMD.W. -/
def decodeProgram (size : Nat) (lookups : List (Option Nat)) (verify : Bool) : List HostOp :=
  setwl size :: (loadwords lookups ++ run (.decode (min lookups.length 255) verify))

end Sys2Proof.Machine
end

