-- ==== Sys2Proof/Safety.lean ====
section
/-! DEFINITION. What counts as a good state and a good run of `bip39_core`: the register invariants the spec states
(10_state.md R34, R38 to R41, R43, R46, R47), the host's duties that a run takes as premises (20_memory.md R72, R89,
70_reset_and_hazards.md R300), a run, and its end (70_reset_and_hazards.md R304). -/

namespace Sys2Proof.Machine

/-- The EntropySpec registers as an EntropySpec. -/
def Data.spec (d : Data) : EntropySpec := ⟨d.sw.toNat, d.sovb.toNat, d.scsb.toNat, d.sentb.toNat⟩

/-- The invariants of the data registers (10 R38 to R41, R43). -/
structure Data.Inv (d : Data) : Prop where
  /-- ENT_LEN is in 0..256 (R38). -/
  entLen_le : d.entLen.toNat ≤ 256
  /-- ENT_LEN is a multiple of 4 (R38). -/
  entLen_mod : d.entLen.toNat % 4 = 0
  /-- `ENT⟨i⟩ = 0` for every `i ≥ ENT_LEN` (R38). -/
  ent_tail : ∀ i, d.entLen.toNat ≤ i → d.ent.getMsbD i = false
  /-- CS_LEN is in 0..8 (R39). -/
  csLen_le : d.csLen.toNat ≤ 8
  /-- `CS < 2^CS_LEN` (R39). -/
  cs_lt : d.cs.toNat < 2 ^ d.csLen.toNat
  /-- CS_RX_LEN is in 0..8 (R40). -/
  csRxLen_le : d.csRxLen.toNat ≤ 8
  /-- `CS_RX < 2^CS_RX_LEN` (R40). -/
  csRx_lt : d.csRx.toNat < 2 ^ d.csRxLen.toNat
  /-- All four EntropySpec registers 0, or one of the five rows (R41). -/
  spec_row : d.spec = ⟨0, 0, 0, 0⟩ ∨ d.spec ∈ specRows
  /-- RESULT_W is 0 or a valid word count (R43). -/
  resultW_valid : d.resultW.toNat = 0 ∨ validW d.resultW.toNat = true

/-- The invariants of the control registers and the hidden state. -/
structure State.CtlInv (s : State) : Prop where
  /-- `BUSY = 1` exactly when `FSM ≠ IDLE` (10 R46). -/
  busy_iff : s.status.busy = true ↔ s.fsm ≠ .idle
  /-- ERR is always equal to (CODE ≥ 2) (10 R34). -/
  err_eq : s.status.err = decide (2 ≤ s.status.code.toNat)
  /-- CODE is 0 while BUSY (10 R34). -/
  code_busy : s.status.busy = true → s.status.code = 0
  /-- DONE is 0 from acceptance to completion (10 R34). -/
  done_busy : s.status.busy = true → s.status.done = false
  /-- Before the first completion CODE is 0 (10 R34: the code of the last completed command). -/
  code_done : s.status.done = false → s.status.code = 0
  /-- Codes 10 to 255 are never produced (60 R265). -/
  code_le : s.status.code.toNat ≤ 9
  /-- WDROP is set during a command and stays until the next acceptance (10 R34, 70 R300). -/
  wdrop_cause : s.status.wdrop = true → s.status.busy = true ∨ s.status.done = true
  /-- GCTX holds a resolved EntropySpec and its byte count (10 R47, 43 R234). -/
  gctx_valid : ∀ g, s.fsm = .rngWait g → g.spec ∈ specRows ∧ g.n = g.spec.entropyBits / 8

/-- The invariant of the machine: what the spec says of the registers at all times. -/
structure State.Inv (s : State) : Prop where
  data : s.d.Inv
  ctl : s.CtlInv

/-! ## Terms the claims use -/

/-- Character `HEX[j]`; beyond the buffer 0. -/
def Data.hexAt (d : Data) (j : Nat) : Byte := d.hex.toList.getD j 0

/-- Register `WORD[i]`; beyond the array 0. -/
def Data.wordAt (d : Data) (i : Nat) : WordReg := d.word.toList.getD i ⟨0, false⟩

/-- The first `n` ENT bytes: byte `j` is `val(ENT⟨8j..8j+8⟩)` (10 R38). -/
def Data.entBytes (d : Data) (n : Nat) : List Byte := (List.range n).map fun j => d.ent.extractLsb' (248 - 8 * j) 8

/-- HEX and HEX_LEN hold valid entropy (40 R144). -/
def Data.EntropyOk (d : Data) : Prop :=
  (d.hexLen.toNat = 32 ∨ d.hexLen.toNat = 40 ∨ d.hexLen.toNat = 48 ∨ d.hexLen.toNat = 56 ∨ d.hexLen.toNat = 64) ∧
    ∀ j, j < d.hexLen.toNat → isHex (d.hexAt j) = true

/-- Entropy bit `i` of the hex string: bit `3 - i mod 4` of the nibble of character `i / 4` (42 R180). -/
def Data.hexBit (d : Data) (i : Nat) : Bool := (nib (d.hexAt (i / 4))).testBit (3 - i % 4)

/-- Bit `p` of the concatenated 11-bit groups of WORD (42 R188). -/
def Data.groupBit (d : Data) (p : Nat) : Bool := (d.wordAt (p / 11)).idx.getLsbD (10 - p % 11)

/-- The number of checksum bits that goes with `e` entropy bits (40 R142). -/
def csBitsOf (e : Nat) : Nat := (e - 128) / 32 + 4

/-- The number of entropy bits that goes with `w` words (40 R140). -/
def entBitsOf (w : Nat) : Nat := 11 * w - ((w - 12) / 3 + 4)

/-- ENT and ENT_LEN hold the bit string of length `e` whose bit `i` is `bit i`, 0 beyond (10 R38, R45). -/
def Data.EntIs (d : Data) (e : Nat) (bit : Nat → Bool) : Prop :=
  d.entLen.toNat = e ∧ ∀ i, d.ent.getMsbD i = (decide (i < e) && bit i)

/-- HEX and HEX_LEN hold the lower-case hex string of that bit string, 0 beyond (42 R183, 10 R45). -/
def Data.HexIs (d : Data) (e : Nat) (bit : Nat → Bool) : Prop :=
  d.hexLen.toNat = e / 4 ∧ ∀ j, d.hexAt j = if j < e / 4 then
    hexChar (8 * (bit (4 * j)).toNat + 4 * (bit (4 * j + 1)).toNat + 2 * (bit (4 * j + 2)).toNat
      + (bit (4 * j + 3)).toNat) else 0

/-- WORD holds `w` groups of the string that begins with `e` bits `bit` and ends with the low bits of `x`; NF is 0
everywhere, and registers beyond are 0 (42 R187, R198; 10 R42, R45). -/
def Data.WordsAre (d : Data) (w e : Nat) (bit : Nat → Bool) (x : Nat) : Prop :=
  (∀ p, p < 11 * w → d.groupBit p = if p < e then bit p else x.testBit (11 * w - 1 - p)) ∧
    (∀ i, (d.wordAt i).nf = false) ∧ (∀ i, w ≤ i → d.wordAt i = ⟨0, false⟩)

/-- The command ended with code `c`: STATUS and FSM as 60 R261 says, and LASTCMD, WL_SIZE and the environment as
they stood. -/
structure State.Ended (s : State) (c : Code) (t : State) : Prop where
  busy : t.status.busy = false
  done : t.status.done = true
  code : t.status.code = c.num
  err : t.status.err = decide (2 ≤ c.num.toNat)
  wdrop : t.status.wdrop = s.status.wdrop
  fsm : t.fsm = .idle
  lastCmd : t.lastCmd = s.lastCmd
  wlSize : t.wlSize = s.wlSize
  env : t.env = s.env

/-- The command raised `c`: it ended, and no data register changed (60 R266). -/
def State.Raised (s : State) (c : Code) (t : State) : Prop := s.Ended c t ∧ t.d = s.d

/-- Every register of the block is the same in both states; what the environment still does may differ. -/
def State.SameRegs (s t : State) : Prop :=
  t.lastCmd = s.lastCmd ∧ t.status = s.status ∧ t.wlSize = s.wlSize ∧ t.d = s.d ∧ t.fsm = s.fsm

/-- `s` after its next turn is taken from `turns`. -/
def State.popTurn (s : State) : State := { s with env := { s.env with turns := s.env.turns.tail } }

/-- Who takes the next step. -/
def State.nextTurn (s : State) : Turn := s.env.turns.headD (defaultTurn s)

/-- The operation the host issues next is outside the contract of 20 R72. -/
def State.nextOpBad (s : State) : Prop :=
  (∃ off size rest, s.env.program = .read off size :: rest ∧ accessOk off size = false) ∨
    (∃ off size v rest, s.env.program = .write off size v :: rest ∧ accessOk off size = false)

/-- The host's duty of 20 R72: the access is an aligned 32-bit one inside the window. -/
def HostOp.inContract : HostOp → Bool
  | .read off size => accessOk off size
  | .write off size _ => accessOk off size
  | .poll => true

/-- Every operation the host still has to issue is inside the contract (70 R304). -/
def State.hostKeepsContract (s : State) : Prop := ∀ op ∈ s.env.program, op.inContract = true

/-- A safe step: it does not fault and is not refused. -/
def State.stepsSafely (s : State) : Prop := ∃ s', step s = .next s'

/-! ## The host's duties and a run (70 R304) -/

/-- The host takes the next step, and `op` is the operation it issues. -/
def State.hostIssues (s : State) (op : HostOp) : Prop := s.nextTurn = .host ∧ ∃ rest, s.env.program = op :: rest

/-- The operation writes a host-writable register: an operand, or CMD (20 R71; the offsets 70 R300 lists). -/
def HostOp.writesRW : HostOp → Bool
  | .write off _ _ => (regAt off.toNat).isRW
  | .read _ _ => false
  | .poll => false

/-- The operation writes CMD. -/
def HostOp.writesCmd : HostOp → Bool
  | .write off _ _ => decide (regAt off.toNat = .cmd)
  | .read _ _ => false
  | .poll => false

/-- The host writes operands, and the next command, only while BUSY = 0 (70 R304, R300): its duty in this state. -/
def State.writesWhenIdle (s : State) : Prop :=
  ∀ op, s.hostIssues op → op.writesRW = true → s.status.busy = false

/-- A way to keep that duty that can be read off the program (the "wait" of 70 R300; one way, log entry 23): after a CMD
write a `poll` comes before the next write. `mayRun`: a command may be running when the first operation is issued. -/
def pollsBeforeWrites : Bool → List HostOp → Bool
  | _, [] => true
  | mayRun, op :: rest =>
    match op with
    | .poll => pollsBeforeWrites false rest
    | .read _ _ => pollsBeforeWrites mayRun rest
    | .write _ _ _ => !(mayRun && op.writesRW) && pollsBeforeWrites (mayRun || op.writesCmd) rest

/-- What the host still has to issue waits for BUSY = 0 before each write (70 R300). -/
def State.hostWaits (s : State) : Prop := pollsBeforeWrites s.status.busy s.env.program = true

/-- A phrase as its words: the host splits it (20 R89 (b), 00 R5). A parameter of a run; the block holds none. -/
abbrev Phrase := List (List Char)

/-- The Wordlist: `size()` is its length, `wordAt(i)` its entry `i` (20 R89). A parameter of a run; its content is
outside the model (00 R5). -/
abbrev Wordlist := List (List Char)

/-- `indexOf(word)`: its position, none for NOT_FOUND (20 R89). -/
def Wordlist.indexOf (wl : Wordlist) (w : List Char) : Option Nat := wl.idxOf? w

/-- The legal command that the host's next step writes to CMD while BUSY = 0 (60 R260); none where there is no such
step. -/
def State.issuedCommand (s : State) : Option Instr :=
  match s.nextTurn, s.env.program with
  | .host, .write off _ v :: _ =>
    if s.status.busy = false ∧ regAt off.toNat = .cmd then (decode v).toOption else none
  | _, _ => none

/-- The codec commands (30 R112). -/
def isCodec : Instr → Bool
  | .encode | .generate _ | .decode _ _ => true
  | .specw _ | .spece | .hex2bits | .bits2hex | .csum | .pack | .unpack _ | .cschk => false

/-- Duty (a) of 20 R89: when a codec command is issued WL_SIZE holds `size()`. -/
def State.sizeReported (wl : Wordlist) (s : State) : Prop :=
  ∀ i, s.issuedCommand = some i → isCodec i = true → s.wlSize.toNat = wl.length

/-- A WORD register holds the result of a lookup: the index with NF = 0, or IDX = 0 and NF = 1 (20 R89 (b)). -/
def WordReg.reports (r : WordReg) : Option Nat → Prop
  | some n => r.idx.toNat = n ∧ r.nf = false
  | none => r.idx = 0 ∧ r.nf = true

/-- Duty (b) of 20 R89: when a DECODE is issued its operand is the phrase's word count, at most 255, and the WORD
registers hold the lookups of the phrase's words, at most 24. -/
def State.wordsReported (wl : Wordlist) (p : Phrase) (s : State) : Prop :=
  ∀ w v, s.issuedCommand = some (.decode w v) → w = min p.length 255 ∧
    ∀ i, i < min p.length 24 → (s.d.wordAt i).reports (wl.indexOf (p.getD i []))

/-- The phrases left after the next step: each DECODE issued takes one. -/
def State.phrasesLeft (s : State) (ps : List Phrase) : List Phrase :=
  match s.issuedCommand with
  | some (.decode _ _) => ps.tail
  | _ => ps

/-- The duties of the host that a run takes as premises (70 R304), in one of the run's states; `ps` are the phrases of
the DECODEs still to issue. That the reports of 20 R89 are asked of the registers when CMD is written, however early the
host wrote them, is DEDUCED from 70 R293, which has WL_SIZE written once (log entry 23).
A CMD write that waits is part of the first duty, as 70 R300 asks. -/
structure State.hostKeepsDuties (wl : Wordlist) (ps : List Phrase) (s : State) : Prop where
  /-- It writes operands only while BUSY = 0 (70 R300). -/
  idle : s.writesWhenIdle
  /-- It reports the Wordlist's size faithfully (20 R89 (a)). -/
  size : s.sizeReported wl
  /-- It reports the words' indices faithfully (20 R89 (b)). -/
  words : ∀ w v, s.issuedCommand = some (.decode w v) → ∃ p qs, ps = p :: qs ∧ s.wordsReported wl p
  /-- It issues only aligned 32-bit accesses inside the window (20 R72). -/
  aligned : s.hostKeepsContract

/-- `t` is reached from `s` by steps, the host keeping its duties at each (70 R304). A step that faults has no next
state and is in no run. -/
inductive Run (wl : Wordlist) : List Phrase → State → State → Prop where
  | nil (ps : List Phrase) (s : State) : Run wl ps s s
  | cons {ps : List Phrase} {s t u : State} (duties : s.hostKeepsDuties wl ps) (h : step s = .next t)
      (rest : Run wl (s.phrasesLeft ps) t u) : Run wl ps s u

/-- `t` is a state of a run: reached from the reset state, the host's program and the entropy port's answers being those
of `env` (70 R304). -/
def InRun (wl : Wordlist) (ps : List Phrase) (env : Env) (t : State) : Prop :=
  Run wl ps { State.reset with env := env } t

/-- The run has ended (70 R304): no host operation is left and no command runs. -/
def State.runEnded (s : State) : Bool := s.env.program.isEmpty && !s.status.busy

/-- `t` is the final state of a run: the run has ended in it (70 R304). -/
def FinalState (wl : Wordlist) (ps : List Phrase) (env : Env) (t : State) : Prop :=
  InRun wl ps env t ∧ t.runEnded = true

end Sys2Proof.Machine
end

