-- ==== Sys2Proof/Certificates/Slice0/Obligations.lean ====
section
/-! DEFINITION. The statements for the provers, each from the numbered rules of spec/ its docstring names. Every
statement about a command gives its outcome in every state: the next state of its own effect with the registers it
writes and that no other register changes (its frame), and the code of each error in the order of 60 R268. The
block has no memory (20 R70), so a frame speaks of registers alone.

What is the model's own in them: what a read returns stands in `env.readData` and an entropy request in
`env.requests` (log entry 11); who takes a step is `nextTurn` (log entries 1 and 3). -/

open Sys2Proof Sys2Proof.Machine

/-! ## Encoding (30_encoding.md) -/

/-- R110, R111, R117: decoding the word of a well-formed command gives the command back, every operand at every
value. -/
def Obligations.DecodeOfEncode : Prop := ∀ i : Instr, i.wf = true → decode (encode i) = .ok i

/-- R113, R115: a word that decodes is the word of exactly the command it decodes to, and that command is
well-formed. -/
def Obligations.EncodeOfDecode : Prop :=
  ∀ (v : Word) (i : Instr), decode v = .ok i → i.wf = true ∧ encode i = v

/-- R113: the word selects the row with `(v AND mask) = match`, and at most one row matches. -/
def Obligations.DecodeFollowsPatterns : Prop :=
  ∀ v : Word,
    (v &&& 0xFF00FFFF#32 = 0x00000001#32 → decode v = .ok (.specw (v.extractLsb' 16 8).toNat)) ∧
    (v &&& 0xFFFFFFFF#32 = 0x00000002#32 → decode v = .ok .spece) ∧
    (v &&& 0xFFFFFFFF#32 = 0x00000003#32 → decode v = .ok .hex2bits) ∧
    (v &&& 0xFFFFFFFF#32 = 0x00000004#32 → decode v = .ok .bits2hex) ∧
    (v &&& 0xFFFFFFFF#32 = 0x00000005#32 → decode v = .ok .csum) ∧
    (v &&& 0xFFFFFFFF#32 = 0x00000006#32 → decode v = .ok .pack) ∧
    (v &&& 0xFF00FFFF#32 = 0x00000007#32 → decode v = .ok (.unpack (v.extractLsb' 16 8).toNat)) ∧
    (v &&& 0xFFFFFFFF#32 = 0x00000008#32 → decode v = .ok .cschk) ∧
    (v &&& 0xFFFFFFFF#32 = 0x00000009#32 → decode v = .ok .encode) ∧
    (v &&& 0xFF00FFFF#32 = 0x0000000A#32 → decode v = .ok (.generate (v.extractLsb' 16 8).toNat)) ∧
    (v &&& 0xFF00FEFF#32 = 0x0000000B#32 →
      decode v = .ok (.decode (v.extractLsb' 16 8).toNat (v.getLsbD 8))) ∧
    (∀ r₁ ∈ opcodeTable, ∀ r₂ ∈ opcodeTable, r₁.selects v = true → r₂.selects v = true → r₁.fixed = r₂.fixed) ∧
    ((∀ r ∈ opcodeTable, r.selects v = false) → ∃ e, decode v = .error e)

/-- R115, with the opcodes of R114: a word is legal exactly when its opcode is 0x01 to 0x0B, its reserved fields are
0, W is 0 for an opcode that takes none and VFY is 0 for an opcode other than DECODE; equivalently, when some row
matches it. -/
def Obligations.LegalWordFields : Prop :=
  ∀ v : Word,
    ((∃ i, decode v = .ok i) ↔
      (1 ≤ (v.extractLsb' 0 5).toNat ∧ (v.extractLsb' 0 5).toNat ≤ 0x0B ∧
        v.extractLsb' 24 8 = 0#8 ∧ v.extractLsb' 9 7 = 0#7 ∧ v.extractLsb' 5 3 = 0#3 ∧
        (v.extractLsb' 16 8 ≠ 0#8 → (v.extractLsb' 0 5).toNat ∈ [0x01, 0x07, 0x0A, 0x0B]) ∧
        (v.getLsbD 8 = true → (v.extractLsb' 0 5).toNat = 0x0B))) ∧
    ((∃ i, decode v = .ok i) ↔ ∃ r ∈ opcodeTable, r.selects v = true)

/-- R117: the syntax table's words, for every operand the assembler admits, and that it rejects every other. -/
def Obligations.AssemblerWords : Prop :=
  (∀ w, w ≤ 255 →
    assemble (.specw w) = some (0x00000001#32 ||| BitVec.ofNat 32 w <<< 16) ∧
    assemble (.unpack w) = some (0x00000007#32 ||| BitVec.ofNat 32 w <<< 16) ∧
    assemble (.generate w) = some (0x0000000A#32 ||| BitVec.ofNat 32 w <<< 16) ∧
    assemble (.decode w false) = some (0x0000000B#32 ||| BitVec.ofNat 32 w <<< 16) ∧
    assemble (.decode w true) = some (0x0000010B#32 ||| BitVec.ofNat 32 w <<< 16)) ∧
  (∀ w, 255 < w → assemble (.specw w) = none ∧ assemble (.unpack w) = none ∧ assemble (.generate w) = none ∧
    ∀ b, assemble (.decode w b) = none) ∧
  assemble .spece = some 0x00000002#32 ∧ assemble .hex2bits = some 0x00000003#32 ∧
  assemble .bits2hex = some 0x00000004#32 ∧ assemble .csum = some 0x00000005#32 ∧
  assemble .pack = some 0x00000006#32 ∧ assemble .cschk = some 0x00000008#32 ∧
  assemble .encode = some 0x00000009#32

/-- R113, R117 on words written out bit by bit from the patterns: one of each operand shape, and R117's examples. -/
def Obligations.WrittenWordsDecode : Prop :=
  decode 0b00000000000011110000000000000001#32 = .ok (.specw 15) ∧
  decode 0b00000000000000000000000000000010#32 = .ok .spece ∧
  decode 0b00000000000000000000000000000110#32 = .ok .pack ∧
  decode 0b00000000000011000000000000000111#32 = .ok (.unpack 12) ∧
  decode 0b00000000000000000000000000001001#32 = .ok .encode ∧
  decode 0b00000000000011110000000000001010#32 = .ok (.generate 15) ∧
  decode 0b00000000000011000000000100001011#32 = .ok (.decode 12 true)

/-! ## Acceptance, completion and the sequencer (60_exceptions.md, 43_codec.md) -/

/-- R260: a CMD write while BUSY = 0 is accepted whatever its value, and one while BUSY = 1 is dropped. -/
def Obligations.CommandAcceptance : Prop :=
  ∀ (s : State) (v : Word),
    (s.status.busy = false → ∃ t, memWrite 0x000 4 v s = .next t ∧ t.lastCmd = v ∧ t.status.busy = true ∧
      t.status.done = false ∧ t.status.err = false ∧ t.status.wdrop = false ∧ t.status.code = 0 ∧ t.fsm = .exec ∧
      t.wlSize = s.wlSize ∧ t.d = s.d ∧ t.env = s.env) ∧
    (s.status.busy = true → memWrite 0x000 4 v s = .next { s with status := { s.status with wdrop := true } })

/-- R116: an accepted word that matches no row completes with code 7 and writes no data register; and a legal opcode
with an out-of-range W fails in execution with InvalidWordCount instead. -/
def Obligations.IllegalWordCompletes : Prop :=
  (∀ (s : State) (v : Word), s.status.busy = false → (∀ r ∈ opcodeTable, r.selects v = false) →
    ∃ t u, memWrite 0x000 4 v s = .next t ∧ t.lastCmd = v ∧ t.status.busy = true ∧ t.fsm = .exec ∧
      blockTurn t = .next u ∧ t.Raised .illegalCommand u ∧ u.status.done = true ∧ u.status.err = true ∧
      u.status.code = 7 ∧ u.lastCmd = v ∧ u.d = s.d) ∧
  (∀ (s : State) (w : Nat), w ≤ 255 → validW w = false → s.fsm = .exec →
    (s.lastCmd = 0x00000001#32 ||| BitVec.ofNat 32 w <<< 16 ∨ s.lastCmd = 0x00000007#32 ||| BitVec.ofNat 32 w <<< 16 ∨
      s.lastCmd = 0x0000000A#32 ||| BitVec.ofNat 32 w <<< 16 ∨ s.lastCmd = 0x0000000B#32 ||| BitVec.ofNat 32 w <<< 16 ∨
      s.lastCmd = 0x0000010B#32 ||| BitVec.ofNat 32 w <<< 16) →
    ∃ u, blockTurn s = .next u ∧ s.Raised .invalidWordCount u)

/-- A step runs the decoded command: in EXEC, with the block's turn next, `step` is `exec` of the command that the
latched word decodes to (30 R113, 43 R220). Around `exec` the step only removes the turn (the model's own, log
entry 1). -/
def Obligations.StepRunsDecodedCommand : Prop :=
  ∀ (s : State) (i : Instr), s.fsm = .exec → s.nextTurn = .block → decode s.lastCmd = .ok i →
    step s = exec i s.popTurn

/-- R220: the transitions of FSM, each with its event, and no other. The premise is the register invariant
(`RegisterInvariantKept`), which rules out a state that accepts a command while one runs. -/
def Obligations.SequencerTransitions : Prop :=
  ∀ s t : State, s.Inv → step s = .next t →
    t.fsm = s.fsm ∨
    (s.nextTurn = .reset ∧ t.fsm = .idle) ∨
    (s.fsm = .idle ∧ t.fsm = .exec ∧ s.nextTurn = .host ∧ s.status.busy = false ∧
      ∃ v rest, s.env.program = .write 0x000 4 v :: rest ∧ t.lastCmd = v) ∨
    (s.fsm = .exec ∧ t.fsm = .idle ∧ s.nextTurn = .block ∧ t.status.done = true) ∨
    (s.fsm = .exec ∧ s.nextTurn = .block ∧ ∃ w sp, decode s.lastCmd = .ok (.generate w) ∧ specFromW w = some sp ∧
      s.wlSize = 2048 ∧ t.fsm = .rngWait ⟨sp, sp.entropyBits / 8⟩) ∨
    (∃ g a rest, s.fsm = .rngWait g ∧ t.fsm = .idle ∧ s.nextTurn = .source ∧ s.env.answers = a :: rest ∧
      t.status.done = true)

/-- R221: from EXEC the block's execution step is always enabled and reaches completion or RNG_WAIT; from RNG_WAIT
only the entropy port's answer or reset goes on. -/
def Obligations.ExecutionStepEnabled : Prop :=
  (∀ s : State, s.fsm = .exec → ∃ t, blockTurn s = .next t ∧
    ((t.fsm = .idle ∧ t.status.done = true ∧ t.status.busy = false) ∨
      ∃ g, t.fsm = .rngWait g ∧ t.status = s.status)) ∧
  (∀ (s t : State) (g : GenContext), s.Inv → s.fsm = .rngWait g → step s = .next t →
    (s.nextTurn = .host ∨ s.nextTurn = .block ∨ (s.nextTurn = .source ∧ s.env.answers = [])) →
    t.fsm = .rngWait g ∧ t.status.busy = true ∧ t.d = s.d)

/-- R262, with the column "writes" of R112: a command's execution step writes no data register outside its row, nor
WL_SIZE, LASTCMD or WDROP, and of the environment it adds to the requests alone, and only as a GENERATE. A GENERATE
commits nothing in that step; its answer, like it, writes neither WL_SIZE nor LASTCMD. ENCODE and DECODE write every
data register, so their clause is empty. -/
def Obligations.CommandsWriteOnlyTheirSet : Prop :=
  (∀ (i : Instr) (s : State), ∃ t, exec i s = .next t ∧ t.wlSize = s.wlSize ∧ t.lastCmd = s.lastCmd ∧
    t.status.wdrop = s.status.wdrop ∧ t.env = { s.env with requests := t.env.requests } ∧
    ((∀ w, i ≠ .generate w) → t.env.requests = s.env.requests) ∧
    match i with
    | .specw _ | .spece =>
      t.d = { s.d with sw := t.d.sw, scsb := t.d.scsb, sentb := t.d.sentb, sovb := t.d.sovb }
    | .hex2bits => t.d = { s.d with ent := t.d.ent, entLen := t.d.entLen }
    | .bits2hex => t.d = { s.d with hex := t.d.hex, hexLen := t.d.hexLen }
    | .csum | .cschk => t.d = { s.d with cs := t.d.cs, csLen := t.d.csLen }
    | .pack => t.d = { s.d with word := t.d.word, resultW := t.d.resultW }
    | .unpack _ =>
      t.d = { s.d with ent := t.d.ent, entLen := t.d.entLen, csRx := t.d.csRx, csRxLen := t.d.csRxLen }
    | .generate _ => t.d = s.d
    | .encode | .decode _ _ => True) ∧
  (∀ (a : RngAnswer) (s : State), (rngAnswer a s).wlSize = s.wlSize ∧ (rngAnswer a s).lastCmd = s.lastCmd ∧
    (rngAnswer a s).status.wdrop = s.status.wdrop ∧ (rngAnswer a s).env = s.env)

/-- R266, R270: a command that ends with an error leaves every data register as it was: whatever step ends it. -/
def Obligations.ErrorsAreAtomic : Prop :=
  ∀ s t : State, step s = .next t → s.fsm ≠ .idle → t.fsm = .idle → t.status.err = true →
    t.d = s.d ∧ t.wlSize = s.wlSize ∧ t.lastCmd = s.lastCmd ∧ t.status.busy = false ∧ t.status.done = true ∧
      t.status.wdrop = s.status.wdrop ∧ 2 ≤ t.status.code.toNat

/-- R265, the table's column "raised by": which codes a command's execution step can complete with. -/
def Obligations.CodesOfEachCommand : Prop :=
  ∀ (i : Instr) (s t : State), exec i s = .next t → t.fsm = .idle → ∃ c : Code, s.Ended c t ∧
    c ∈ (match i with
      | .specw _ => [.ok, .invalidWordCount]
      | .spece => [.ok, .invalidEntropy]
      | .hex2bits => [.ok, .invalidEntropy]
      | .bits2hex => [.ok, .invalidEntropy]
      | .csum => [.ok, .invalidEntropy]
      | .pack => [.ok, .invalidEntropy, .operandError]
      | .unpack _ => [.ok, .invalidWordCount]
      | .cschk => [.ok, .invalidEntropy, .operandError, .checksumMismatch]
      | .encode => [.ok, .invalidEntropy, .emptyWordlist, .wordlistSize]
      | .generate _ => [.invalidWordCount, .emptyWordlist, .wordlistSize]
      | .decode _ true => [.ok, .notFound, .invalidWordCount, .emptyWordlist, .wordlistSize, .checksumMismatch]
      | .decode _ false => [.ok, .notFound, .invalidWordCount, .emptyWordlist, .wordlistSize] : List Code)

/-! ## The invariant (10_state.md) -/

/-- The register invariants of 10 R34, R38 to R41, R43, R46, R47 hold after every step from a state that meets
them. -/
def Obligations.RegisterInvariantKept : Prop := ∀ s t : State, s.Inv → step s = .next t → t.Inv

/-- They hold at reset (10 R50). -/
def Obligations.RegisterInvariantAtReset : Prop := State.reset.Inv

/-! ## Host interface (20_memory.md, 70_reset_and_hazards.md) -/

/-- R72: an access that is not an aligned 32-bit access inside the window is HostAccessFault(off, size), and no other
access is. -/
def Obligations.AccessContract : Prop :=
  ∀ (off : Int) (size : Nat) (v : Word) (s : State),
    (¬(size = 4 ∧ 0 ≤ off ∧ off ≤ 0x0FC ∧ off % 4 = 0) →
      memRead off size s = .fault (.hostAccess off size) ∧ memWrite off size v s = .fault (.hostAccess off size)) ∧
    (size = 4 ∧ 0 ≤ off ∧ off ≤ 0x0FC ∧ off % 4 = 0 →
      (∃ t, memRead off size s = .next t) ∧ ∃ t, memWrite off size v s = .next t)

/-- R72, R272, R271: a step faults exactly when the host's turn is next and its next access is outside the contract;
no step is refused. -/
def Obligations.OnlyHostAccessFaults : Prop :=
  ∀ s : State,
    ((∃ r, step s = .fault r) ↔ s.nextTurn = .host ∧ s.nextOpBad) ∧ ∀ r, step s ≠ .refused r

/-- R304, R72: while the host keeps its contract every step goes on, and the contract is kept. -/
def Obligations.ContractKeepsRunSafe : Prop :=
  ∀ s : State, s.hostKeepsContract → ∃ t, step s = .next t ∧ t.hostKeepsContract

/-- R71, by number: which register stands at each offset, the reserved range, and which offsets are data registers and
which the host can write; and the fields of each register at the bits where R33 to R43 put them. The lanes of HEX_DATA
and ENT_DATA are `HexDataLanes` and `EntDataLanes`. -/
def Obligations.RegisterMap : Prop :=
  (∀ r : Reg, regAt r.offset = r) ∧
  (∀ k, k < 64 → (4 * k < 0x024 ∨ 0x040 ≤ 4 * k) → (regAt (4 * k)).offset = 4 * k) ∧
  (∀ k, k < 64 → (regAt (4 * k) = .reserved ↔ 0x024 ≤ 4 * k ∧ 4 * k < 0x040)) ∧
  (regAt 0x000 = .cmd ∧ regAt 0x004 = .status ∧ regAt 0x008 = .wlSize ∧ regAt 0x00C = .hexLen ∧
    regAt 0x010 = .entLen ∧ regAt 0x014 = .csum ∧ regAt 0x018 = .spec ∧ regAt 0x01C = .specBits ∧
    regAt 0x020 = .resultW) ∧
  ((∀ k : Fin 16, regAt (0x040 + 4 * k.val) = .hexData k) ∧ (∀ k : Fin 8, regAt (0x080 + 4 * k.val) = .entData k) ∧
    ∀ i : Fin 24, regAt (0x0A0 + 4 * i.val) = .word i) ∧
  (∀ k, k < 64 →
    ((regAt (4 * k)).isData = true ↔ (0x00C ≤ 4 * k ∧ 4 * k ≤ 0x020) ∨ 0x040 ≤ 4 * k) ∧
    ((regAt (4 * k)).isRW = true ↔ 4 * k = 0x000 ∨ 4 * k = 0x008 ∨ 4 * k = 0x00C ∨ (0x040 ≤ 4 * k ∧ 4 * k < 0x080) ∨
      0x0A0 ≤ 4 * k)) ∧
  (∀ s : State, (readReg s .status).getLsbD 0 = s.status.busy ∧ (readReg s .status).getLsbD 1 = s.status.done ∧
    (readReg s .status).getLsbD 2 = s.status.err ∧ (readReg s .status).getLsbD 3 = s.status.wdrop ∧
    (readReg s .status).extractLsb' 8 8 = s.status.code) ∧
  (∀ s : State, readReg s .cmd = s.lastCmd ∧ readReg s .wlSize = s.wlSize ∧
    (readReg s .hexLen).extractLsb' 0 8 = s.d.hexLen ∧ (readReg s .entLen).extractLsb' 0 9 = s.d.entLen ∧
    (readReg s .csum).extractLsb' 0 8 = s.d.cs ∧ (readReg s .csum).extractLsb' 8 4 = s.d.csLen ∧
    (readReg s .csum).extractLsb' 16 8 = s.d.csRx ∧ (readReg s .csum).extractLsb' 24 4 = s.d.csRxLen ∧
    (readReg s .spec).extractLsb' 0 5 = s.d.sw ∧ (readReg s .spec).extractLsb' 8 4 = s.d.scsb ∧
    (readReg s .specBits).extractLsb' 0 9 = s.d.sentb ∧ (readReg s .specBits).extractLsb' 16 9 = s.d.sovb ∧
    (readReg s .resultW).extractLsb' 0 5 = s.d.resultW ∧
    ∀ i : Fin 24, (readReg s (.word i)).extractLsb' 0 11 = (s.d.wordAt i.val).idx ∧
      (readReg s (.word i)).getLsbD 15 = (s.d.wordAt i.val).nf)

/-- R73: reserved offsets read as 0; writes to them and to RO registers are ignored and never set WDROP. That the
reserved offsets read as 0 while BUSY = 1 too is the model's reading of R73 beside R301 (log entry 9). -/
def Obligations.ReservedAndReadOnly : Prop :=
  ∀ (off : Nat) (v : Word) (s : State), off % 4 = 0 →
    (0x024 ≤ off ∧ off < 0x040 →
      memRead off 4 s = .next { s with env := { s.env with readData := some 0 } } ∧
      memWrite off 4 v s = .next s) ∧
    ((off = 0x004 ∨ (0x010 ≤ off ∧ off < 0x024) ∨ (0x080 ≤ off ∧ off < 0x0A0)) → memWrite off 4 v s = .next s)

/-- R74: reserved bits read as 0 in every register but CMD, which reads LASTCMD in full; a write stores the named
fields only. -/
def Obligations.ReservedBits : Prop :=
  (∀ s : State,
    readReg s .cmd = s.lastCmd ∧
    readReg s .status &&& 0xFFFF00F0#32 = 0 ∧ readReg s .hexLen &&& 0xFFFFFF00#32 = 0 ∧
    readReg s .entLen &&& 0xFFFFFE00#32 = 0 ∧ readReg s .csum &&& 0xF000F000#32 = 0 ∧
    readReg s .spec &&& 0xFFFFF0E0#32 = 0 ∧ readReg s .specBits &&& 0xFE00FE00#32 = 0 ∧
    readReg s .resultW &&& 0xFFFFFFE0#32 = 0 ∧ ∀ i : Fin 24, readReg s (.word i) &&& 0xFFFF7800#32 = 0) ∧
  (∀ (s : State) (v : Word), s.status.busy = false →
    (∃ t, memWrite 0x000 4 v s = .next t ∧ readReg t .cmd = v) ∧
    (∃ t, memWrite 0x008 4 v s = .next t ∧ readReg t .wlSize = v ∧ t = { s with wlSize := v }) ∧
    (∃ t, memWrite 0x00C 4 v s = .next t ∧ readReg t .hexLen = v &&& 0x000000FF#32 ∧
      t = { s with d := { s.d with hexLen := t.d.hexLen } }) ∧
    (∀ k : Fin 16, ∃ t, memWrite (0x040 + 4 * (k.val : Int)) 4 v s = .next t ∧ readReg t (.hexData k) = v ∧
      t = { s with d := { s.d with hex := t.d.hex } }) ∧
    (∀ i : Fin 24, ∃ t, memWrite (0x0A0 + 4 * (i.val : Int)) 4 v s = .next t ∧
      readReg t (.word i) = v &&& 0x000087FF#32 ∧ (∀ j, j ≠ i.val → t.d.wordAt j = s.d.wordAt j) ∧
      t = { s with d := { s.d with word := t.d.word } }))

/-- R75: the lanes of HEX_DATA, read and written (BUSY = 0). -/
def Obligations.HexDataLanes : Prop :=
  ∀ (s : State) (k : Fin 16) (v : Word), s.status.busy = false →
    (∃ t, memRead (0x040 + 4 * (k.val : Int)) 4 s = .next t ∧
      t.env.readData = some ((s.d.hexAt (4 * k.val)).setWidth 32 <<< 24
        ||| (s.d.hexAt (4 * k.val + 1)).setWidth 32 <<< 16
        ||| (s.d.hexAt (4 * k.val + 2)).setWidth 32 <<< 8 ||| (s.d.hexAt (4 * k.val + 3)).setWidth 32)) ∧
    (∃ t, memWrite (0x040 + 4 * (k.val : Int)) 4 v s = .next t ∧
      t.d.hexAt (4 * k.val) = v.extractLsb' 24 8 ∧ t.d.hexAt (4 * k.val + 1) = v.extractLsb' 16 8 ∧
      t.d.hexAt (4 * k.val + 2) = v.extractLsb' 8 8 ∧ t.d.hexAt (4 * k.val + 3) = v.extractLsb' 0 8 ∧
      ∀ j, (j < 4 * k.val ∨ 4 * k.val + 4 ≤ j) → t.d.hexAt j = s.d.hexAt j)

/-- R76: register bit `31 - m` of ENT_DATA[k] is `ENT⟨32k+m⟩`, so the word is `val(ENT⟨32k .. 32k+32⟩)`. -/
def Obligations.EntDataLanes : Prop :=
  ∀ (s : State) (k : Fin 8), s.status.busy = false → ∃ t v, memRead (0x080 + 4 * (k.val : Int)) 4 s = .next t ∧
    t.env.readData = some v ∧
    (∀ m, m < 32 → v.getLsbD (31 - m) = s.d.ent.getMsbD (32 * k.val + m)) ∧
    v.toNat = val ((List.range 32).map fun m => s.d.ent.getMsbD (32 * k.val + m))

/-- R78: a read changes no register and, while IDLE, reads again the same; a CMD write starts a command; a write to
an RW register while BUSY = 1 is dropped and sets WDROP. -/
def Obligations.SideEffects : Prop :=
  (∀ (off : Int) (size : Nat) (s t : State), memRead off size s = .next t → s.SameRegs t ∧
    t.env.program = s.env.program ∧ t.env.answers = s.env.answers ∧ t.env.turns = s.env.turns ∧
    t.env.requests = s.env.requests ∧
    (s.status.busy = false → ∃ u, memRead off size t = .next u ∧ u.env.readData = t.env.readData)) ∧
  (∀ (v : Word) (s : State), s.status.busy = false →
    ∃ t, memWrite 0x000 4 v s = .next t ∧ t.fsm = .exec ∧ t.status.busy = true ∧ t.lastCmd = v) ∧
  (∀ (off : Nat) (v : Word) (s : State), off % 4 = 0 → off ≤ 0x0FC → (regAt off).isRW = true →
    s.status.busy = true → memWrite off 4 v s = .next { s with status := { s.status with wdrop := true } })

/-- R80, R84: with BUSY = 0 a read of any register of the window returns what the register holds. -/
def Obligations.IdleReadsAreExact : Prop :=
  ∀ (s : State) (r : Reg), s.status.busy = false →
    ∃ t, memRead (r.offset : Int) 4 s = .next t ∧ t.env.readData = some (readReg s r) ∧ s.SameRegs t ∧
      t.env.draws = s.env.draws

/-- R85: a command is latched at acceptance, and neither LASTCMD nor an operand register changes while it runs. -/
def Obligations.CommandIsLatched : Prop :=
  (∀ (s : State) (v : Word), s.status.busy = false → ∃ t, memWrite 0x000 4 v s = .next t ∧ t.lastCmd = v) ∧
  (∀ s t : State, s.status.busy = true → step s = .next t → t.status.busy = true →
    t.lastCmd = s.lastCmd ∧ t.d = s.d ∧ t.wlSize = s.wlSize)

/-- R300: while BUSY = 1 a write to an RW offset is dropped and sets WDROP, one to any other offset leaves it; WDROP
stays until the next accepted command (or reset). -/
def Obligations.BusyWritesDropped : Prop :=
  (∀ (off : Nat) (v : Word) (s : State), off % 4 = 0 → off ≤ 0x0FC → s.status.busy = true →
    ((off = 0x000 ∨ off = 0x008 ∨ off = 0x00C ∨ (0x040 ≤ off ∧ off < 0x080) ∨ 0x0A0 ≤ off) →
      memWrite off 4 v s = .next { s with status := { s.status with wdrop := true } }) ∧
    ((off = 0x004 ∨ (0x010 ≤ off ∧ off < 0x040) ∨ (0x080 ≤ off ∧ off < 0x0A0)) → memWrite off 4 v s = .next s)) ∧
  (∀ s t : State, s.status.wdrop = true → step s = .next t →
    t.status.wdrop = true ∨ s.nextTurn = .reset ∨
      (s.nextTurn = .host ∧ s.status.busy = false ∧ t.status.busy = true ∧ t.fsm = .exec ∧
        ∃ v rest, s.env.program = .write 0x000 4 v :: rest ∧ t.lastCmd = v))

/-- R301: while BUSY = 1, STATUS, CMD and WL_SIZE read exactly. A data register reads as a free draw, a new one for each
read: that the draws are the opaque `Config.busyRead` at the counter `env.draws` is the model's choice (log entry 5),
and the statement holds for every `Config.busyRead`. -/
def Obligations.BusyReads : Prop :=
  ∀ s : State, s.status.busy = true →
    (∃ t, memRead 0x004 4 s = .next t ∧ t.env.readData = some s.status.toWord ∧ s.SameRegs t) ∧
    (∃ t, memRead 0x000 4 s = .next t ∧ t.env.readData = some s.lastCmd ∧ s.SameRegs t) ∧
    (∃ t, memRead 0x008 4 s = .next t ∧ t.env.readData = some s.wlSize ∧ s.SameRegs t) ∧
    (∀ r : Reg, r.isData = true → ∃ t, memRead (r.offset : Int) 4 s = .next t ∧
      t.env.readData = some (Config.busyRead s.env.draws) ∧ t.env.draws = s.env.draws + 1 ∧ s.SameRegs t)

/-- R290, R50: reset, whenever it comes, leaves every register at 0 and FSM IDLE with no GENERATE context, which is
the state `State.reset` but for what the other agents still have to do. -/
def Obligations.ResetValues : Prop :=
  ∀ s : State, ∃ t, takeTurn .reset s = .next t ∧ (∀ r : Reg, readReg t r = 0) ∧ t.fsm = .idle ∧
    t.lastCmd = 0 ∧ t.status = ⟨false, false, false, false, 0⟩ ∧ t.wlSize = 0 ∧
    (∀ j, t.d.hexAt j = 0) ∧ (∀ i, t.d.ent.getMsbD i = false) ∧ t.d.entLen = 0 ∧ t.d.hexLen = 0 ∧
    t.d.cs = 0 ∧ t.d.csLen = 0 ∧ t.d.csRx = 0 ∧ t.d.csRxLen = 0 ∧ t.d.spec = ⟨0, 0, 0, 0⟩ ∧
    (∀ i, t.d.wordAt i = ⟨0, false⟩) ∧ t.d.resultW = 0 ∧
    State.reset = { t with env := State.reset.env }

/-- R291, R88: a reset while a command runs abandons it with no commit and no code, and a later answer of the entropy
port changes no register. -/
def Obligations.ResetAbandonsCommand : Prop :=
  ∀ s : State, s.status.busy = true → ∃ t, takeTurn .reset s = .next t ∧ t.status.busy = false ∧
    t.status.done = false ∧ t.status.code = 0 ∧ t.d = State.reset.d ∧ t.env = s.env ∧
    ∃ u, takeTurn .source t = .next u ∧ t.SameRegs u

/-- R88: an answer that arrives while FSM is not RNG_WAIT is discarded. -/
def Obligations.StrayAnswersDiscarded : Prop :=
  ∀ (s : State) (a : RngAnswer) (rest : List RngAnswer), (∀ g, s.fsm ≠ .rngWait g) → s.env.answers = a :: rest →
    sourceTurn s = .next { s with env := { s.env with answers := rest } }

/-- R88, R234: a request is issued only by the execution step of a GENERATE that passed its checks, one at a time,
for 16, 20, 24, 28 or 32 bytes. -/
def Obligations.RequestsOnlyFromGenerate : Prop :=
  ∀ s t : State, step s = .next t → t.env.requests = s.env.requests ∨
    ∃ w n, s.fsm = .exec ∧ decode s.lastCmd = .ok (.generate w) ∧ validW w = true ∧ s.wlSize = 2048 ∧
      n = entBitsOf w / 8 ∧ n ∈ [16, 20, 24, 28, 32] ∧ t.env.requests = n :: s.env.requests ∧
      ∃ sp, t.fsm = .rngWait ⟨sp, n⟩

/-- R119: `run <command>` of a command that is no GENERATE: from IDLE the write, the execution step and one poll, and
the host has the command's outcome. The premise `turns = []` takes the default order (log entry 3, the model's
choice). -/
def Obligations.RunExecutesCommand : Prop :=
  ∀ (i : Instr) (s : State) (rest : List HostOp), i.wf = true → (∀ w, i ≠ .generate w) → s.fsm = .idle →
    s.status.busy = false → s.env.turns = [] → s.env.program = run i ++ rest →
    ∃ t u, exec i (accept (encode i) { s with env := { s.env with program := .poll :: rest } }) = .next t ∧
      Sys2Proof.core.run 3 s = .next u ∧ u.env.program = rest ∧ u.env.readData = some t.status.toWord ∧
      u.status = t.status ∧ u.d = t.d ∧ u.fsm = .idle ∧ u.wlSize = s.wlSize ∧ u.lastCmd = encode i

/-! ## EntropySpec resolution (40_entropy_spec.md) -/

/-- R141: `validW` holds exactly for the five word counts. -/
def Obligations.ValidWordCounts : Prop :=
  ∀ w, (validW w = true ↔ 12 ≤ w ∧ w ≤ 24 ∧ w % 3 = 0) ∧
    (validW w = true ↔ w ∈ [12, 15, 18, 21, 24]) ∧
    (∀ s : State, validW w = false → ∀ b, (∃ t, exec (.specw w) s = .next t ∧ s.Raised .invalidWordCount t) ∧
      (∃ t, exec (.unpack w) s = .next t ∧ s.Raised .invalidWordCount t) ∧
      (∃ t, exec (.generate w) s = .next t ∧ s.Raised .invalidWordCount t) ∧
      (∃ t, exec (.decode w b) s = .next t ∧ s.Raised .invalidWordCount t))

/-- R143: both formulas give the same five rows, with their byte and character counts, and word count and entropy
length determine each other. -/
def Obligations.SizeBijection : Prop :=
  (∀ w sp, specFromW w = some sp → specFromEntBits sp.entropyBits = some sp ∧ sp.overallBits % 11 = 0) ∧
  (∀ e sp, specFromEntBits e = some sp → specFromW sp.w = some sp ∧ sp.entropyBits = e) ∧
  (∀ sp, (∃ w, specFromW w = some sp) ↔ sp ∈ [⟨12, 132, 4, 128⟩, ⟨15, 165, 5, 160⟩, ⟨18, 198, 6, 192⟩,
    ⟨21, 231, 7, 224⟩, ⟨24, 264, 8, 256⟩]) ∧
  specRows.map (fun sp => (sp.w, sp.entropyBits / 8, sp.entropyBits / 4)) =
    [(12, 16, 32), (15, 20, 40), (18, 24, 48), (21, 28, 56), (24, 32, 64)]

/-- R145: SPECW. -/
def Obligations.SpecwResult : Prop :=
  (∀ w, w ≤ 255 → decode (0x00000001#32 ||| BitVec.ofNat 32 w <<< 16) = .ok (.specw w)) ∧
  ∀ (s : State) (w : Nat),
    (validW w = true → ∃ t, exec (.specw w) s = .next t ∧ s.Ended .ok t ∧
      t.d.sw.toNat = w ∧ t.d.sovb.toNat = 11 * w ∧ t.d.scsb.toNat = (w - 12) / 3 + 4 ∧
      t.d.sentb.toNat = 11 * w - ((w - 12) / 3 + 4) ∧
      t.d = { s.d with sw := t.d.sw, sovb := t.d.sovb, scsb := t.d.scsb, sentb := t.d.sentb }) ∧
    (validW w = false → ∃ t, exec (.specw w) s = .next t ∧ s.Raised .invalidWordCount t)

/-- R146: SPECE. -/
def Obligations.SpeceResult : Prop :=
  decode 0x00000002#32 = .ok .spece ∧
  ∀ s : State,
    (s.d.EntropyOk → ∃ t, exec .spece s = .next t ∧ s.Ended .ok t ∧
      t.d.sentb.toNat = 4 * s.d.hexLen.toNat ∧ t.d.scsb.toNat = csBitsOf (4 * s.d.hexLen.toNat) ∧
      t.d.sovb.toNat = 4 * s.d.hexLen.toNat + csBitsOf (4 * s.d.hexLen.toNat) ∧
      11 * t.d.sw.toNat = t.d.sovb.toNat ∧
      t.d = { s.d with sw := t.d.sw, sovb := t.d.sovb, scsb := t.d.scsb, sentb := t.d.sentb }) ∧
    (¬s.d.EntropyOk → ∃ t, exec .spece s = .next t ∧ s.Raised .invalidEntropy t)

/-! ## entropy_checksum_deriver (41_checksum_deriver.md) -/

/-- R160, R162: the mask table, and that the checksum is the first `c` bits of the digest. -/
def Obligations.ChecksumIsDigestPrefix : Prop :=
  (mask 4 = 0xF0#8 ∧ mask 5 = 0xF8#8 ∧ mask 6 = 0xFC#8 ∧ mask 7 = 0xFE#8 ∧ mask 8 = 0xFF#8) ∧
  ∀ (b : List Byte) (c : Nat), 4 ≤ c → c ≤ 8 →
    checksum b c < 2 ^ c ∧ bitsN c (checksum b c) = (bitsOf (Config.hash b).toList).take c

/-- R164: CSUM. The hashed bytes are the whole entropy (R163). -/
def Obligations.CsumResult : Prop :=
  decode 0x00000005#32 = .ok .csum ∧
  ∀ s : State,
    (s.d.entLen.toNat ∈ [128, 160, 192, 224, 256] → ∃ t, exec .csum s = .next t ∧ s.Ended .ok t ∧
      t.d.cs.toNat = checksum (s.d.entBytes (s.d.entLen.toNat / 8)) (csBitsOf s.d.entLen.toNat) ∧
      t.d.csLen.toNat = csBitsOf s.d.entLen.toNat ∧
      t.d = { s.d with cs := t.d.cs, csLen := t.d.csLen }) ∧
    (s.d.entLen.toNat ∉ [128, 160, 192, 224, 256] → ∃ t, exec .csum s = .next t ∧ s.Raised .invalidEntropy t)

/-- R166: CSCHK, its exceptions in their priority. -/
def Obligations.CschkResult : Prop :=
  decode 0x00000008#32 = .ok .cschk ∧
  ∀ s : State,
    (s.d.entLen.toNat ∉ [128, 160, 192, 224, 256] → ∃ t, exec .cschk s = .next t ∧ s.Raised .invalidEntropy t) ∧
    (s.d.entLen.toNat ∈ [128, 160, 192, 224, 256] → s.d.csRxLen.toNat ≠ csBitsOf s.d.entLen.toNat →
      ∃ t, exec .cschk s = .next t ∧ s.Raised .operandError t) ∧
    (s.d.entLen.toNat ∈ [128, 160, 192, 224, 256] → s.d.csRxLen.toNat = csBitsOf s.d.entLen.toNat →
      checksum (s.d.entBytes (s.d.entLen.toNat / 8)) (csBitsOf s.d.entLen.toNat) ≠ s.d.csRx.toNat →
      ∃ t, exec .cschk s = .next t ∧ s.Raised .checksumMismatch t) ∧
    (s.d.entLen.toNat ∈ [128, 160, 192, 224, 256] → s.d.csRxLen.toNat = csBitsOf s.d.entLen.toNat →
      checksum (s.d.entBytes (s.d.entLen.toNat / 8)) (csBitsOf s.d.entLen.toNat) = s.d.csRx.toNat →
      ∃ t, exec .cschk s = .next t ∧ s.Ended .ok t ∧ t.d.cs = s.d.csRx ∧
        t.d.csLen.toNat = csBitsOf s.d.entLen.toNat ∧ t.d = { s.d with cs := t.d.cs, csLen := t.d.csLen })

/-! ## bit_packer (42_bit_packer.md) -/

/-- R185: the two hex round trips. -/
def Obligations.HexRoundTrips : Prop :=
  (∀ s : Bits, s.length % 4 = 0 → hexToBits (bitsToHex s) = s) ∧
  (∀ h : List Byte, (∀ ch ∈ h, isHex ch = true) → bitsToHex (hexToBits h) = h.map lowerHex) ∧
  (∀ ch : Byte, lowerHex ch = if 0x41#8 ≤ ch ∧ ch ≤ 0x46#8 then ch + 0x20#8 else ch)

/-- R182: hex to bytes, the first character of each pair the high nibble. -/
def Obligations.HexPairsAreBytes : Prop :=
  ∀ h : List Byte, h.length % 2 = 0 → (bytesOf (hexToBits h)).length = h.length / 2 ∧
    ∀ j, j < h.length / 2 →
      (bytesOf (hexToBits h)).getD j 0 = BitVec.ofNat 8 (16 * nib (h.getD (2 * j) 0) + nib (h.getD (2 * j + 1) 0))

/-- R189: the inverse laws of grouping and splitting. -/
def Obligations.PackingInverses : Prop :=
  (∀ (g : List Nat), (∀ x ∈ g, x < 2048) → group (ungroup g) g.length = g) ∧
  (∀ (s : Bits) (w : Nat), s.length = 11 * w → ungroup (group s w) = s) ∧
  (∀ (ent : Bits) (c x : Nat), split (ent ++ bitsN c x) ent.length = (ent, bitsN c x)) ∧
  (∀ (s t u : State) (sp : EntropySpec), s.Inv → specFromEntBits s.d.entLen.toNat = some sp →
    exec .pack s = .next t → t.status.code = 0 → exec (.unpack sp.w) t = .next u →
    t.Ended .ok u ∧ u.d.ent = s.d.ent ∧ u.d.entLen = s.d.entLen ∧ u.d.csRx = s.d.cs ∧ u.d.csRxLen = s.d.csLen)

/-- R198: where each bit of `cat = ent ++ bits_c(x)` lands in the groups. -/
def Obligations.BitPlacement : Prop :=
  ∀ (sp : EntropySpec) (ent : Bits) (x : Nat), sp ∈ specRows → ent.length = sp.entropyBits →
    x < 2 ^ sp.checksumBits →
    (∀ j, j < sp.entropyBits →
      ((group (ent ++ bitsN sp.checksumBits x) sp.w).getD (j / 11) 0).testBit (10 - j % 11) = ent.getD j false) ∧
    (∀ k, k < sp.checksumBits →
      (ent ++ bitsN sp.checksumBits x).getD (sp.entropyBits + k) false = x.testBit (sp.checksumBits - 1 - k)) ∧
    (group (ent ++ bitsN sp.checksumBits x) sp.w).getD (sp.w - 1) 0 =
      val (slice ent (sp.entropyBits - (11 - sp.checksumBits)) sp.entropyBits) * 2 ^ sp.checksumBits + x ∧
    (∀ i, i < sp.w - 1 → (group (ent ++ bitsN sp.checksumBits x) sp.w).getD i 0 = val (slice ent (11 * i) (11 * i + 11)) ∧
      11 * i + 11 ≤ sp.entropyBits)

/-- R190: HEX2BITS. -/
def Obligations.Hex2bitsResult : Prop :=
  decode 0x00000003#32 = .ok .hex2bits ∧
  ∀ s : State,
    (s.d.hexLen.toNat ≤ 64 → (∀ j, j < s.d.hexLen.toNat → isHex (s.d.hexAt j) = true) →
      ∃ t, exec .hex2bits s = .next t ∧ s.Ended .ok t ∧ t.d.EntIs (4 * s.d.hexLen.toNat) s.d.hexBit ∧
        t.d = { s.d with ent := t.d.ent, entLen := t.d.entLen }) ∧
    ((64 < s.d.hexLen.toNat ∨ ∃ j, j < s.d.hexLen.toNat ∧ j < 64 ∧ isHex (s.d.hexAt j) = false) →
      ∃ t, exec .hex2bits s = .next t ∧ s.Raised .invalidEntropy t)

/-- R192: BITS2HEX. ENT_LEN is at most 256, and in a state that meets the register invariant (`RegisterInvariantKept`)
the exception cannot come. -/
def Obligations.Bits2hexResult : Prop :=
  decode 0x00000004#32 = .ok .bits2hex ∧
  ∀ s : State,
    (s.d.entLen.toNat ≤ 256 → s.d.entLen.toNat % 4 = 0 →
      ∃ t, exec .bits2hex s = .next t ∧ s.Ended .ok t ∧ t.d.HexIs s.d.entLen.toNat (fun i => s.d.ent.getMsbD i) ∧
        t.d = { s.d with hex := t.d.hex, hexLen := t.d.hexLen }) ∧
    (s.d.entLen.toNat % 4 ≠ 0 → ∃ t, exec .bits2hex s = .next t ∧ s.Raised .invalidEntropy t) ∧
    (s.Inv → ∃ t, exec .bits2hex s = .next t ∧ s.Ended .ok t)

/-- R194: PACK, its exceptions in their priority. -/
def Obligations.PackResult : Prop :=
  decode 0x00000006#32 = .ok .pack ∧
  ∀ s : State,
    (s.d.entLen.toNat ∉ [128, 160, 192, 224, 256] → ∃ t, exec .pack s = .next t ∧ s.Raised .invalidEntropy t) ∧
    (s.d.entLen.toNat ∈ [128, 160, 192, 224, 256] → s.d.csLen.toNat ≠ csBitsOf s.d.entLen.toNat →
      ∃ t, exec .pack s = .next t ∧ s.Raised .operandError t) ∧
    (s.d.entLen.toNat ∈ [128, 160, 192, 224, 256] → s.d.csLen.toNat = csBitsOf s.d.entLen.toNat →
      ∃ t, exec .pack s = .next t ∧ s.Ended .ok t ∧
        11 * t.d.resultW.toNat = s.d.entLen.toNat + csBitsOf s.d.entLen.toNat ∧
        t.d.WordsAre t.d.resultW.toNat s.d.entLen.toNat (fun i => s.d.ent.getMsbD i) s.d.cs.toNat ∧
        t.d = { s.d with word := t.d.word, resultW := t.d.resultW })

/-- R196: UNPACK. NF is not examined: no hypothesis speaks of it. -/
def Obligations.UnpackResult : Prop :=
  (∀ w, w ≤ 255 → decode (0x00000007#32 ||| BitVec.ofNat 32 w <<< 16) = .ok (.unpack w)) ∧
  ∀ (s : State) (w : Nat),
    (validW w = true → ∃ t, exec (.unpack w) s = .next t ∧ s.Ended .ok t ∧
      t.d.EntIs (entBitsOf w) s.d.groupBit ∧ t.d.csRxLen.toNat = 11 * w - entBitsOf w ∧
      (∀ k, t.d.csRx.getLsbD k = (decide (k < 11 * w - entBitsOf w) && s.d.groupBit (11 * w - 1 - k))) ∧
      t.d = { s.d with ent := t.d.ent, entLen := t.d.entLen, csRx := t.d.csRx, csRxLen := t.d.csRxLen }) ∧
    (validW w = false → ∃ t, exec (.unpack w) s = .next t ∧ s.Raised .invalidWordCount t)

/-! ## bip39_codec (43_codec.md) -/

/-- R230, R224: ENCODE, its exceptions in their priority, and every data register it writes. -/
def Obligations.EncodeResult : Prop :=
  decode 0x00000009#32 = .ok .encode ∧
  ∀ s : State,
    (¬s.d.EntropyOk → ∃ t, exec .encode s = .next t ∧ s.Raised .invalidEntropy t) ∧
    (s.d.EntropyOk → s.wlSize = 0 → ∃ t, exec .encode s = .next t ∧ s.Raised .emptyWordlist t) ∧
    (s.d.EntropyOk → s.wlSize ≠ 0 → s.wlSize ≠ 2048 → ∃ t, exec .encode s = .next t ∧ s.Raised .wordlistSize t) ∧
    (s.d.EntropyOk → s.wlSize = 2048 → ∃ t sp, exec .encode s = .next t ∧ s.Ended .ok t ∧
      specFromEntBits (4 * s.d.hexLen.toNat) = some sp ∧ t.d.spec = sp ∧
      t.d.EntIs sp.entropyBits s.d.hexBit ∧ t.d.HexIs sp.entropyBits s.d.hexBit ∧ t.d.hexLen = s.d.hexLen ∧
      (∀ j, j < s.d.hexLen.toNat → t.d.hexAt j = lowerHex (s.d.hexAt j)) ∧
      t.d.cs.toNat = checksum (t.d.entBytes (sp.entropyBits / 8)) sp.checksumBits ∧
      t.d.csLen.toNat = sp.checksumBits ∧ t.d.csRx = 0 ∧ t.d.csRxLen = 0 ∧
      t.d.WordsAre sp.w sp.entropyBits s.d.hexBit t.d.cs.toNat ∧ t.d.resultW.toNat = sp.w)

/-- R234: GENERATE's execution step: its checks in their priority, then the request, with no commit. -/
def Obligations.GenerateResult : Prop :=
  (∀ w, w ≤ 255 → decode (0x0000000A#32 ||| BitVec.ofNat 32 w <<< 16) = .ok (.generate w)) ∧
  ∀ (s : State) (w : Nat),
    (validW w = false → ∃ t, exec (.generate w) s = .next t ∧ s.Raised .invalidWordCount t) ∧
    (validW w = true → s.wlSize = 0 → ∃ t, exec (.generate w) s = .next t ∧ s.Raised .emptyWordlist t) ∧
    (validW w = true → s.wlSize ≠ 0 → s.wlSize ≠ 2048 →
      ∃ t, exec (.generate w) s = .next t ∧ s.Raised .wordlistSize t) ∧
    (validW w = true → s.wlSize = 2048 → ∃ t sp, exec (.generate w) s = .next t ∧ specFromW w = some sp ∧
      t.fsm = .rngWait ⟨sp, sp.entropyBits / 8⟩ ∧ sp.entropyBits / 8 ∈ [16, 20, 24, 28, 32] ∧
      sp.entropyBits = entBitsOf w ∧
      t.env = { s.env with requests := sp.entropyBits / 8 :: s.env.requests } ∧
      t.status = s.status ∧ t.d = s.d ∧ t.wlSize = s.wlSize ∧ t.lastCmd = s.lastCmd)

/-- R236: in RNG_WAIT, RngOk(b) with exactly n bytes is encoded (R224), RngFail raises EntropySourceError, no answer
leaves the block waiting, and a reset abandons the command. `GCTX` is what GENERATE left (`RegisterInvariantKept`);
the bytes of RngOk are the first `n` of 32 draws (log entry 6, the model's choice). -/
def Obligations.GenerateAnswer : Prop :=
  ∀ (s : State) (sp : EntropySpec) (rest : List RngAnswer), sp ∈ specRows →
    s.fsm = .rngWait ⟨sp, sp.entropyBits / 8⟩ →
    (∀ draw : Vector Byte 32, s.env.answers = .ok draw :: rest → ∃ t, sourceTurn s = .next t ∧
      ({ s with env := { s.env with answers := rest } } : State).Ended .ok t ∧ t.d.spec = sp ∧
      t.d.EntIs sp.entropyBits (fun i => (draw.toList.getD (i / 8) 0).getLsbD (7 - i % 8)) ∧
      t.d.HexIs sp.entropyBits (fun i => t.d.ent.getMsbD i) ∧
      t.d.cs.toNat = checksum (draw.toList.take (sp.entropyBits / 8)) sp.checksumBits ∧
      t.d.csLen.toNat = sp.checksumBits ∧ t.d.csRx = 0 ∧ t.d.csRxLen = 0 ∧
      t.d.WordsAre sp.w sp.entropyBits (fun i => t.d.ent.getMsbD i) t.d.cs.toNat ∧ t.d.resultW.toNat = sp.w) ∧
    (s.env.answers = .fail :: rest → ∃ t, sourceTurn s = .next t ∧
      ({ s with env := { s.env with answers := rest } } : State).Raised .entropySourceError t) ∧
    (s.env.answers = [] → sourceTurn s = .next s) ∧ blockTurn s = .next s ∧
    (∃ t u, takeTurn .reset s = .next t ∧ t.d = State.reset.d ∧ t.status = State.reset.status ∧ t.fsm = .idle ∧
      takeTurn .source t = .next u ∧ t.SameRegs u)

/-- R240: DECODE, its outcomes in their priority, and every data register it writes. -/
def Obligations.DecodeResult : Prop :=
  (∀ w, w ≤ 255 → decode (0x0000000B#32 ||| BitVec.ofNat 32 w <<< 16) = .ok (.decode w false) ∧
    decode (0x0000010B#32 ||| BitVec.ofNat 32 w <<< 16) = .ok (.decode w true)) ∧
  ∀ (s : State) (w : Nat) (verify : Bool),
    (validW w = false → ∃ t, exec (.decode w verify) s = .next t ∧ s.Raised .invalidWordCount t) ∧
    (validW w = true → s.wlSize = 0 → ∃ t, exec (.decode w verify) s = .next t ∧ s.Raised .emptyWordlist t) ∧
    (validW w = true → s.wlSize ≠ 0 → s.wlSize ≠ 2048 →
      ∃ t, exec (.decode w verify) s = .next t ∧ s.Raised .wordlistSize t) ∧
    (validW w = true → s.wlSize = 2048 → (∃ i, i < w ∧ (s.d.wordAt i).nf = true) →
      ∃ t, exec (.decode w verify) s = .next t ∧ s.Ended .notFound t ∧ t.d = State.reset.d) ∧
    (∀ sp, specFromW w = some sp → s.wlSize = 2048 → (∀ i, i < w → (s.d.wordAt i).nf = false) →
      ∃ (eb : List Byte) (cb : Nat), eb.length = sp.entropyBits / 8 ∧
        (∀ i, i < sp.entropyBits → (eb.getD (i / 8) 0).getLsbD (7 - i % 8) = s.d.groupBit i) ∧
        (∀ k, cb.testBit k = (decide (k < sp.checksumBits) && s.d.groupBit (11 * w - 1 - k))) ∧
        (verify = true → checksum eb sp.checksumBits ≠ cb →
          ∃ t, exec (.decode w verify) s = .next t ∧ s.Raised .checksumMismatch t) ∧
        ((verify = true → checksum eb sp.checksumBits = cb) →
          ∃ t, exec (.decode w verify) s = .next t ∧ s.Ended .ok t ∧ t.d.spec = sp ∧
            t.d.EntIs sp.entropyBits s.d.groupBit ∧ t.d.HexIs sp.entropyBits s.d.groupBit ∧
            t.d.csRx.toNat = cb ∧ t.d.csRxLen.toNat = sp.checksumBits ∧
            (verify = true → t.d.cs.toNat = cb ∧ t.d.csLen.toNat = sp.checksumBits) ∧
            (verify = false → t.d.cs = 0 ∧ t.d.csLen = 0) ∧
            (∀ i, t.d.wordAt i = if i < w then ⟨(s.d.wordAt i).idx, false⟩ else ⟨0, false⟩) ∧
            t.d.resultW.toNat = w))

/-- R225: the not-found outcome of DECODE: every data register 0, code NotFound, which is no error. -/
def Obligations.EmptyMnemonic : Prop :=
  ∀ (s : State) (w i : Nat) (verify : Bool), validW w = true → s.wlSize = 2048 → i < w →
    (s.d.wordAt i).nf = true →
    ∃ t, exec (.decode w verify) s = .next t ∧ t.fsm = .idle ∧ t.status.busy = false ∧ t.status.done = true ∧
      t.status.err = false ∧ t.status.code = 1 ∧ (∀ r : Reg, r.isData = true → readReg t r = 0) ∧
      t.wlSize = s.wlSize ∧ t.lastCmd = s.lastCmd

/-- R45: a command that writes a length register and completes writes 0 to every position beyond the new length. -/
def Obligations.ZeroFill : Prop :=
  (∀ (i : Instr) (s t : State), exec i s = .next t → t.fsm = .idle → t.status.err = false →
    ((i = .bits2hex ∨ i = .encode ∨ ∃ w b, i = .decode w b) →
      ∀ j, t.d.hexLen.toNat ≤ j → t.d.hexAt j = 0) ∧
    ((i = .hex2bits ∨ i = .encode ∨ (∃ w, i = .unpack w) ∨ ∃ w b, i = .decode w b) →
      ∀ j, t.d.entLen.toNat ≤ j → t.d.ent.getMsbD j = false) ∧
    ((i = .pack ∨ i = .encode ∨ ∃ w b, i = .decode w b) →
      ∀ j, t.d.resultW.toNat ≤ j → t.d.wordAt j = ⟨0, false⟩)) ∧
  (∀ (a : RngAnswer) (s : State) (g : GenContext), s.Inv → s.fsm = .rngWait g →
    (rngAnswer a s).status.err = false →
    (∀ j, (rngAnswer a s).d.hexLen.toNat ≤ j → (rngAnswer a s).d.hexAt j = 0) ∧
    (∀ j, (rngAnswer a s).d.entLen.toNat ≤ j → (rngAnswer a s).d.ent.getMsbD j = false) ∧
    (∀ j, (rngAnswer a s).d.resultW.toNat ≤ j → (rngAnswer a s).d.wordAt j = ⟨0, false⟩))

/-- R244 (a): DECODE with verification of what ENCODE produced gives the entropy back, and the hex string in lower
case; from any state that holds the same words. -/
def Obligations.DecodeOfEncodedEntropy : Prop :=
  ∀ s t u : State, exec .encode s = .next t → t.status.code = 0 → u.wlSize = 2048 →
    (∀ i, i < t.d.resultW.toNat → u.d.wordAt i = t.d.wordAt i) →
    ∃ v, exec (.decode t.d.resultW.toNat true) u = .next v ∧ u.Ended .ok v ∧ v.d.ent = t.d.ent ∧
      v.d.entLen = t.d.entLen ∧ v.d.hexLen = s.d.hexLen ∧
      (∀ j, j < s.d.hexLen.toNat → v.d.hexAt j = lowerHex (s.d.hexAt j)) ∧ v.d.csRx = t.d.cs ∧ v.d.cs = t.d.cs

/-- R244 (b): a change confined to the checksum bits always fails verification. `u` holds words that agree with a
verified `s` in every entropy bit and differ from it in some checksum bit. -/
def Obligations.ChecksumBitChangesFail : Prop :=
  ∀ (s t u : State) (w : Nat), exec (.decode w true) s = .next t → t.status.code = 0 → u.wlSize = 2048 →
    (∀ i, i < w → (u.d.wordAt i).nf = false) →
    (∀ p, p < entBitsOf w → u.d.groupBit p = s.d.groupBit p) →
    (∃ p, entBitsOf w ≤ p ∧ p < 11 * w ∧ u.d.groupBit p ≠ s.d.groupBit p) →
    ∃ v, exec (.decode w true) u = .next v ∧ u.Raised .checksumMismatch v

/-- R48, R228: a codec command's code and, on success, every data register depend on its named inputs alone: two
states that agree on them end alike, whatever else they hold. -/
def Obligations.CodecDependsOnInputsOnly : Prop :=
  (∀ s s' t t' : State, s.wlSize = s'.wlSize → s.d.hexLen = s'.d.hexLen →
    (∀ j, j < s.d.hexLen.toNat → s.d.hexAt j = s'.d.hexAt j) →
    exec .encode s = .next t → exec .encode s' = .next t' →
    t.status.code = t'.status.code ∧ (t.status.err = false → t.d = t'.d)) ∧
  (∀ (s s' t t' : State) (w : Nat) (b : Bool), s.wlSize = s'.wlSize →
    (∀ i, i < w → s.d.wordAt i = s'.d.wordAt i) →
    exec (.decode w b) s = .next t → exec (.decode w b) s' = .next t' →
    t.status.code = t'.status.code ∧ (t.status.err = false → t.d = t'.d)) ∧
  (∀ (s s' t t' : State) (w : Nat) (a : RngAnswer), s.wlSize = s'.wlSize → validW w = true → s.wlSize = 2048 →
    exec (.generate w) s = .next t → exec (.generate w) s' = .next t' →
    (rngAnswer a t).status.code = (rngAnswer a t').status.code ∧
      ((rngAnswer a t).status.err = false → (rngAnswer a t).d = (rngAnswer a t').d))

/-- R163, decision D23: the spelling of the entropy in upper or lower case changes nothing of ENCODE's outcome. -/
def Obligations.CaseDoesNotMatter : Prop :=
  ∀ s s' t t' : State, s.wlSize = s'.wlSize → s.d.hexLen = s'.d.hexLen →
    (∀ j, j < s.d.hexLen.toNat → lowerHex (s.d.hexAt j) = lowerHex (s'.d.hexAt j)) →
    exec .encode s = .next t → exec .encode s' = .next t' →
    t.status.code = t'.status.code ∧ (t.status.err = false → t.d = t'.d)

/-- R300, R304: a host that waits for BUSY = 0 before it writes loses no write. The waiting can be read off its program
(a `poll` after each CMD write), every step keeps it, and it implies the duty; a step under the duty sets no WDROP; so a
run has WDROP = 0 throughout, and its final state has FSM = IDLE. The forms of waiting and of the duties are the model's
(log entry 23). -/
def Obligations.WaitingHostLosesNoWrite : Prop :=
  (∀ s : State, s.hostWaits → s.writesWhenIdle) ∧
  (∀ s t : State, s.hostWaits → step s = .next t → t.hostWaits) ∧
  (∀ s t : State, s.writesWhenIdle → step s = .next t → t.status.wdrop = true → s.status.wdrop = true) ∧
  (∀ (wl : Wordlist) (ps : List Phrase) (env : Env) (t : State), InRun wl ps env t →
    t.status.wdrop = false ∧ (t.runEnded = true → t.fsm = .idle))
end

