-- ==== Sys2Proof/Laws/Bits.lean ====
section
/-! SUPPORT. The small lemmas of bit strings (00_scope.md R8, R9): lengths, values, the two inverse directions
of `bits_n` and `val`, and where a bit of a padded register comes from. -/

namespace Sys2Proof.Machine

@[simp] theorem length_bitsN (n v : Nat) : (bitsN n v).length = n := by
  induction n with
  | zero => rfl
  | succ n ih => simp [bitsN, ih]

@[simp] theorem val_nil : val [] = 0 := rfl

theorem val_cons (b : Bool) (s : Bits) : val (b :: s) = b.toNat * 2 ^ s.length + val s := rfl

/-- `val(s ++ t) = val(s) · 2^|t| + val(t)`. -/
theorem val_append (s t : Bits) : val (s ++ t) = val s * 2 ^ t.length + val t := by
  induction s with
  | nil => simp
  | cons b s ih =>
    rw [List.cons_append, val_cons, val_cons, ih, List.length_append, pow_add]
    ring

/-- The value of a bit string is below `2^|s|`. -/
theorem val_lt (s : Bits) : val s < 2 ^ s.length := by
  induction s with
  | nil => simp
  | cons b s ih =>
    rw [val_cons, List.length_cons, pow_succ]
    cases b <;> simp <;> omega

@[simp] theorem val_replicate_false (n : Nat) : val (List.replicate n false) = 0 := by
  induction n with
  | zero => rfl
  | succ n ih => simp [List.replicate_succ, val_cons, ih]

/-- Bit `s⟨i⟩` is bit `|s| - 1 - i` of the value. -/
theorem testBit_val (s : Bits) (k : Nat) (hk : k < s.length) :
    (val s).testBit k = s.getD (s.length - 1 - k) false := by
  induction s with
  | nil => simp at hk
  | cons b s ih =>
    rw [val_cons, Nat.mul_comm, Nat.testBit_two_pow_mul_add _ (val_lt s)]
    by_cases h : k < s.length
    · have e : (b :: s).length - 1 - k = (s.length - 1 - k) + 1 := by simp; omega
      rw [if_pos h, e, List.getD_cons_succ, ih h]
    · have hk' : k = s.length := by simp at hk; omega
      subst hk'
      cases b <;> simp

/-- `bits_n(v)⟨i⟩` is bit `n - 1 - i` of `v`. -/
theorem getD_bitsN (n v i : Nat) (hi : i < n) : (bitsN n v).getD i false = v.testBit (n - 1 - i) := by
  induction n generalizing i with
  | zero => omega
  | succ n ih =>
    cases i with
    | zero => simp [bitsN]
    | succ i =>
      rw [bitsN, List.getD_cons_succ, ih i (by omega)]
      congr 1
      omega

/-- `val(bits_n(v)) = v` for `v < 2^n` (the remainder otherwise). -/
theorem val_bitsN (n v : Nat) : val (bitsN n v) = v % 2 ^ n := by
  apply Nat.eq_of_testBit_eq
  intro k
  by_cases hk : k < n
  · rw [testBit_val _ _ (by simpa using hk), length_bitsN, getD_bitsN _ _ _ (by omega), Nat.testBit_mod_two_pow]
    have : n - 1 - (n - 1 - k) = k := by omega
    simp [this, hk]
  · have h1 : (val (bitsN n v)).testBit k = false := by
      apply Nat.testBit_lt_two_pow
      exact lt_of_lt_of_le (by simpa using val_lt (bitsN n v)) (Nat.pow_le_pow_right (by omega) (by omega))
    rw [h1, Nat.testBit_mod_two_pow]
    simp [hk]

/-- Two bit strings of one length with the same bits are equal. -/
theorem bits_ext {s t : Bits} (hl : s.length = t.length)
    (h : ∀ i, i < s.length → s.getD i false = t.getD i false) : s = t := by
  apply List.ext_getElem hl
  intro i h1 h2
  have := h i h1
  simpa [List.getD_eq_getElem?_getD, h1, h2] using this

/-- `bits_{|s|}(val(s)) = s`. -/
theorem bitsN_val (s : Bits) : bitsN s.length (val s) = s := by
  apply bits_ext (by simp)
  intro i hi
  simp only [length_bitsN] at hi
  rw [getD_bitsN _ _ _ hi, testBit_val _ _ (by omega)]
  congr 1
  omega

/-- Bit strings are equal exactly when their lengths and values are. -/
theorem val_inj {s t : Bits} (hl : s.length = t.length) (hv : val s = val t) : s = t := by
  rw [← bitsN_val s, ← bitsN_val t, hl, hv]

@[simp] theorem length_slice (s : Bits) (a b : Nat) : (slice s a b).length = min (b - a) (s.length - a) := by
  simp [slice]

theorem getD_slice (s : Bits) (a b i : Nat) (hi : i < b - a) : (slice s a b).getD i false = s.getD (a + i) false := by
  simp [slice, List.getD_eq_getElem?_getD, hi]

/-- Blocks of one length laid end to end: the length of the whole. -/
theorem length_flatMap_blocks {α : Type} (f : α → Bits) (n : Nat) (hf : ∀ x, (f x).length = n) (l : List α) :
    (l.flatMap f).length = n * l.length := by
  induction l with
  | nil => simp
  | cons x l ih => rw [List.flatMap_cons, List.length_append, hf, ih, List.length_cons]; ring

/-- Blocks of one length laid end to end: bit `n·j + k` is bit `k` of block `j`. -/
theorem getD_flatMap_blocks {α : Type} (f : α → Bits) (n : Nat) (hf : ∀ x, (f x).length = n) (l : List α)
    (x : α) (j k : Nat) (hj : j < l.length) (hk : k < n) :
    (l.flatMap f).getD (n * j + k) false = (f (l.getD j x)).getD k false := by
  induction l generalizing j with
  | nil => simp at hj
  | cons y l ih =>
    rw [List.flatMap_cons]
    cases j with
    | zero => simp [List.getD_eq_getElem?_getD, List.getElem?_append, hf, hk]
    | succ j =>
      have h1 : n * (j + 1) + k = (f y).length + (n * j + k) := by rw [hf]; ring
      rw [h1, List.getD_append_right _ _ _ _ (by omega), List.getD_cons_succ, Nat.add_sub_cancel_left]
      exact ih j (by simpa using hj)

@[simp] theorem length_bitsOf (b : List Byte) : (bitsOf b).length = 8 * b.length := by
  induction b with
  | nil => rfl
  | cons x b ih => simp [bitsOf] at ih ⊢; omega

@[simp] theorem length_bytesOf (s : Bits) : (bytesOf s).length = s.length / 8 := by
  simp [bytesOf]

/-- Bit `8j + k` of `bitsOf(b)` is bit `7 - k` of byte `j`. -/
theorem getD_bitsOf (b : List Byte) (j k : Nat) (hj : j < b.length) (hk : k < 8) :
    (bitsOf b).getD (8 * j + k) false = (b.getD j 0).toNat.testBit (7 - k) := by
  rw [bitsOf, getD_flatMap_blocks _ 8 (by simp) b 0 j k hj hk, getD_bitsN _ _ _ hk]

/-- Byte `j` of `bytesOf(s)`. -/
theorem getD_bytesOf (s : Bits) (j : Nat) (hj : j < s.length / 8) :
    (bytesOf s).getD j 0 = BitVec.ofNat 8 (val (slice s (8 * j) (8 * j + 8))) := by
  simp [bytesOf, List.getD_eq_getElem?_getD, hj]

/-- `bitsOf(bytesOf(s)) = s` where `|s|` is a multiple of 8 (00 R9). -/
theorem bitsOf_bytesOf (s : Bits) (hs : s.length % 8 = 0) : bitsOf (bytesOf s) = s := by
  apply bits_ext
  · simp; omega
  · intro i hi
    have hi8 : i < s.length := by simp at hi; omega
    obtain ⟨j, k, hk, rfl⟩ : ∃ j k, k < 8 ∧ i = 8 * j + k := ⟨i / 8, i % 8, by omega, by omega⟩
    have hl : (slice s (8 * j) (8 * j + 8)).length = 8 := by simp; omega
    have hv := val_lt (slice s (8 * j) (8 * j + 8))
    rw [getD_bitsOf _ _ _ (by simp; omega) hk, getD_bytesOf _ _ (by omega), BitVec.toNat_ofNat,
      Nat.mod_eq_of_lt (by rw [hl] at hv; exact hv), testBit_val _ _ (by omega), hl]
    have h7 : 8 - 1 - (7 - k) = k := by omega
    rw [h7, getD_slice _ _ _ _ (by omega)]

/-- `ENT⟨i⟩` of a padded register: bit `i` of the string, 0 beyond its end (10 R45). -/
theorem getMsbD_padTo (n : Nat) (s : Bits) (hs : s.length ≤ n) (i : Nat) :
    (padTo n s).getMsbD i = s.getD i false := by
  have hlen : (s ++ List.replicate (n - s.length) false).length = n := by simp; omega
  by_cases hi : i < n
  · rw [padTo, BitVec.getMsbD_eq_getLsbD, BitVec.getLsbD_ofNat, testBit_val _ _ (by omega), hlen]
    have : n - 1 - (n - 1 - i) = i := by omega
    rw [this]
    have h2 : n - 1 - i < n := by omega
    by_cases h : i < s.length
    · simp [hi, h2, List.getD_eq_getElem?_getD, List.getElem?_append, h]
    · have h3 : i - s.length < n - s.length := by omega
      simp [hi, h2, List.getD_eq_getElem?_getD, List.getElem?_append, h, h3]
  · have h1 : ¬ i < s.length := by omega
    simp [BitVec.getMsbD, hi, List.getD_eq_getElem?_getD, h1]

end Sys2Proof.Machine
end

