-- ==== Sys2Proof/Laws/EntropySpec.lean ====
section
/-! SUPPORT. What EntropySpec resolution can answer, said once (40_entropy_spec.md R140 to R143): a row of the size
table or nothing. -/

namespace Sys2Proof.Machine

theorem validW_iff (w : Nat) : validW w = true ↔ w = 12 ∨ w = 15 ∨ w = 18 ∨ w = 21 ∨ w = 24 := by
  simp only [validW, decide_eq_true_eq]
  omega

theorem validEntBits_iff (e : Nat) :
    validEntBits e = true ↔ e = 128 ∨ e = 160 ∨ e = 192 ∨ e = 224 ∨ e = 256 := by
  simp [validEntBits]

/-- A word count resolves to the row that holds it. -/
theorem specFromW_some {w : Nat} {sp : EntropySpec} (h : specFromW w = some sp) : sp ∈ specRows ∧ sp.w = w := by
  unfold specFromW at h
  split at h
  · rename_i hv
    rcases (validW_iff w).1 hv with rfl | rfl | rfl | rfl | rfl <;> (cases h; decide)
  · cases h

theorem specFromW_none {w : Nat} : specFromW w = none ↔ validW w = false := by
  unfold specFromW
  split <;> simp_all

theorem specFromW_of_valid {w : Nat} (h : validW w = true) : ∃ sp, specFromW w = some sp := by
  cases e : specFromW w with
  | some sp => exact ⟨sp, rfl⟩
  | none => rw [specFromW_none.1 e] at h; cases h

/-- An entropy length resolves to the row that holds it. -/
theorem specFromEntBits_some {e : Nat} {sp : EntropySpec} (h : specFromEntBits e = some sp) :
    sp ∈ specRows ∧ sp.entropyBits = e := by
  unfold specFromEntBits at h
  split at h
  · rename_i hv
    rcases (validEntBits_iff e).1 hv with rfl | rfl | rfl | rfl | rfl <;> (cases h; decide)
  · cases h

theorem specFromEntBits_none {e : Nat} : specFromEntBits e = none ↔ validEntBits e = false := by
  unfold specFromEntBits
  split <;> simp_all

/-- The sizes of a row: the facts every width argument needs. -/
theorem specRows_sizes {sp : EntropySpec} (h : sp ∈ specRows) :
    validW sp.w = true ∧ sp.overallBits = 11 * sp.w ∧ sp.entropyBits + sp.checksumBits = 11 * sp.w ∧
      4 ≤ sp.checksumBits ∧ sp.checksumBits ≤ 8 ∧ 12 ≤ sp.w ∧ sp.w ≤ 24 ∧ 128 ≤ sp.entropyBits ∧
      sp.entropyBits ≤ 256 ∧ sp.entropyBits % 32 = 0 := by
  simp only [specRows, List.mem_cons, List.not_mem_nil, or_false] at h
  rcases h with rfl | rfl | rfl | rfl | rfl <;> decide

/-- Each row is what its word count resolves to. -/
theorem specFromW_row {sp : EntropySpec} (h : sp ∈ specRows) : specFromW sp.w = some sp := by
  simp only [specRows, List.mem_cons, List.not_mem_nil, or_false] at h
  rcases h with rfl | rfl | rfl | rfl | rfl <;> decide

/-- Each row is what its entropy length resolves to. -/
theorem specFromEntBits_row {sp : EntropySpec} (h : sp ∈ specRows) : specFromEntBits sp.entropyBits = some sp := by
  simp only [specRows, List.mem_cons, List.not_mem_nil, or_false] at h
  rcases h with rfl | rfl | rfl | rfl | rfl <;> decide

/-- A valid hex length is a quarter of a row's entropy length. -/
theorem validHexLen_row {l : Nat} (h : validHexLen l = true) :
    ∃ sp, sp ∈ specRows ∧ specFromEntBits (4 * l) = some sp ∧ sp.entropyBits = 4 * l := by
  have hv : validEntBits (4 * l) = true := by
    simp only [validHexLen, decide_eq_true_eq] at h
    rw [validEntBits_iff]
    omega
  cases e : specFromEntBits (4 * l) with
  | none => rw [specFromEntBits_none.1 e] at hv; cases hv
  | some sp => exact ⟨sp, (specFromEntBits_some e).1, rfl, (specFromEntBits_some e).2⟩

end Sys2Proof.Machine
end

