-- ==== Sys2Proof/Laws/State.lean ====
section
/-! SUPPORT. What each named update leaves in each field, one lemma per field per update, so that no later proof
unfolds a record update. -/

namespace Sys2Proof.Machine

/-! ### accept -/

@[simp] theorem accept_lastCmd (v : Word) (s : State) : (accept v s).lastCmd = v := rfl
@[simp] theorem accept_status (v : Word) (s : State) : (accept v s).status = Status.accepted := rfl
@[simp] theorem accept_wlSize (v : Word) (s : State) : (accept v s).wlSize = s.wlSize := rfl
@[simp] theorem accept_d (v : Word) (s : State) : (accept v s).d = s.d := rfl
@[simp] theorem accept_fsm (v : Word) (s : State) : (accept v s).fsm = .exec := rfl
@[simp] theorem accept_env (v : Word) (s : State) : (accept v s).env = s.env := rfl

/-! ### finish -/

@[simp] theorem finish_lastCmd (c : Code) (s : State) : (finish c s).lastCmd = s.lastCmd := rfl
@[simp] theorem finish_status (c : Code) (s : State) : (finish c s).status = s.status.finished c := rfl
@[simp] theorem finish_wlSize (c : Code) (s : State) : (finish c s).wlSize = s.wlSize := rfl
@[simp] theorem finish_d (c : Code) (s : State) : (finish c s).d = s.d := rfl
@[simp] theorem finish_fsm (c : Code) (s : State) : (finish c s).fsm = .idle := rfl
@[simp] theorem finish_env (c : Code) (s : State) : (finish c s).env = s.env := rfl

/-! ### raise -/

@[simp] theorem raise_lastCmd (c : Code) (s : State) : (raise c s).lastCmd = s.lastCmd := rfl
@[simp] theorem raise_status (c : Code) (s : State) : (raise c s).status = s.status.finished c := rfl
@[simp] theorem raise_wlSize (c : Code) (s : State) : (raise c s).wlSize = s.wlSize := rfl
@[simp] theorem raise_d (c : Code) (s : State) : (raise c s).d = s.d := rfl
@[simp] theorem raise_fsm (c : Code) (s : State) : (raise c s).fsm = .idle := rfl
@[simp] theorem raise_env (c : Code) (s : State) : (raise c s).env = s.env := rfl

/-! ### complete -/

@[simp] theorem complete_lastCmd (c : Code) (d : Data) (s : State) : (complete c d s).lastCmd = s.lastCmd := rfl
@[simp] theorem complete_status (c : Code) (d : Data) (s : State) :
    (complete c d s).status = s.status.finished c := rfl
@[simp] theorem complete_wlSize (c : Code) (d : Data) (s : State) : (complete c d s).wlSize = s.wlSize := rfl
@[simp] theorem complete_d (c : Code) (d : Data) (s : State) : (complete c d s).d = d := rfl
@[simp] theorem complete_fsm (c : Code) (d : Data) (s : State) : (complete c d s).fsm = .idle := rfl
@[simp] theorem complete_env (c : Code) (d : Data) (s : State) : (complete c d s).env = s.env := rfl

/-! ### returnWord -/

@[simp] theorem returnWord_lastCmd (v : Word) (s : State) : (returnWord v s).lastCmd = s.lastCmd := rfl
@[simp] theorem returnWord_status (v : Word) (s : State) : (returnWord v s).status = s.status := rfl
@[simp] theorem returnWord_wlSize (v : Word) (s : State) : (returnWord v s).wlSize = s.wlSize := rfl
@[simp] theorem returnWord_d (v : Word) (s : State) : (returnWord v s).d = s.d := rfl
@[simp] theorem returnWord_fsm (v : Word) (s : State) : (returnWord v s).fsm = s.fsm := rfl
@[simp] theorem returnWord_env (v : Word) (s : State) :
    (returnWord v s).env = { s.env with readData := some v } := rfl

/-! ### returnFree -/

@[simp] theorem returnFree_lastCmd (s : State) : (returnFree s).lastCmd = s.lastCmd := rfl
@[simp] theorem returnFree_status (s : State) : (returnFree s).status = s.status := rfl
@[simp] theorem returnFree_wlSize (s : State) : (returnFree s).wlSize = s.wlSize := rfl
@[simp] theorem returnFree_d (s : State) : (returnFree s).d = s.d := rfl
@[simp] theorem returnFree_fsm (s : State) : (returnFree s).fsm = s.fsm := rfl
@[simp] theorem returnFree_env (s : State) :
    (returnFree s).env = { s.env with readData := some (Config.busyRead s.env.draws), draws := s.env.draws + 1 } := rfl

/-! ### dropWrite -/

@[simp] theorem dropWrite_lastCmd (s : State) : (dropWrite s).lastCmd = s.lastCmd := rfl
@[simp] theorem dropWrite_status (s : State) : (dropWrite s).status = s.status.dropped := rfl
@[simp] theorem dropWrite_wlSize (s : State) : (dropWrite s).wlSize = s.wlSize := rfl
@[simp] theorem dropWrite_d (s : State) : (dropWrite s).d = s.d := rfl
@[simp] theorem dropWrite_fsm (s : State) : (dropWrite s).fsm = s.fsm := rfl
@[simp] theorem dropWrite_env (s : State) : (dropWrite s).env = s.env := rfl

/-! ### requestEntropy -/

@[simp] theorem requestEntropy_lastCmd (sp : EntropySpec) (s : State) :
    (requestEntropy sp s).lastCmd = s.lastCmd := rfl
@[simp] theorem requestEntropy_status (sp : EntropySpec) (s : State) : (requestEntropy sp s).status = s.status := rfl
@[simp] theorem requestEntropy_wlSize (sp : EntropySpec) (s : State) : (requestEntropy sp s).wlSize = s.wlSize := rfl
@[simp] theorem requestEntropy_d (sp : EntropySpec) (s : State) : (requestEntropy sp s).d = s.d := rfl
@[simp] theorem requestEntropy_fsm (sp : EntropySpec) (s : State) :
    (requestEntropy sp s).fsm = .rngWait ⟨sp, sp.entropyBits / 8⟩ := rfl
@[simp] theorem requestEntropy_env (sp : EntropySpec) (s : State) :
    (requestEntropy sp s).env = { s.env with requests := sp.entropyBits / 8 :: s.env.requests } := rfl

/-! ### encodeCore -/

@[simp] theorem encodeCore_lastCmd (b : List Byte) (sp : EntropySpec) (s : State) :
    (encodeCore b sp s).lastCmd = s.lastCmd := rfl
@[simp] theorem encodeCore_status (b : List Byte) (sp : EntropySpec) (s : State) :
    (encodeCore b sp s).status = s.status.finished .ok := rfl
@[simp] theorem encodeCore_wlSize (b : List Byte) (sp : EntropySpec) (s : State) :
    (encodeCore b sp s).wlSize = s.wlSize := rfl
@[simp] theorem encodeCore_d (b : List Byte) (sp : EntropySpec) (s : State) :
    (encodeCore b sp s).d = encodeData b (checksum b sp.checksumBits) sp := rfl
@[simp] theorem encodeCore_fsm (b : List Byte) (sp : EntropySpec) (s : State) :
    (encodeCore b sp s).fsm = .idle := rfl
@[simp] theorem encodeCore_env (b : List Byte) (sp : EntropySpec) (s : State) :
    (encodeCore b sp s).env = s.env := rfl

/-! ### emptyMnemonic -/

@[simp] theorem emptyMnemonic_lastCmd (s : State) : (emptyMnemonic s).lastCmd = s.lastCmd := rfl
@[simp] theorem emptyMnemonic_status (s : State) : (emptyMnemonic s).status = s.status.finished .notFound := rfl
@[simp] theorem emptyMnemonic_wlSize (s : State) : (emptyMnemonic s).wlSize = s.wlSize := rfl
@[simp] theorem emptyMnemonic_d (s : State) : (emptyMnemonic s).d = Data.zero := rfl
@[simp] theorem emptyMnemonic_fsm (s : State) : (emptyMnemonic s).fsm = .idle := rfl
@[simp] theorem emptyMnemonic_env (s : State) : (emptyMnemonic s).env = s.env := rfl

/-! ### resetBlock -/

@[simp] theorem resetBlock_lastCmd (s : State) : (resetBlock s).lastCmd = 0 := rfl
@[simp] theorem resetBlock_status (s : State) : (resetBlock s).status = Status.zero := rfl
@[simp] theorem resetBlock_wlSize (s : State) : (resetBlock s).wlSize = 0 := rfl
@[simp] theorem resetBlock_d (s : State) : (resetBlock s).d = Data.zero := rfl
@[simp] theorem resetBlock_fsm (s : State) : (resetBlock s).fsm = .idle := rfl
@[simp] theorem resetBlock_env (s : State) : (resetBlock s).env = s.env := rfl

/-! ### STATUS -/

@[simp] theorem Status.accepted_busy : (Status.accepted).busy = true := rfl
@[simp] theorem Status.accepted_done : (Status.accepted).done = false := rfl
@[simp] theorem Status.accepted_err : (Status.accepted).err = false := rfl
@[simp] theorem Status.accepted_wdrop : (Status.accepted).wdrop = false := rfl
@[simp] theorem Status.accepted_code : (Status.accepted).code = 0 := rfl

@[simp] theorem Status.finished_busy (c : Code) (st : Status) : (st.finished c).busy = false := rfl
@[simp] theorem Status.finished_done (c : Code) (st : Status) : (st.finished c).done = true := rfl
@[simp] theorem Status.finished_err (c : Code) (st : Status) : (st.finished c).err = decide (2 ≤ c.num.toNat) := rfl
@[simp] theorem Status.finished_wdrop (c : Code) (st : Status) : (st.finished c).wdrop = st.wdrop := rfl
@[simp] theorem Status.finished_code (c : Code) (st : Status) : (st.finished c).code = c.num := rfl

@[simp] theorem Status.dropped_busy (st : Status) : (st.dropped).busy = st.busy := rfl
@[simp] theorem Status.dropped_done (st : Status) : (st.dropped).done = st.done := rfl
@[simp] theorem Status.dropped_err (st : Status) : (st.dropped).err = st.err := rfl
@[simp] theorem Status.dropped_wdrop (st : Status) : (st.dropped).wdrop = true := rfl
@[simp] theorem Status.dropped_code (st : Status) : (st.dropped).code = st.code := rfl

@[simp] theorem Status.zero_busy : (Status.zero).busy = false := rfl
@[simp] theorem Status.zero_done : (Status.zero).done = false := rfl
@[simp] theorem Status.zero_err : (Status.zero).err = false := rfl
@[simp] theorem Status.zero_wdrop : (Status.zero).wdrop = false := rfl
@[simp] theorem Status.zero_code : (Status.zero).code = 0 := rfl

/-! ### Data.setHex -/

@[simp] theorem Data.setHex_hexLen (h : List Byte) (d : Data) : (d.setHex h).hexLen = BitVec.ofNat 8 h.length := rfl
@[simp] theorem Data.setHex_hex (h : List Byte) (d : Data) :
    (d.setHex h).hex = hexBuffer h := rfl
@[simp] theorem Data.setHex_ent (h : List Byte) (d : Data) : (d.setHex h).ent = d.ent := rfl
@[simp] theorem Data.setHex_entLen (h : List Byte) (d : Data) : (d.setHex h).entLen = d.entLen := rfl
@[simp] theorem Data.setHex_cs (h : List Byte) (d : Data) : (d.setHex h).cs = d.cs := rfl
@[simp] theorem Data.setHex_csLen (h : List Byte) (d : Data) : (d.setHex h).csLen = d.csLen := rfl
@[simp] theorem Data.setHex_csRx (h : List Byte) (d : Data) : (d.setHex h).csRx = d.csRx := rfl
@[simp] theorem Data.setHex_csRxLen (h : List Byte) (d : Data) : (d.setHex h).csRxLen = d.csRxLen := rfl
@[simp] theorem Data.setHex_sw (h : List Byte) (d : Data) : (d.setHex h).sw = d.sw := rfl
@[simp] theorem Data.setHex_scsb (h : List Byte) (d : Data) : (d.setHex h).scsb = d.scsb := rfl
@[simp] theorem Data.setHex_sentb (h : List Byte) (d : Data) : (d.setHex h).sentb = d.sentb := rfl
@[simp] theorem Data.setHex_sovb (h : List Byte) (d : Data) : (d.setHex h).sovb = d.sovb := rfl
@[simp] theorem Data.setHex_word (h : List Byte) (d : Data) : (d.setHex h).word = d.word := rfl
@[simp] theorem Data.setHex_resultW (h : List Byte) (d : Data) : (d.setHex h).resultW = d.resultW := rfl

/-! ### Data.setEnt -/

@[simp] theorem Data.setEnt_hexLen (t : Bits) (d : Data) : (d.setEnt t).hexLen = d.hexLen := rfl
@[simp] theorem Data.setEnt_hex (t : Bits) (d : Data) : (d.setEnt t).hex = d.hex := rfl
@[simp] theorem Data.setEnt_ent (t : Bits) (d : Data) : (d.setEnt t).ent = padTo 256 t := rfl
@[simp] theorem Data.setEnt_entLen (t : Bits) (d : Data) : (d.setEnt t).entLen = BitVec.ofNat 9 t.length := rfl
@[simp] theorem Data.setEnt_cs (t : Bits) (d : Data) : (d.setEnt t).cs = d.cs := rfl
@[simp] theorem Data.setEnt_csLen (t : Bits) (d : Data) : (d.setEnt t).csLen = d.csLen := rfl
@[simp] theorem Data.setEnt_csRx (t : Bits) (d : Data) : (d.setEnt t).csRx = d.csRx := rfl
@[simp] theorem Data.setEnt_csRxLen (t : Bits) (d : Data) : (d.setEnt t).csRxLen = d.csRxLen := rfl
@[simp] theorem Data.setEnt_sw (t : Bits) (d : Data) : (d.setEnt t).sw = d.sw := rfl
@[simp] theorem Data.setEnt_scsb (t : Bits) (d : Data) : (d.setEnt t).scsb = d.scsb := rfl
@[simp] theorem Data.setEnt_sentb (t : Bits) (d : Data) : (d.setEnt t).sentb = d.sentb := rfl
@[simp] theorem Data.setEnt_sovb (t : Bits) (d : Data) : (d.setEnt t).sovb = d.sovb := rfl
@[simp] theorem Data.setEnt_word (t : Bits) (d : Data) : (d.setEnt t).word = d.word := rfl
@[simp] theorem Data.setEnt_resultW (t : Bits) (d : Data) : (d.setEnt t).resultW = d.resultW := rfl

/-! ### Data.setCs -/

@[simp] theorem Data.setCs_hexLen (x c : Nat) (d : Data) : (d.setCs x c).hexLen = d.hexLen := rfl
@[simp] theorem Data.setCs_hex (x c : Nat) (d : Data) : (d.setCs x c).hex = d.hex := rfl
@[simp] theorem Data.setCs_ent (x c : Nat) (d : Data) : (d.setCs x c).ent = d.ent := rfl
@[simp] theorem Data.setCs_entLen (x c : Nat) (d : Data) : (d.setCs x c).entLen = d.entLen := rfl
@[simp] theorem Data.setCs_cs (x c : Nat) (d : Data) : (d.setCs x c).cs = BitVec.ofNat 8 x := rfl
@[simp] theorem Data.setCs_csLen (x c : Nat) (d : Data) : (d.setCs x c).csLen = BitVec.ofNat 4 c := rfl
@[simp] theorem Data.setCs_csRx (x c : Nat) (d : Data) : (d.setCs x c).csRx = d.csRx := rfl
@[simp] theorem Data.setCs_csRxLen (x c : Nat) (d : Data) : (d.setCs x c).csRxLen = d.csRxLen := rfl
@[simp] theorem Data.setCs_sw (x c : Nat) (d : Data) : (d.setCs x c).sw = d.sw := rfl
@[simp] theorem Data.setCs_scsb (x c : Nat) (d : Data) : (d.setCs x c).scsb = d.scsb := rfl
@[simp] theorem Data.setCs_sentb (x c : Nat) (d : Data) : (d.setCs x c).sentb = d.sentb := rfl
@[simp] theorem Data.setCs_sovb (x c : Nat) (d : Data) : (d.setCs x c).sovb = d.sovb := rfl
@[simp] theorem Data.setCs_word (x c : Nat) (d : Data) : (d.setCs x c).word = d.word := rfl
@[simp] theorem Data.setCs_resultW (x c : Nat) (d : Data) : (d.setCs x c).resultW = d.resultW := rfl

/-! ### Data.setCsRx -/

@[simp] theorem Data.setCsRx_hexLen (x c : Nat) (d : Data) : (d.setCsRx x c).hexLen = d.hexLen := rfl
@[simp] theorem Data.setCsRx_hex (x c : Nat) (d : Data) : (d.setCsRx x c).hex = d.hex := rfl
@[simp] theorem Data.setCsRx_ent (x c : Nat) (d : Data) : (d.setCsRx x c).ent = d.ent := rfl
@[simp] theorem Data.setCsRx_entLen (x c : Nat) (d : Data) : (d.setCsRx x c).entLen = d.entLen := rfl
@[simp] theorem Data.setCsRx_cs (x c : Nat) (d : Data) : (d.setCsRx x c).cs = d.cs := rfl
@[simp] theorem Data.setCsRx_csLen (x c : Nat) (d : Data) : (d.setCsRx x c).csLen = d.csLen := rfl
@[simp] theorem Data.setCsRx_csRx (x c : Nat) (d : Data) : (d.setCsRx x c).csRx = BitVec.ofNat 8 x := rfl
@[simp] theorem Data.setCsRx_csRxLen (x c : Nat) (d : Data) : (d.setCsRx x c).csRxLen = BitVec.ofNat 4 c := rfl
@[simp] theorem Data.setCsRx_sw (x c : Nat) (d : Data) : (d.setCsRx x c).sw = d.sw := rfl
@[simp] theorem Data.setCsRx_scsb (x c : Nat) (d : Data) : (d.setCsRx x c).scsb = d.scsb := rfl
@[simp] theorem Data.setCsRx_sentb (x c : Nat) (d : Data) : (d.setCsRx x c).sentb = d.sentb := rfl
@[simp] theorem Data.setCsRx_sovb (x c : Nat) (d : Data) : (d.setCsRx x c).sovb = d.sovb := rfl
@[simp] theorem Data.setCsRx_word (x c : Nat) (d : Data) : (d.setCsRx x c).word = d.word := rfl
@[simp] theorem Data.setCsRx_resultW (x c : Nat) (d : Data) : (d.setCsRx x c).resultW = d.resultW := rfl

/-! ### Data.setSpec -/

@[simp] theorem Data.setSpec_hexLen (sp : EntropySpec) (d : Data) : (d.setSpec sp).hexLen = d.hexLen := rfl
@[simp] theorem Data.setSpec_hex (sp : EntropySpec) (d : Data) : (d.setSpec sp).hex = d.hex := rfl
@[simp] theorem Data.setSpec_ent (sp : EntropySpec) (d : Data) : (d.setSpec sp).ent = d.ent := rfl
@[simp] theorem Data.setSpec_entLen (sp : EntropySpec) (d : Data) : (d.setSpec sp).entLen = d.entLen := rfl
@[simp] theorem Data.setSpec_cs (sp : EntropySpec) (d : Data) : (d.setSpec sp).cs = d.cs := rfl
@[simp] theorem Data.setSpec_csLen (sp : EntropySpec) (d : Data) : (d.setSpec sp).csLen = d.csLen := rfl
@[simp] theorem Data.setSpec_csRx (sp : EntropySpec) (d : Data) : (d.setSpec sp).csRx = d.csRx := rfl
@[simp] theorem Data.setSpec_csRxLen (sp : EntropySpec) (d : Data) : (d.setSpec sp).csRxLen = d.csRxLen := rfl
@[simp] theorem Data.setSpec_sw (sp : EntropySpec) (d : Data) : (d.setSpec sp).sw = BitVec.ofNat 5 sp.w := rfl
@[simp] theorem Data.setSpec_scsb (sp : EntropySpec) (d : Data) :
    (d.setSpec sp).scsb = BitVec.ofNat 4 sp.checksumBits := rfl
@[simp] theorem Data.setSpec_sentb (sp : EntropySpec) (d : Data) :
    (d.setSpec sp).sentb = BitVec.ofNat 9 sp.entropyBits := rfl
@[simp] theorem Data.setSpec_sovb (sp : EntropySpec) (d : Data) :
    (d.setSpec sp).sovb = BitVec.ofNat 9 sp.overallBits := rfl
@[simp] theorem Data.setSpec_word (sp : EntropySpec) (d : Data) : (d.setSpec sp).word = d.word := rfl
@[simp] theorem Data.setSpec_resultW (sp : EntropySpec) (d : Data) : (d.setSpec sp).resultW = d.resultW := rfl

/-! ### Data.setWords -/

@[simp] theorem Data.setWords_hexLen (g : List Nat) (d : Data) : (d.setWords g).hexLen = d.hexLen := rfl
@[simp] theorem Data.setWords_hex (g : List Nat) (d : Data) : (d.setWords g).hex = d.hex := rfl
@[simp] theorem Data.setWords_ent (g : List Nat) (d : Data) : (d.setWords g).ent = d.ent := rfl
@[simp] theorem Data.setWords_entLen (g : List Nat) (d : Data) : (d.setWords g).entLen = d.entLen := rfl
@[simp] theorem Data.setWords_cs (g : List Nat) (d : Data) : (d.setWords g).cs = d.cs := rfl
@[simp] theorem Data.setWords_csLen (g : List Nat) (d : Data) : (d.setWords g).csLen = d.csLen := rfl
@[simp] theorem Data.setWords_csRx (g : List Nat) (d : Data) : (d.setWords g).csRx = d.csRx := rfl
@[simp] theorem Data.setWords_csRxLen (g : List Nat) (d : Data) : (d.setWords g).csRxLen = d.csRxLen := rfl
@[simp] theorem Data.setWords_sw (g : List Nat) (d : Data) : (d.setWords g).sw = d.sw := rfl
@[simp] theorem Data.setWords_scsb (g : List Nat) (d : Data) : (d.setWords g).scsb = d.scsb := rfl
@[simp] theorem Data.setWords_sentb (g : List Nat) (d : Data) : (d.setWords g).sentb = d.sentb := rfl
@[simp] theorem Data.setWords_sovb (g : List Nat) (d : Data) : (d.setWords g).sovb = d.sovb := rfl
@[simp] theorem Data.setWords_word (g : List Nat) (d : Data) :
    (d.setWords g).word = wordArray g := rfl
@[simp] theorem Data.setWords_resultW (g : List Nat) (d : Data) :
    (d.setWords g).resultW = BitVec.ofNat 5 g.length := rfl

/-! ### Data.zero -/

@[simp] theorem Data.zero_hexLen : Data.zero.hexLen = 0 := rfl
@[simp] theorem Data.zero_hex : Data.zero.hex = Vector.replicate 64 0 := rfl
@[simp] theorem Data.zero_ent : Data.zero.ent = 0 := rfl
@[simp] theorem Data.zero_entLen : Data.zero.entLen = 0 := rfl
@[simp] theorem Data.zero_cs : Data.zero.cs = 0 := rfl
@[simp] theorem Data.zero_csLen : Data.zero.csLen = 0 := rfl
@[simp] theorem Data.zero_csRx : Data.zero.csRx = 0 := rfl
@[simp] theorem Data.zero_csRxLen : Data.zero.csRxLen = 0 := rfl
@[simp] theorem Data.zero_sw : Data.zero.sw = 0 := rfl
@[simp] theorem Data.zero_scsb : Data.zero.scsb = 0 := rfl
@[simp] theorem Data.zero_sentb : Data.zero.sentb = 0 := rfl
@[simp] theorem Data.zero_sovb : Data.zero.sovb = 0 := rfl
@[simp] theorem Data.zero_word : Data.zero.word = Vector.replicate 24 ⟨0, false⟩ := rfl
@[simp] theorem Data.zero_resultW : Data.zero.resultW = 0 := rfl

end Sys2Proof.Machine
end

