-- ==== Sys2Proof/Laws/Packing.lean ====
section
/-! SUPPORT. The bits of the packer's functions (42_bit_packer.md) and of the register operands: lengths, and which
input bit each output bit is. -/

namespace Sys2Proof.Machine

/-! ## Hex -/

theorem hexValue_lt {ch : Byte} {v : Nat} (h : hexValue ch = some v) : v < 16 := by
  unfold hexValue at h
  split at h
  · cases h; omega
  · split at h
    · cases h; omega
    · split at h
      · cases h; omega
      · cases h

theorem nib_lt (ch : Byte) : nib ch < 16 := by
  unfold nib
  cases h : hexValue ch with
  | none => simp
  | some v => simpa using hexValue_lt h

@[simp] theorem length_hexToBits (h : List Byte) : (hexToBits h).length = 4 * h.length :=
  length_flatMap_blocks _ 4 (by simp) h

/-- Bit `4j + k` of `hexToBits(h)` is bit `3 - k` of `nib(h[j])`. -/
theorem getD_hexToBits (h : List Byte) (j k : Nat) (hj : j < h.length) (hk : k < 4) :
    (hexToBits h).getD (4 * j + k) false = (nib (h.getD j 0)).testBit (3 - k) := by
  rw [hexToBits, getD_flatMap_blocks _ 4 (by simp) h 0 j k hj hk, getD_bitsN _ _ _ hk]

@[simp] theorem length_bitsToHex (s : Bits) : (bitsToHex s).length = s.length / 4 := by simp [bitsToHex]

/-- Character `j` of `bitsToHex(s)`. -/
theorem getD_bitsToHex (s : Bits) (j : Nat) (hj : j < s.length / 4) (x : Byte) :
    (bitsToHex s).getD j x = hexChar ((bitAt s (4 * j) <<< 3) ||| (bitAt s (4 * j + 1) <<< 2)
      ||| (bitAt s (4 * j + 2) <<< 1) ||| bitAt s (4 * j + 3)) := by
  simp [bitsToHex, List.getD_eq_getElem?_getD, hj]

/-! ## Groups -/

@[simp] theorem length_group (s : Bits) (w : Nat) : (group s w).length = w := by simp [group]

theorem getD_group (s : Bits) (w i : Nat) (hi : i < w) :
    (group s w).getD i 0 = val (slice s (11 * i) (11 * i + 11)) := by
  simp [group, List.getD_eq_getElem?_getD, hi]

/-- Bit `10 - k` of group `i` is bit `11i + k` of the string. -/
theorem testBit_group (s : Bits) (w i k : Nat) (hi : i < w) (hk : k < 11) (hs : s.length = 11 * w) :
    ((group s w).getD i 0).testBit (10 - k) = s.getD (11 * i + k) false := by
  have hl : (slice s (11 * i) (11 * i + 11)).length = 11 := by simp; omega
  rw [getD_group _ _ _ hi, testBit_val _ _ (by omega), hl]
  have : 11 - 1 - (10 - k) = k := by omega
  rw [this, getD_slice _ _ _ _ (by omega)]

theorem group_lt (s : Bits) (w i : Nat) : (group s w).getD i 0 < 2048 := by
  by_cases hi : i < w
  · rw [getD_group _ _ _ hi]
    refine lt_of_lt_of_le (val_lt _) ?_
    calc 2 ^ (slice s (11 * i) (11 * i + 11)).length ≤ 2 ^ 11 := Nat.pow_le_pow_right (by omega) (by simp)
      _ = 2048 := by norm_num
  · simp [List.getD_eq_getElem?_getD, hi]

@[simp] theorem length_ungroup (g : List Nat) : (ungroup g).length = 11 * g.length :=
  length_flatMap_blocks _ 11 (by simp) g

/-- Bit `11i + k` of the ungrouped string is bit `10 - k` of group `i`. -/
theorem getD_ungroup (g : List Nat) (i k : Nat) (hi : i < g.length) (hk : k < 11) :
    (ungroup g).getD (11 * i + k) false = (g.getD i 0).testBit (10 - k) := by
  rw [ungroup, getD_flatMap_blocks _ 11 (by simp) g 0 i k hi hk, getD_bitsN _ _ _ hk]

theorem split_fst (t : Bits) (e : Nat) : (split t e).1 = t.take e := by simp [split, slice]

theorem split_snd (t : Bits) (e : Nat) : (split t e).2 = t.drop e := by
  simp only [split, slice]
  apply List.take_of_length_le
  simp

/-! ## Register operands -/

theorem length_hexChars (d : Data) : d.hexChars.length = min d.hexLen.toNat 64 := by
  simp [Data.hexChars]

theorem getD_hexChars (d : Data) (j : Fin 64) (hj : j.val < d.hexLen.toNat) :
    d.hexChars.getD j.val 0 = d.hex[j] := by
  simp [Data.hexChars, List.getD_eq_getElem?_getD, hj]

theorem length_entBits (d : Data) : d.entBits.length = min d.entLen.toNat 256 := by
  simp [Data.entBits]

/-- Bit `i` of `ENT⟨0..ENT_LEN⟩` is `ENT⟨i⟩`. -/
theorem getD_entBits (d : Data) (i : Nat) (hi : i < d.entLen.toNat) (h256 : i < 256) :
    d.entBits.getD i false = d.ent.getMsbD i := by
  have := getD_bitsN 256 d.ent.toNat i h256
  simp only [List.getD_eq_getElem?_getD] at this ⊢
  rw [Data.entBits, List.getElem?_take, if_pos hi, this]
  simp [BitVec.getMsbD, h256, BitVec.testBit_toNat]

@[simp] theorem length_csBits (d : Data) : d.csBits.length = d.csLen.toNat := by simp [Data.csBits]

theorem length_wordIdxs (d : Data) (w : Nat) : (d.wordIdxs w).length = min w 24 := by
  simp [Data.wordIdxs]

theorem getD_wordIdxs (d : Data) (w : Nat) (i : Fin 24) (hi : i.val < w) :
    (d.wordIdxs w).getD i.val 0 = d.word[i].idx.toNat := by
  simp [Data.wordIdxs, List.getD_eq_getElem?_getD, hi]

/-- A list padded with `x` and cut to `n` entries: entry `j` is the list's, or `x`. -/
theorem getElem_padded {α : Type} (l : List α) (x : α) (n j : Nat)
    (hj : j < ((l ++ List.replicate n x).take n).length) : ((l ++ List.replicate n x).take n)[j] = l.getD j x := by
  rw [List.getElem_take]
  by_cases h : j < l.length
  · rw [List.getElem_append_left h, List.getD_eq_getElem _ _ h]
  · rw [List.getElem_append_right (by omega), List.getElem_replicate, List.getD_eq_default _ _ (by omega)]

theorem setHex_hex (h : List Byte) (d : Data) (j : Fin 64) : (d.setHex h).hex[j] = h.getD j.val 0 := by
  exact getElem_padded h 0 64 j.val (by rw [length_padded]; exact j.isLt)

theorem setEnt_getMsbD (t : Bits) (d : Data) (ht : t.length ≤ 256) (i : Nat) :
    (d.setEnt t).ent.getMsbD i = t.getD i false := by
  rw [Data.setEnt_ent, getMsbD_padTo 256 t ht]

theorem setWords_word (g : List Nat) (d : Data) (i : Fin 24) :
    (d.setWords g).word[i] = ⟨BitVec.ofNat 11 (g.getD i.val 0), false⟩ := by
  have h := getElem_padded (g.map fun x => WordReg.mk (BitVec.ofNat 11 x) false) ⟨0, false⟩ 24 i.val
    (by rw [length_padded]; exact i.isLt)
  exact h.trans (List.getD_map g 0 fun x => WordReg.mk (BitVec.ofNat 11 x) false)

/-! ## The checksum -/

/-- A checksum of `c` bits is below `2^c` (41 R161). -/
theorem topBits_lt (d0 : Byte) (c : Nat) (hc : c ≤ 8) : topBits d0 c < 2 ^ c := by
  have h : (d0 &&& mask c).toNat < 2 ^ 8 := (d0 &&& mask c).isLt
  simp only [topBits, BitVec.toNat_ushiftRight, Nat.shiftRight_eq_div_pow]
  apply Nat.div_lt_of_lt_mul
  rw [← pow_add]
  have : 8 - c + c = 8 := by omega
  rw [this]
  exact h

theorem checksum_lt (b : List Byte) (c : Nat) (hc : c ≤ 8) : checksum b c < 2 ^ c := topBits_lt _ _ hc

end Sys2Proof.Machine
end

