-- ==== Sys2Proof/Laws/Exec.lean ====
section
/-! SUPPORT. What the shared operations can do, said once each: the host's accesses, the commands, the agents'
turns. Later proofs cite these instead of unfolding a meaning. -/

namespace Sys2Proof.Machine

theorem accessOk_iff (off : Int) (size : Nat) :
    accessOk off size = true ↔ size = 4 ∧ 0 ≤ off ∧ off ≤ 0x0FC ∧ off % 4 = 0 := by
  simp [accessOk]

theorem wordlistCheck_cases (v : Word) :
    (wordlistCheck v = some .emptyWordlist ∧ v = 0) ∨ (wordlistCheck v = some .wordlistSize ∧ v ≠ 0 ∧ v ≠ 2048) ∨
      (wordlistCheck v = none ∧ v = 2048) := by
  unfold wordlistCheck
  by_cases h0 : v = 0
  · exact .inl ⟨if_pos h0, h0⟩
  · rw [if_neg h0]
    by_cases h1 : v = 2048
    · exact .inr (.inr ⟨if_neg (not_not.2 h1), h1⟩)
    · exact .inr (.inl ⟨if_pos h1, h0, h1⟩)

/-! ## Commands -/

/-- How a command ends its execution step: an error code with nothing committed, a completion with its commit set,
or (GENERATE) the entropy request. -/
inductive Ends (i : Instr) (s : State) : State → Prop where
  | raised (c : Code) (hc : 2 ≤ c.num.toNat) : Ends i s (raise c s)
  | completed (c : Code) (d : Data) (hc : c.num.toNat ≤ 1) : Ends i s (complete c d s)
  | requested (w : Nat) (sp : EntropySpec) (hi : i = .generate w) (hsp : specFromW w = some sp)
      (hw : s.wlSize = 2048) : Ends i s (requestEntropy sp s)

/-- Every command answers a next state, and it ends in one of the three ways. -/
theorem exec_ends (i : Instr) (s : State) : ∃ t, exec i s = .next t ∧ Ends i s t := by
  cases i with
  | specw w =>
    simp only [exec, execSpecw]
    split
    · exact ⟨_, rfl, .raised _ (by decide)⟩
    · exact ⟨_, rfl, .completed _ _ (by decide)⟩
  | spece =>
    simp only [exec, execSpece]
    split
    · split
      · exact ⟨_, rfl, .raised _ (by decide)⟩
      · exact ⟨_, rfl, .completed _ _ (by decide)⟩
    · exact ⟨_, rfl, .raised _ (by decide)⟩
  | hex2bits =>
    simp only [exec, execHex2bits]
    split
    · exact ⟨_, rfl, .raised _ (by decide)⟩
    · split
      · exact ⟨_, rfl, .completed _ _ (by decide)⟩
      · exact ⟨_, rfl, .raised _ (by decide)⟩
  | bits2hex =>
    simp only [exec, execBits2hex]
    split
    · exact ⟨_, rfl, .raised _ (by decide)⟩
    · exact ⟨_, rfl, .completed _ _ (by decide)⟩
  | csum =>
    simp only [exec, execCsum]
    split
    · exact ⟨_, rfl, .raised _ (by decide)⟩
    · exact ⟨_, rfl, .completed _ _ (by decide)⟩
  | pack =>
    simp only [exec, execPack]
    split
    · exact ⟨_, rfl, .raised _ (by decide)⟩
    · split
      · exact ⟨_, rfl, .raised _ (by decide)⟩
      · exact ⟨_, rfl, .completed _ _ (by decide)⟩
  | unpack w =>
    simp only [exec, execUnpack]
    split
    · exact ⟨_, rfl, .raised _ (by decide)⟩
    · exact ⟨_, rfl, .completed _ _ (by decide)⟩
  | cschk =>
    simp only [exec, execCschk]
    split
    · exact ⟨_, rfl, .raised _ (by decide)⟩
    · split
      · exact ⟨_, rfl, .raised _ (by decide)⟩
      · split
        · exact ⟨_, rfl, .raised _ (by decide)⟩
        · exact ⟨_, rfl, .completed _ _ (by decide)⟩
  | encode =>
    simp only [exec, execEncode]
    split
    · split
      · exact ⟨_, rfl, .raised _ (by decide)⟩
      · rcases wordlistCheck_cases s.wlSize with ⟨h, -⟩ | ⟨h, -⟩ | ⟨h, -⟩ <;> rw [h]
        · exact ⟨_, rfl, .raised _ (by decide)⟩
        · exact ⟨_, rfl, .raised _ (by decide)⟩
        · exact ⟨_, rfl, .completed _ _ (by decide)⟩
    · exact ⟨_, rfl, .raised _ (by decide)⟩
  | generate w =>
    simp only [exec, execGenerate]
    split
    · exact ⟨_, rfl, .raised _ (by decide)⟩
    · rename_i sp hsp
      rcases wordlistCheck_cases s.wlSize with ⟨h, -⟩ | ⟨h, -⟩ | ⟨h, hw⟩ <;> rw [h]
      · exact ⟨_, rfl, .raised _ (by decide)⟩
      · exact ⟨_, rfl, .raised _ (by decide)⟩
      · exact ⟨_, rfl, .requested w sp rfl hsp hw⟩
  | decode w vfy =>
    simp only [exec, execDecode]
    split
    · exact ⟨_, rfl, .raised _ (by decide)⟩
    · rcases wordlistCheck_cases s.wlSize with ⟨h, -⟩ | ⟨h, -⟩ | ⟨h, -⟩ <;> rw [h]
      · exact ⟨_, rfl, .raised _ (by decide)⟩
      · exact ⟨_, rfl, .raised _ (by decide)⟩
      · dsimp only
        split
        · exact ⟨_, rfl, .completed _ _ (by decide)⟩
        · split
          · split
            · exact ⟨_, rfl, .raised _ (by decide)⟩
            · exact ⟨_, rfl, .completed _ _ (by decide)⟩
          · exact ⟨_, rfl, .completed _ _ (by decide)⟩

/-! ## Host accesses -/

/-- A read inside the contract returns a word and changes no register. -/
theorem memRead_next {off : Int} {size : Nat} {s t : State} (h : memRead off size s = .next t) :
    accessOk off size = true ∧
      ((t = returnFree s ∧ (regAt off.toNat).isData = true ∧ s.status.busy = true) ∨
        (t = returnWord (readReg s (regAt off.toNat)) s ∧
          ((regAt off.toNat).isData = false ∨ s.status.busy = false))) := by
  unfold memRead at h
  split at h
  · rename_i ha
    refine ⟨ha, ?_⟩
    split at h
    · rename_i hb
      cases h
      simp only [Bool.and_eq_true] at hb
      exact .inl ⟨rfl, hb⟩
    · rename_i hb
      cases h
      refine .inr ⟨rfl, ?_⟩
      cases h1 : (regAt off.toNat).isData <;> cases h2 : s.status.busy <;> simp_all
  · cases h

/-- A write inside the contract is dropped or reaches its register. -/
theorem memWrite_next {off : Int} {size : Nat} {v : Word} {s t : State} (h : memWrite off size v s = .next t) :
    accessOk off size = true ∧
      ((t = dropWrite s ∧ (regAt off.toNat).isRW = true ∧ s.status.busy = true) ∨
        (t = writeReg v s (regAt off.toNat) ∧ ((regAt off.toNat).isRW = false ∨ s.status.busy = false))) := by
  unfold memWrite at h
  split at h
  · rename_i ha
    refine ⟨ha, ?_⟩
    split at h
    · rename_i hb
      cases h
      simp only [Bool.and_eq_true] at hb
      exact .inl ⟨rfl, hb⟩
    · rename_i hb
      cases h
      refine .inr ⟨rfl, ?_⟩
      cases h1 : (regAt off.toNat).isRW <;> cases h2 : s.status.busy <;> simp_all
  · cases h

/-- A write to a register that is not host-writable is ignored (20 R73). -/
theorem writeReg_of_not_rw (v : Word) (s : State) (r : Reg) (h : r.isRW = false) : writeReg v s r = s := by
  cases r <;> first | rfl | simp [Reg.isRW] at h

theorem ite_ne_of {p : Prop} [Decidable p] {a b c : Reg} (ha : a ≠ c) (hb : b ≠ c) : (if p then a else b) ≠ c := by
  split
  · exact ha
  · exact hb

/-- A write either accepts a command (offset 0x000) or leaves STATUS, FSM, LASTCMD and the environment. -/
theorem writeReg_cases (v : Word) (s : State) (r : Reg) :
    (r = .cmd ∧ writeReg v s r = accept v s) ∨
      (r ≠ .cmd ∧ (writeReg v s r).fsm = s.fsm ∧ (writeReg v s r).status = s.status ∧
        (writeReg v s r).lastCmd = s.lastCmd ∧ (writeReg v s r).env = s.env) := by
  cases r <;> simp [writeReg]

/-- Only offset 0x000 is CMD (20 R71). -/
theorem regAt_eq_cmd {off : Nat} (h : regAt off = .cmd) : off = 0 := by
  by_contra h0
  have e : regAt off ≠ .cmd := by
    rw [regAt, if_neg h0]
    repeat' (refine ite_ne_of (fun h => Reg.noConfusion h) ?_)
    exact fun h => Reg.noConfusion h
  exact e h

/-- A read changes no register, and of the environment only what was returned and how many free values were drawn
(20 R78, 70 R301). -/
theorem memRead_same {off : Int} {size : Nat} {s t : State} (h : memRead off size s = .next t) :
    s.SameRegs t ∧ t.env.program = s.env.program ∧ t.env.answers = s.env.answers ∧ t.env.turns = s.env.turns ∧
      t.env.requests = s.env.requests := by
  rcases (memRead_next h).2 with ⟨rfl, -⟩ | ⟨rfl, -⟩ <;> exact ⟨⟨rfl, rfl, rfl, rfl, rfl⟩, rfl, rfl, rfl, rfl⟩

/-- A poll changes no register (30 R119). -/
theorem pollStatus_same (rest : List HostOp) (s : State) : s.SameRegs (pollStatus rest s) := by
  unfold pollStatus
  split <;> exact ⟨rfl, rfl, rfl, rfl, rfl⟩

/-! ## The agents -/

/-- What an answer of the entropy port does (43 R236, 20 R88). -/
theorem rngAnswer_cases (a : RngAnswer) (s : State) :
    (∃ g draw, s.fsm = .rngWait g ∧ a = .ok draw ∧ rngAnswer a s = encodeCore (draw.toList.take g.n) g.spec s) ∨
      (∃ g, s.fsm = .rngWait g ∧ a = .fail ∧ rngAnswer a s = raise .entropySourceError s) ∨
      ((∀ g, s.fsm ≠ .rngWait g) ∧ rngAnswer a s = s) := by
  cases hf : s.fsm with
  | rngWait g =>
    cases a with
    | ok draw => exact .inl ⟨g, draw, rfl, rfl, by simp only [rngAnswer, hf]⟩
    | fail => exact .inr (.inl ⟨g, rfl, rfl, by simp only [rngAnswer, hf]⟩)
  | idle => exact .inr (.inr ⟨fun _ => Fsm.noConfusion, by simp only [rngAnswer, hf]⟩)
  | exec => exact .inr (.inr ⟨fun _ => Fsm.noConfusion, by simp only [rngAnswer, hf]⟩)

/-- The execution step answers a next state: an illegal word raises IllegalCommand, a legal one runs its command. -/
theorem blockTurn_exec {s : State} (hf : s.fsm = .exec) : ∃ t, blockTurn s = .next t ∧
    ((∃ i, decode s.lastCmd = .ok i ∧ exec i s = .next t ∧ Ends i s t) ∨
      ((∃ e, decode s.lastCmd = .error e) ∧ t = raise .illegalCommand s)) := by
  simp only [blockTurn, hf, execStep, fetch]
  cases decode s.lastCmd with
  | error e => exact ⟨_, rfl, .inr ⟨⟨e, rfl⟩, rfl⟩⟩
  | ok i =>
    obtain ⟨t, ht, he⟩ := exec_ends i s
    exact ⟨t, ht, .inl ⟨i, rfl, ht, he⟩⟩

/-- What an agent's turn does to a state. -/
inductive Moves (s : State) : Turn → State → Prop where
  | hostDone (hp : s.env.program = []) : Moves s .host s
  | read (off : Int) (rest : List HostOp) (t : State) (hp : s.env.program = .read off 4 :: rest)
      (h : memRead off 4 { s with env := { s.env with program := rest } } = .next t) : Moves s .host t
  | write (off : Int) (v : Word) (rest : List HostOp) (t : State) (hp : s.env.program = .write off 4 v :: rest)
      (h : memWrite off 4 v { s with env := { s.env with program := rest } } = .next t) : Moves s .host t
  | poll (rest : List HostOp) (hp : s.env.program = .poll :: rest) : Moves s .host (pollStatus rest s)
  | blockIdle (hf : s.fsm ≠ .exec) : Moves s .block s
  | illegal (hf : s.fsm = .exec) : Moves s .block (raise .illegalCommand s)
  | executed (i : Instr) (t : State) (hf : s.fsm = .exec) (hd : decode s.lastCmd = .ok i) (h : exec i s = .next t) :
      Moves s .block t
  | noAnswer (ha : s.env.answers = []) : Moves s .source s
  | answered (a : RngAnswer) (rest : List RngAnswer) (ha : s.env.answers = a :: rest) :
      Moves s .source (rngAnswer a { s with env := { s.env with answers := rest } })
  | reset : Moves s .reset (resetBlock s)

/-- A turn that answers a next state is one of the moves. -/
theorem takeTurn_moves {tn : Turn} {s t : State} (h : takeTurn tn s = .next t) : Moves s tn t := by
  cases tn with
  | host =>
    simp only [takeTurn, hostTurn] at h
    split at h
    · rename_i hp
      cases h
      exact .hostDone hp
    · rename_i off size rest hp
      have h4 := ((accessOk_iff off size).1 (memRead_next h).1).1
      subst h4
      exact .read off rest t hp h
    · rename_i off size v rest hp
      have h4 := ((accessOk_iff off size).1 (memWrite_next h).1).1
      subst h4
      exact .write off v rest t hp h
    · rename_i hp
      cases h
      exact .poll _ hp
  | block =>
    simp only [takeTurn, blockTurn] at h
    split at h
    · rename_i hf
      simp only [execStep, fetch] at h
      split at h
      · rename_i i hd
        exact .executed i t hf hd h
      · cases h; exact .illegal hf
    · rename_i hf
      cases h
      exact .blockIdle (by simp [hf])
    · rename_i hf
      cases h
      exact .blockIdle (by simp [hf])
  | source =>
    simp only [takeTurn, sourceTurn] at h
    split at h
    · rename_i ha
      cases h
      exact .noAnswer ha
    · rename_i ha
      cases h
      exact .answered _ _ ha
  | reset => cases h; exact .reset

/-- A step is the next turn, taken after its entry of `turns` is removed. -/
theorem step_eq (s : State) : step s = takeTurn s.nextTurn s.popTurn := by
  simp only [step, agentStep, State.nextTurn, State.popTurn]
  split
  · rename_i ht
    rw [ht]
    congr 1
    rw [List.tail_nil, ← ht]
  · rename_i ht
    rw [ht]
    rfl

/-- What a step that answers a next state does. -/
theorem step_moves {s t : State} (h : step s = .next t) : Moves s.popTurn s.nextTurn t :=
  takeTurn_moves ((step_eq s).symm.trans h)

end Sys2Proof.Machine
end

