-- ==== Sys2Proof/Laws/Views.lean ====
section
/-! SUPPORT. The terms the claims use (Safety) read off the shared operations: characters, words, bits and bytes of
the data registers after a write, and what `finish` leaves. -/

namespace Sys2Proof.Machine

/-! ## Ending -/

/-- `raise` ends the command and writes no data register. -/
theorem raised_raise (c : Code) (s : State) : s.Raised c (raise c s) :=
  ⟨⟨rfl, rfl, rfl, rfl, rfl, rfl, rfl, rfl, rfl⟩, rfl⟩

/-- `complete` ends the command. -/
theorem ended_complete (c : Code) (d : Data) (s : State) : s.Ended c (complete c d s) :=
  ⟨rfl, rfl, rfl, rfl, rfl, rfl, rfl, rfl, rfl⟩

/-! ## The host's duties -/

/-- A program that waits where a command may be running waits where none is. -/
theorem pollsBeforeWrites_mono {ops : List HostOp} (b : Bool) (h : pollsBeforeWrites true ops = true) :
    pollsBeforeWrites b ops = true := by
  induction ops generalizing b with
  | nil => rfl
  | cons op rest ih =>
    cases op with
    | read off size => exact ih b h
    | poll => exact h
    | write off size v =>
      simp only [pollsBeforeWrites, Bool.true_and, Bool.true_or, Bool.and_eq_true, Bool.not_eq_true'] at h ⊢
      exact ⟨by rw [h.1, Bool.and_false], ih _ h.2⟩

/-- An issued command: the host's next operation is a CMD write of its word in BUSY = 0. -/
theorem issuedCommand_eq_some {s : State} {i : Instr} (h : s.issuedCommand = some i) :
    s.nextTurn = .host ∧ s.status.busy = false ∧ ∃ off size v rest, s.env.program = .write off size v :: rest ∧
      regAt off.toNat = .cmd ∧ decode v = .ok i := by
  unfold State.issuedCommand at h
  split at h
  · rename_i off size v rest ht hp
    split at h
    · rename_i hc
      refine ⟨ht, hc.1, off, size, v, rest, hp, hc.2, ?_⟩
      cases hd : decode v with
      | error e => rw [hd] at h; cases h
      | ok j => rw [hd] at h; cases h; rfl
    · cases h
  · cases h

/-! ## HEX -/

theorem hexAt_eq (d : Data) (j : Fin 64) : d.hexAt j.val = d.hex[j] := by
  simp [Data.hexAt, List.getD_eq_getElem?_getD]

theorem hexAt_beyond (d : Data) (j : Nat) (hj : 64 ≤ j) : d.hexAt j = 0 := by
  simp [Data.hexAt, List.getD_eq_getElem?_getD, hj]

/-- Character `j` of the HEX buffer after a write of at most 64 characters (10 R45). -/
theorem hexAt_setHex (h : List Byte) (d : Data) (hl : h.length ≤ 64) (j : Nat) :
    (d.setHex h).hexAt j = h.getD j 0 := by
  by_cases hj : j < 64
  · rw [hexAt_eq _ ⟨j, hj⟩, setHex_hex]
  · rw [hexAt_beyond _ _ (by omega)]
    have : h.length ≤ j := by omega
    simp [List.getD_eq_getElem?_getD, this]

theorem getD_hexChars_hexAt (d : Data) (j : Nat) (hj : j < d.hexLen.toNat) (h64 : j < 64) :
    d.hexChars.getD j 0 = d.hexAt j := by
  rw [hexAt_eq d ⟨j, h64⟩, ← getD_hexChars d ⟨j, h64⟩ hj]

/-- All the characters in use are hex characters. -/
theorem all_isHex_iff (d : Data) (hl : d.hexLen.toNat ≤ 64) :
    d.hexChars.all isHex = true ↔ ∀ j, j < d.hexLen.toNat → isHex (d.hexAt j) = true := by
  rw [List.all_eq_true]
  constructor
  · intro h j hj
    rw [← getD_hexChars_hexAt d j hj (by omega)]
    have hlen : j < d.hexChars.length := by rw [length_hexChars]; omega
    rw [List.getD_eq_getElem _ _ hlen]
    exact h _ (List.getElem_mem hlen)
  · intro h ch hch
    obtain ⟨j, hj, rfl⟩ := List.mem_iff_getElem.1 hch
    have hj' : j < d.hexLen.toNat := by rw [length_hexChars] at hj; omega
    have := h j hj'
    rwa [← getD_hexChars_hexAt d j hj' (by omega), List.getD_eq_getElem _ _ hj] at this

/-- Bit `i` of the hex string's bit string (42 R180). -/
theorem getD_hexToBits_hexBit (d : Data) (hl : d.hexLen.toNat ≤ 64) (i : Nat) (hi : i < 4 * d.hexLen.toNat) :
    (hexToBits d.hexChars).getD i false = d.hexBit i := by
  have h1 : 4 * (i / 4) + i % 4 = i := by omega
  have h2 : i / 4 < d.hexChars.length := by rw [length_hexChars]; omega
  have h3 := getD_hexToBits d.hexChars (i / 4) (i % 4) h2 (by omega)
  rw [h1, getD_hexChars_hexAt d _ (by omega) (by omega)] at h3
  exact h3

/-- `validEntropyHex` says what R144 says. -/
theorem validEntropyHex_iff (d : Data) : validEntropyHex d = true ↔ d.EntropyOk := by
  unfold validEntropyHex Data.EntropyOk
  rw [Bool.and_eq_true]
  simp only [validHexLen, decide_eq_true_eq]
  constructor
  · rintro ⟨h1, h2⟩
    exact ⟨h1, (all_isHex_iff d (by omega)).1 h2⟩
  · rintro ⟨h1, h2⟩
    exact ⟨h1, (all_isHex_iff d (by omega)).2 h2⟩

/-! ## WORD -/

theorem wordAt_eq (d : Data) (i : Fin 24) : d.wordAt i.val = d.word[i] := by
  simp [Data.wordAt, List.getD_eq_getElem?_getD]

theorem wordAt_beyond (d : Data) (i : Nat) (hi : 24 ≤ i) : d.wordAt i = ⟨0, false⟩ := by
  simp [Data.wordAt, List.getD_eq_getElem?_getD, hi]

/-- Register `i` of WORD after a write of at most 24 groups (10 R45). -/
theorem wordAt_setWords (g : List Nat) (d : Data) (hl : g.length ≤ 24) (i : Nat) :
    (d.setWords g).wordAt i = ⟨BitVec.ofNat 11 (g.getD i 0), false⟩ := by
  by_cases hi : i < 24
  · rw [wordAt_eq _ ⟨i, hi⟩, setWords_word]
  · rw [wordAt_beyond _ _ (by omega)]
    have : g.length ≤ i := by omega
    simp [List.getD_eq_getElem?_getD, this]

theorem getD_wordIdxs_wordAt (d : Data) (w i : Nat) (hi : i < w) (h24 : i < 24) :
    (d.wordIdxs w).getD i 0 = (d.wordAt i).idx.toNat := by
  rw [wordAt_eq d ⟨i, h24⟩, ← getD_wordIdxs d w ⟨i, h24⟩ hi]

/-- Bit `p` of the ungrouped words (42 R188). -/
theorem getD_ungroup_groupBit (d : Data) (w : Nat) (hw : w ≤ 24) (p : Nat) (hp : p < 11 * w) :
    (ungroup (d.wordIdxs w)).getD p false = d.groupBit p := by
  have h1 : 11 * (p / 11) + p % 11 = p := by omega
  have hl : (d.wordIdxs w).length = w := by rw [length_wordIdxs]; omega
  have h3 := getD_ungroup (d.wordIdxs w) (p / 11) (p % 11) (by omega) (by omega)
  rw [h1, getD_wordIdxs_wordAt d w _ (by omega) (by omega)] at h3
  rw [h3, Data.groupBit, BitVec.testBit_toNat]

/-- Bit `p` of the groups of a string, as WORD holds them (42 R187, R198). -/
theorem groupBit_setWords (s : Bits) (w : Nat) (d : Data) (hw : w ≤ 24) (hs : s.length = 11 * w) (p : Nat)
    (hp : p < 11 * w) : (d.setWords (group s w)).groupBit p = s.getD p false := by
  have h1 : 11 * (p / 11) + p % 11 = p := by omega
  have hlt := group_lt s w (p / 11)
  have h3 := testBit_group s w (p / 11) (p % 11) (by omega) (by omega) hs
  rw [h1] at h3
  rw [← h3, Data.groupBit, wordAt_setWords _ _ (by simpa using hw), ← BitVec.testBit_toNat, BitVec.toNat_ofNat,
    Nat.mod_eq_of_lt hlt]

/-- The not-found flags in use. -/
theorem anyNotFound_iff (d : Data) (w : Nat) (hw : w ≤ 24) :
    d.anyNotFound w = true ↔ ∃ i, i < w ∧ (d.wordAt i).nf = true := by
  unfold Data.anyNotFound
  rw [List.any_eq_true]
  constructor
  · rintro ⟨r, hr, hnf⟩
    obtain ⟨i, hi, rfl⟩ := List.mem_iff_getElem.1 hr
    simp only [List.length_take, Vector.length_toList] at hi
    refine ⟨i, by omega, ?_⟩
    rw [wordAt_eq d ⟨i, by omega⟩]
    simpa using hnf
  · rintro ⟨i, hi, hnf⟩
    refine ⟨d.word[(⟨i, by omega⟩ : Fin 24)], ?_, ?_⟩
    · apply List.mem_iff_getElem.2
      exact ⟨i, by simp; omega, by simp⟩
    · rwa [wordAt_eq d ⟨i, by omega⟩] at hnf

/-! ## ENT -/

/-- The bits of ENT after a write (10 R45). -/
theorem entIs_setEnt (t : Bits) (d : Data) (ht : t.length ≤ 256) (bit : Nat → Bool)
    (hb : ∀ i, i < t.length → t.getD i false = bit i) : (d.setEnt t).EntIs t.length bit := by
  constructor
  · rw [Data.setEnt_entLen, BitVec.toNat_ofNat, Nat.mod_eq_of_lt (by omega)]
  · intro i
    rw [setEnt_getMsbD t d ht]
    by_cases hi : i < t.length
    · rw [hb i hi]
      simp [hi]
    · simp [hi, List.getD_eq_getElem?_getD]

/-- ENT byte `j` bit by bit. -/
theorem getLsbD_entBytes (d : Data) (n j k : Nat) (hj : j < n) (hn : n ≤ 32) (hk : k < 8) :
    ((d.entBytes n).getD j 0).getLsbD (7 - k) = d.ent.getMsbD (8 * j + k) := by
  have h8 : 7 - k < 8 := by omega
  have e : 248 - 8 * j + (7 - k) = 255 - (8 * j + k) := by omega
  have hlt : 8 * j + k < 256 := by omega
  simp [Data.entBytes, List.getD_eq_getElem?_getD, hj, h8, BitVec.getMsbD, e, hlt]

/-- Byte lists of one length with the same bits are equal. -/
theorem bytes_ext {a b : List Byte} (hl : a.length = b.length)
    (h : ∀ j k, j < a.length → k < 8 → (a.getD j 0).getLsbD (7 - k) = (b.getD j 0).getLsbD (7 - k)) : a = b := by
  apply List.ext_getElem hl
  intro j h1 h2
  apply BitVec.eq_of_getLsbD_eq
  intro i hi
  have := h j (7 - i) h1 (by omega)
  have e : 7 - (7 - i) = i := by omega
  rw [e] at this
  simpa [List.getD_eq_getElem?_getD, h1, h2] using this

/-- Bit `8j + k` of a string is bit `7 - k` of byte `j`. -/
theorem getLsbD_bytesOf (s : Bits) (j k : Nat) (hj : j < s.length / 8) (hk : k < 8) :
    ((bytesOf s).getD j 0).getLsbD (7 - k) = s.getD (8 * j + k) false := by
  have hl : (slice s (8 * j) (8 * j + 8)).length = 8 := by simp; omega
  have e : 8 - 1 - (7 - k) = k := by omega
  have h8 : 7 - k < 8 := by omega
  rw [getD_bytesOf _ _ hj, BitVec.getLsbD_ofNat, testBit_val _ _ (by omega), hl, e, getD_slice _ _ _ _ (by omega)]
  simp [h8]

/-- The bytes of a string that ENT holds are the ENT bytes (41 R163). -/
theorem bytesOf_eq_entBytes (s : Bits) (d : Data) (hs : s.length ≤ 256) (h8 : s.length % 8 = 0)
    (hb : ∀ i, i < s.length → s.getD i false = d.ent.getMsbD i) : bytesOf s = d.entBytes (s.length / 8) := by
  apply bytes_ext
  · simp [Data.entBytes]
  · intro j k hj hk
    rw [length_bytesOf] at hj
    rw [getLsbD_bytesOf _ _ _ hj hk, getLsbD_entBytes _ _ _ _ hj (by omega) hk, hb _ (by omega)]

/-- The bytes CSUM and CSCHK hash: the whole entropy (41 R163). -/
theorem bytesOf_entBits (d : Data) (h : validEntBits d.entLen.toNat = true) :
    bytesOf d.entBits = d.entBytes (d.entLen.toNat / 8) := by
  have hv := (validEntBits_iff _).1 h
  have hl : d.entBits.length = d.entLen.toNat := by rw [length_entBits]; omega
  rw [← hl]
  apply bytesOf_eq_entBytes _ _ (by omega) (by omega)
  intro i hi
  exact getD_entBits d i (by omega) (by omega)

/-! ## EntropySpec registers -/

/-- The EntropySpec registers after a row is written (10 R41). -/
theorem spec_setSpec (sp : EntropySpec) (d : Data) (h : sp ∈ specRows) : (d.setSpec sp).spec = sp := by
  simp only [specRows, List.mem_cons, List.not_mem_nil, or_false] at h
  rcases h with rfl | rfl | rfl | rfl | rfl <;> rfl

/-- A row's sizes by the formulas of 40 R140 and R142. -/
theorem specRows_formulas {sp : EntropySpec} (h : sp ∈ specRows) :
    csBitsOf sp.entropyBits = sp.checksumBits ∧ entBitsOf sp.w = sp.entropyBits ∧
      (sp.w - 12) / 3 + 4 = sp.checksumBits ∧ sp.entropyBits / 8 ∈ [16, 20, 24, 28, 32] := by
  simp only [specRows, List.mem_cons, List.not_mem_nil, or_false] at h
  rcases h with rfl | rfl | rfl | rfl | rfl <;> decide

/-! ## Hex strings of bit strings -/

theorem bitAt_le (s : Bits) (i : Nat) : bitAt s i ≤ 1 := by
  unfold bitAt
  cases s.getD i false <;> simp

/-- A window's value as R183 writes it is the sum of its weighted bits. -/
theorem window_value (a b c d : Bool) :
    ((a.toNat <<< 3) ||| (b.toNat <<< 2) ||| (c.toNat <<< 1) ||| d.toNat) =
      8 * a.toNat + 4 * b.toNat + 2 * c.toNat + d.toNat := by
  cases a <;> cases b <;> cases c <;> cases d <;> rfl

/-- The HEX buffer after `bitsToHex` of a string is written to it. -/
theorem hexIs_setHex (s : Bits) (d : Data) (e : Nat) (he : s.length = e) (h256 : e ≤ 256) (h4 : e % 4 = 0)
    (bit : Nat → Bool) (hb : ∀ i, i < e → s.getD i false = bit i) : (d.setHex (bitsToHex s)).HexIs e bit := by
  have hl : (bitsToHex s).length = e / 4 := by rw [length_bitsToHex, he]
  constructor
  · rw [Data.setHex_hexLen, BitVec.toNat_ofNat, hl, Nat.mod_eq_of_lt (by omega)]
  · intro j
    rw [hexAt_setHex _ _ (by omega)]
    by_cases hj : j < e / 4
    · rw [if_pos hj, getD_bitsToHex _ _ (by omega)]
      simp only [bitAt]
      rw [window_value, hb _ (by omega), hb _ (by omega), hb _ (by omega), hb _ (by omega)]
    · rw [if_neg hj]
      have : (bitsToHex s).length ≤ j := by omega
      rw [List.getD_eq_getElem?_getD, List.getElem?_eq_none this]
      rfl

end Sys2Proof.Machine
end

