-- ==== Sys2Proof/Laws/Codec.lean ====
section
/-! SUPPORT. What the codec's shared operations leave (43_codec.md): the commit sets of the encode and decode paths
read in the terms of Safety, and each codec command's outcome once its checks are decided. Later proofs cite these
instead of unfolding a meaning. -/

namespace Sys2Proof.Machine

/-! ## Small facts -/

theorem Data.eq_of_fields {a b : Data} (h1 : a.hexLen = b.hexLen) (h2 : a.hex = b.hex) (h3 : a.ent = b.ent)
    (h4 : a.entLen = b.entLen) (h5 : a.cs = b.cs) (h6 : a.csLen = b.csLen) (h7 : a.csRx = b.csRx)
    (h8 : a.csRxLen = b.csRxLen) (h9 : a.sw = b.sw) (h10 : a.scsb = b.scsb) (h11 : a.sentb = b.sentb)
    (h12 : a.sovb = b.sovb) (h13 : a.word = b.word) (h14 : a.resultW = b.resultW) : a = b := by
  cases a
  cases b
  simp_all

theorem wordlistCheck_zero {v : Word} (h : v = 0) : wordlistCheck v = some .emptyWordlist := by simp [wordlistCheck, h]

theorem wordlistCheck_wrong {v : Word} (h0 : v ≠ 0) (h1 : v ≠ 2048) : wordlistCheck v = some .wordlistSize := by
  simp only [wordlistCheck, if_neg h0, if_pos h1]

theorem wordlistCheck_full {v : Word} (h : v = 2048) : wordlistCheck v = none := by
  subst h
  rfl

theorem validEntropyHex_false {d : Data} (h : ¬d.EntropyOk) : validEntropyHex d = false := by
  rwa [← Bool.not_eq_true, validEntropyHex_iff]

theorem length_ungroup_wordIdxs (d : Data) (w : Nat) (hw : w ≤ 24) : (ungroup (d.wordIdxs w)).length = 11 * w := by
  rw [length_ungroup, length_wordIdxs]
  omega

/-- A hex character written back is its lower-case form (42 R184, R185). -/
theorem hexChar_nib (ch : Byte) (h : isHex ch = true) : hexChar (nib ch) = lowerHex ch := by
  revert h
  revert ch
  decide

/-- The window of `hexBit` at character `j` is the character's value. -/
theorem window_hexBit (d : Data) (j : Nat) :
    8 * (d.hexBit (4 * j)).toNat + 4 * (d.hexBit (4 * j + 1)).toNat + 2 * (d.hexBit (4 * j + 2)).toNat
      + (d.hexBit (4 * j + 3)).toNat = nib (d.hexAt j) := by
  have e0 : (4 * j) / 4 = j := by omega
  have e1 : (4 * j + 1) / 4 = j := by omega
  have e2 : (4 * j + 2) / 4 = j := by omega
  have e3 : (4 * j + 3) / 4 = j := by omega
  have m0 : (4 * j) % 4 = 0 := by omega
  have m1 : (4 * j + 1) % 4 = 1 := by omega
  have m2 : (4 * j + 2) % 4 = 2 := by omega
  have m3 : (4 * j + 3) % 4 = 3 := by omega
  have hn := nib_lt (d.hexAt j)
  simp only [Data.hexBit, e0, e1, e2, e3, m0, m1, m2, m3]
  generalize nib (d.hexAt j) = n at hn ⊢
  interval_cases n <;> rfl

/-- WORD after the groups of `ent ++ bits_c(x)` are written (42 R187, R198). -/
theorem wordsAre_setWords (sp : EntropySpec) (hr : sp ∈ specRows) (x : Nat) (ent : Bits)
    (he : ent.length = sp.entropyBits) (bit : Nat → Bool)
    (hb : ∀ i, i < sp.entropyBits → ent.getD i false = bit i) (d : Data) :
    (d.setWords (group (ent ++ bitsN sp.checksumBits x) sp.w)).WordsAre sp.w sp.entropyBits bit x := by
  have hz := specRows_sizes hr
  have hl : (ent ++ bitsN sp.checksumBits x).length = 11 * sp.w := by
    rw [List.length_append, length_bitsN]
    omega
  have hg : (group (ent ++ bitsN sp.checksumBits x) sp.w).length ≤ 24 := by
    rw [length_group]
    omega
  refine ⟨fun p hp => ?_, fun i => by rw [wordAt_setWords _ _ hg], fun i hi => ?_⟩
  · rw [groupBit_setWords _ _ _ (by omega) hl p hp]
    split
    · rename_i h
      rw [List.getD_append _ _ _ _ (by omega), hb p h]
    · rename_i h
      rw [List.getD_append_right _ _ _ _ (by omega), getD_bitsN _ _ _ (by omega)]
      congr 1
      omega
  · rw [wordAt_setWords _ _ hg, List.getD_eq_getElem?_getD, List.getElem?_eq_none (by rw [length_group]; exact hi)]
    rfl

/-! ## The commit sets -/

/-- The encode path's commit set (43 R224) for entropy bytes whose bits are `bit`. -/
theorem encodeData_holds (b : List Byte) (x : Nat) (sp : EntropySpec) (hr : sp ∈ specRows)
    (hb : b.length = sp.entropyBits / 8) (hx : x < 2 ^ sp.checksumBits) (bit : Nat → Bool)
    (hbit : ∀ i, i < sp.entropyBits → (bitsOf b).getD i false = bit i) :
    (encodeData b x sp).spec = sp ∧ (encodeData b x sp).EntIs sp.entropyBits bit ∧
      (encodeData b x sp).HexIs sp.entropyBits bit ∧ (encodeData b x sp).cs.toNat = x ∧
      (encodeData b x sp).csLen.toNat = sp.checksumBits ∧ (encodeData b x sp).csRx = 0 ∧
      (encodeData b x sp).csRxLen = 0 ∧ (encodeData b x sp).WordsAre sp.w sp.entropyBits bit x ∧
      (encodeData b x sp).resultW.toNat = sp.w ∧ b = (encodeData b x sp).entBytes (sp.entropyBits / 8) := by
  have hz := specRows_sizes hr
  have hl : (bitsOf b).length = sp.entropyBits := by
    rw [length_bitsOf]
    omega
  have h2 : 2 ^ sp.checksumBits ≤ 2 ^ 8 := Nat.pow_le_pow_right (by omega) (by omega)
  have hE : (encodeData b x sp).EntIs sp.entropyBits bit := by
    have := entIs_setEnt (bitsOf b) (Data.zero.setHex (bitsToHex (bitsOf b))) (by omega) bit (by rw [hl]; exact hbit)
    rw [hl] at this
    exact this
  refine ⟨spec_setSpec sp Data.zero hr, hE, ?_, ?_, ?_, by simp [encodeData], by simp [encodeData], ?_, ?_, ?_⟩
  · exact hexIs_setHex (bitsOf b) Data.zero sp.entropyBits hl (by omega) (by omega) bit hbit
  · simp only [encodeData, Data.setWords_cs, Data.setSpec_cs, Data.setCs_cs, BitVec.toNat_ofNat]
    omega
  · simp only [encodeData, Data.setWords_csLen, Data.setSpec_csLen, Data.setCs_csLen, BitVec.toNat_ofNat]
    omega
  · exact wordsAre_setWords sp hr x (bitsOf b) hl bit hbit _
  · simp only [encodeData, Data.setWords_resultW, length_group, BitVec.toNat_ofNat]
    omega
  · apply bytes_ext
    · simp [Data.entBytes, hb]
    · intro j k hj hk
      have : 8 * j + k < sp.entropyBits := by omega
      rw [getLsbD_entBytes _ _ _ _ (by omega) (by omega) hk, hE.2, ← hbit _ this, getD_bitsOf _ _ _ hj hk,
        BitVec.testBit_toNat]
      simp [this]

/-- DECODE's commit set (43 R240 step 7) for entropy bits `bit` and the word registers of `d0`. -/
theorem decodeData_holds (eb cb : Bits) (x c : Nat) (sp : EntropySpec) (hr : sp ∈ specRows) (d0 : Data)
    (he : eb.length = sp.entropyBits) (hcb : cb.length = sp.checksumBits) (hx : x < 2 ^ 8) (hc : c ≤ 8)
    (bit : Nat → Bool) (hbit : ∀ i, i < sp.entropyBits → eb.getD i false = bit i) :
    (decodeData eb cb x c (d0.wordIdxs sp.w) sp).spec = sp ∧
      (decodeData eb cb x c (d0.wordIdxs sp.w) sp).EntIs sp.entropyBits bit ∧
      (decodeData eb cb x c (d0.wordIdxs sp.w) sp).HexIs sp.entropyBits bit ∧
      (decodeData eb cb x c (d0.wordIdxs sp.w) sp).csRx.toNat = val cb ∧
      (decodeData eb cb x c (d0.wordIdxs sp.w) sp).csRxLen.toNat = sp.checksumBits ∧
      (decodeData eb cb x c (d0.wordIdxs sp.w) sp).cs.toNat = x ∧
      (decodeData eb cb x c (d0.wordIdxs sp.w) sp).csLen.toNat = c ∧
      (∀ i, (decodeData eb cb x c (d0.wordIdxs sp.w) sp).wordAt i =
        if i < sp.w then ⟨(d0.wordAt i).idx, false⟩ else ⟨0, false⟩) ∧
      (decodeData eb cb x c (d0.wordIdxs sp.w) sp).resultW.toNat = sp.w := by
  have hz := specRows_sizes hr
  have hv : val cb < 2 ^ 8 :=
    lt_of_lt_of_le (val_lt cb) (Nat.pow_le_pow_right (by omega) (by omega))
  have hw : (d0.wordIdxs sp.w).length = sp.w := by
    rw [length_wordIdxs]
    omega
  refine ⟨spec_setSpec sp Data.zero hr, ?_, ?_, ?_, ?_, ?_, ?_, fun i => ?_, ?_⟩
  · have := entIs_setEnt eb (Data.zero.setHex (bitsToHex eb)) (by omega) bit (by rw [he]; exact hbit)
    rw [he] at this
    exact this
  · exact hexIs_setHex eb Data.zero sp.entropyBits he (by omega) (by omega) bit hbit
  · simp only [decodeData, Data.setWords_csRx, Data.setSpec_csRx, Data.setCsRx_csRx, BitVec.toNat_ofNat]
    omega
  · simp only [decodeData, Data.setWords_csRxLen, Data.setSpec_csRxLen, Data.setCsRx_csRxLen, BitVec.toNat_ofNat]
    omega
  · simp only [decodeData, Data.setWords_cs, Data.setSpec_cs, Data.setCsRx_cs, Data.setCs_cs, BitVec.toNat_ofNat]
    omega
  · simp only [decodeData, Data.setWords_csLen, Data.setSpec_csLen, Data.setCsRx_csLen, Data.setCs_csLen,
      BitVec.toNat_ofNat]
    omega
  · rw [decodeData, wordAt_setWords _ _ (by omega)]
    split
    · rename_i h
      rw [getD_wordIdxs_wordAt d0 sp.w i h (by omega), BitVec.ofNat_toNat, BitVec.setWidth_eq]
    · rename_i h
      rw [List.getD_eq_getElem?_getD, List.getElem?_eq_none (by omega)]
      rfl
  · simp only [decodeData, Data.setWords_resultW, hw, BitVec.toNat_ofNat]
    omega

/-! ## The commands, their checks decided -/

/-- The row of valid entropy, and ENCODE's execution step on it up to `wordlistCheck` (43 R230). -/
theorem execEncode_ok {s : State} (h : s.d.EntropyOk) : ∃ sp, sp ∈ specRows ∧
    specFromEntBits (4 * s.d.hexLen.toNat) = some sp ∧ sp.entropyBits = 4 * s.d.hexLen.toNat ∧
    (∀ c, wordlistCheck s.wlSize = some c → execEncode s = .next (raise c s)) ∧
    (wordlistCheck s.wlSize = none → execEncode s = .next (encodeCore (bytesOf (hexToBits s.d.hexChars)) sp s)) := by
  obtain ⟨sp, hr, hsp, he⟩ := validHexLen_row (l := s.d.hexLen.toNat) (by simpa [validHexLen] using h.1)
  refine ⟨sp, hr, hsp, he, fun c hc => ?_, fun hc => ?_⟩ <;>
    simp only [execEncode, (validEntropyHex_iff s.d).2 h, hsp, hc, if_true]

/-- The entropy bytes of ENCODE: their number and their bits (42 R182). -/
theorem encode_bytes {s : State} (h : s.d.EntropyOk) :
    (bytesOf (hexToBits s.d.hexChars)).length = 4 * s.d.hexLen.toNat / 8 ∧
      ∀ i, i < 4 * s.d.hexLen.toNat → (bitsOf (bytesOf (hexToBits s.d.hexChars))).getD i false = s.d.hexBit i := by
  have h1 := h.1
  have hL : s.d.hexLen.toNat ≤ 64 := by omega
  have hlen : (hexToBits s.d.hexChars).length = 4 * s.d.hexLen.toNat := by
    rw [length_hexToBits, length_hexChars]
    omega
  refine ⟨by rw [length_bytesOf, hlen], fun i hi => ?_⟩
  rw [bitsOf_bytesOf _ (by omega)]
  exact getD_hexToBits_hexBit _ hL i hi

/-- The two parts DECODE splits the words into (42 R188): their lengths and their bits. -/
theorem decode_parts (d : Data) (sp : EntropySpec) (hr : sp ∈ specRows) :
    (split (ungroup (d.wordIdxs sp.w)) sp.entropyBits).1.length = sp.entropyBits ∧
      (split (ungroup (d.wordIdxs sp.w)) sp.entropyBits).2.length = sp.checksumBits ∧
      (∀ i, i < sp.entropyBits →
        (split (ungroup (d.wordIdxs sp.w)) sp.entropyBits).1.getD i false = d.groupBit i) ∧
      ∀ k, (val (split (ungroup (d.wordIdxs sp.w)) sp.entropyBits).2).testBit k =
        (decide (k < sp.checksumBits) && d.groupBit (11 * sp.w - 1 - k)) := by
  have hz := specRows_sizes hr
  have hl := length_ungroup_wordIdxs d sp.w (by omega)
  rw [split_fst, split_snd]
  have h2 : ((ungroup (d.wordIdxs sp.w)).drop sp.entropyBits).length = sp.checksumBits := by
    rw [List.length_drop, hl]
    omega
  refine ⟨by rw [List.length_take, hl]; omega, h2, fun i hi => ?_, fun k => ?_⟩
  · rw [← getD_ungroup_groupBit d sp.w (by omega) i (by omega)]
    simp [List.getD_eq_getElem?_getD, hi]
  · by_cases hk : k < sp.checksumBits
    · rw [testBit_val _ _ (by omega), h2, ← getD_ungroup_groupBit d sp.w (by omega) _ (by omega)]
      have e : sp.entropyBits + (sp.checksumBits - 1 - k) = 11 * sp.w - 1 - k := by omega
      simp [hk, List.getD_eq_getElem?_getD, e]
    · have : (val ((ungroup (d.wordIdxs sp.w)).drop sp.entropyBits)).testBit k = false := by
        apply Nat.testBit_lt_two_pow
        exact lt_of_lt_of_le (val_lt _) (Nat.pow_le_pow_right (by omega) (by omega))
      simp [hk, this]

/-- DECODE once its operands, the Wordlist and the NF flags pass (43 R240 steps 3 to 7): verified, a mismatch or the
commit; unverified, the commit with no checksum reported. -/
theorem execDecode_ok {s : State} {w : Nat} {sp : EntropySpec} (hsp : specFromW w = some sp) (hwl : s.wlSize = 2048)
    (hnf : ∀ i, i < w → (s.d.wordAt i).nf = false) :
    (checksum (bytesOf (split (ungroup (s.d.wordIdxs w)) sp.entropyBits).1) sp.checksumBits ≠
        val (split (ungroup (s.d.wordIdxs w)) sp.entropyBits).2 →
      execDecode w true s = .next (raise .checksumMismatch s)) ∧
    (checksum (bytesOf (split (ungroup (s.d.wordIdxs w)) sp.entropyBits).1) sp.checksumBits =
        val (split (ungroup (s.d.wordIdxs w)) sp.entropyBits).2 →
      execDecode w true s = .next (complete .ok (decodeData (split (ungroup (s.d.wordIdxs w)) sp.entropyBits).1
        (split (ungroup (s.d.wordIdxs w)) sp.entropyBits).2
        (checksum (bytesOf (split (ungroup (s.d.wordIdxs w)) sp.entropyBits).1) sp.checksumBits) sp.checksumBits
        (s.d.wordIdxs w) sp) s)) ∧
    execDecode w false s = .next (complete .ok (decodeData (split (ungroup (s.d.wordIdxs w)) sp.entropyBits).1
      (split (ungroup (s.d.wordIdxs w)) sp.entropyBits).2 0 0 (s.d.wordIdxs w) sp) s) := by
  obtain ⟨hr, rfl⟩ := specFromW_some hsp
  have hz := specRows_sizes hr
  have h : s.d.anyNotFound sp.w = false := by
    rw [← Bool.not_eq_true, anyNotFound_iff _ _ (by omega)]
    rintro ⟨i, hi, hn⟩
    rw [hnf i hi] at hn
    cases hn
  refine ⟨fun hc => ?_, fun hc => ?_, ?_⟩
  · simp only [execDecode, hsp, wordlistCheck_full hwl, h, Bool.false_eq_true, if_false, if_true]
    exact if_pos hc
  · simp only [execDecode, hsp, wordlistCheck_full hwl, h, Bool.false_eq_true, if_false, if_true]
    exact if_neg (not_not.2 hc)
  · simp only [execDecode, hsp, wordlistCheck_full hwl, h, Bool.false_eq_true, if_false]

end Sys2Proof.Machine
end

