-- ==== Sys2Proof/Laws/Invariant.lean ====
section
/-! SUPPORT. The register invariant of Safety under each named update of the data registers: one lemma per update,
with what its arguments must meet. -/

namespace Sys2Proof.Machine

theorem inv_zero : Data.zero.Inv where
  entLen_le := by decide
  entLen_mod := by decide
  ent_tail := fun i _ => by simp [Data.zero]
  csLen_le := by decide
  cs_lt := by decide
  csRxLen_le := by decide
  csRx_lt := by decide
  spec_row := .inl rfl
  resultW_valid := .inl rfl

theorem inv_setHex (h : List Byte) {d : Data} (hd : d.Inv) : (d.setHex h).Inv :=
  ⟨hd.entLen_le, hd.entLen_mod, hd.ent_tail, hd.csLen_le, hd.cs_lt, hd.csRxLen_le, hd.csRx_lt, hd.spec_row,
    hd.resultW_valid⟩

theorem inv_setEnt (t : Bits) {d : Data} (hd : d.Inv) (ht : t.length ≤ 256) (h4 : t.length % 4 = 0) :
    (d.setEnt t).Inv := by
  obtain ⟨h1, h2⟩ := entIs_setEnt t d ht (fun i => t.getD i false) (fun _ _ => rfl)
  exact ⟨by omega, by omega, fun i hi => by rw [h2 i]; simp; omega, hd.csLen_le, hd.cs_lt, hd.csRxLen_le, hd.csRx_lt,
    hd.spec_row, hd.resultW_valid⟩

theorem inv_setCs (x c : Nat) {d : Data} (hd : d.Inv) (hc : c ≤ 8) (hx : x < 2 ^ c) : (d.setCs x c).Inv := by
  have h1 : (d.setCs x c).csLen.toNat = c := by
    rw [Data.setCs_csLen, BitVec.toNat_ofNat]
    omega
  have h2 : (d.setCs x c).cs.toNat = x := by
    have : 2 ^ c ≤ 2 ^ 8 := Nat.pow_le_pow_right (by omega) hc
    rw [Data.setCs_cs, BitVec.toNat_ofNat]
    omega
  exact ⟨hd.entLen_le, hd.entLen_mod, hd.ent_tail, by rw [h1]; exact hc, by rw [h1, h2]; exact hx, hd.csRxLen_le,
    hd.csRx_lt, hd.spec_row, hd.resultW_valid⟩

theorem inv_setCsRx (x c : Nat) {d : Data} (hd : d.Inv) (hc : c ≤ 8) (hx : x < 2 ^ c) : (d.setCsRx x c).Inv := by
  have h1 : (d.setCsRx x c).csRxLen.toNat = c := by
    rw [Data.setCsRx_csRxLen, BitVec.toNat_ofNat]
    omega
  have h2 : (d.setCsRx x c).csRx.toNat = x := by
    have : 2 ^ c ≤ 2 ^ 8 := Nat.pow_le_pow_right (by omega) hc
    rw [Data.setCsRx_csRx, BitVec.toNat_ofNat]
    omega
  exact ⟨hd.entLen_le, hd.entLen_mod, hd.ent_tail, hd.csLen_le, hd.cs_lt, by rw [h1]; exact hc,
    by rw [h1, h2]; exact hx, hd.spec_row, hd.resultW_valid⟩

theorem inv_setSpec (sp : EntropySpec) {d : Data} (hd : d.Inv) (hr : sp ∈ specRows) : (d.setSpec sp).Inv :=
  ⟨hd.entLen_le, hd.entLen_mod, hd.ent_tail, hd.csLen_le, hd.cs_lt, hd.csRxLen_le, hd.csRx_lt,
    .inr (by rw [spec_setSpec sp d hr]; exact hr), hd.resultW_valid⟩

theorem inv_setWords (g : List Nat) {d : Data} (hd : d.Inv) (hg : validW g.length = true) : (d.setWords g).Inv := by
  have h1 : (d.setWords g).resultW.toNat = g.length := by
    have := (validW_iff _).1 hg
    rw [Data.setWords_resultW, BitVec.toNat_ofNat]
    omega
  exact ⟨hd.entLen_le, hd.entLen_mod, hd.ent_tail, hd.csLen_le, hd.cs_lt, hd.csRxLen_le, hd.csRx_lt, hd.spec_row,
    .inr (by rw [h1]; exact hg)⟩

end Sys2Proof.Machine
end

