-- ==== Sys2Proof/Laws/PerInstr.lean ====
section
/-! SUPPORT. A fact of every instruction as syntax, one lemma per constructor: where its operands stand in its
command word, and that the word's reserved fields are 0 (10_state.md R33, 30_encoding.md R110, R115). -/

namespace Sys2Proof.Laws.EncodedFields

/-- Bit `i` of a command word, field by field. -/
theorem commandWord_bit (w : Nat) (b : Bool) (o i : Nat) : (commandWord w b o).getLsbD i =
    if i < 5 then o.testBit i else if i < 8 then false else if i < 9 then b else if i < 16 then false
      else if i < 24 then w.testBit (i - 16) else false := by
  have key : (commandWord w b o).getLsbD i = (0#8 ++ BitVec.ofNat 8 w ++ 0#7 ++ BitVec.ofBool b ++ 0#3
      ++ BitVec.ofNat 5 o : BitVec (8 + 8 + 7 + 1 + 3 + 5)).getLsbD i := rfl
  rw [key]
  simp only [BitVec.getLsbD_append, BitVec.getLsbD_ofNat, BitVec.getLsbD_ofBool]
  by_cases h5 : i < 5
  · simp [h5]
  by_cases h8 : i < 8
  · have : i - 5 < 3 := by omega
    simp [h5, h8, this]
  by_cases h9 : i < 9
  · have : i = 8 := by omega
    subst this
    simp
  by_cases h16 : i < 16
  · have a : ¬i - 5 < 3 := by omega
    have c : ¬i - 5 - 3 < 1 := by omega
    have d : i - 5 - 3 - 1 < 7 := by omega
    simp [h5, h8, h9, h16, a, c, d]
  have a : ¬i - 5 < 3 := by omega
  have c : ¬i - 5 - 3 < 1 := by omega
  have d : ¬i - 5 - 3 - 1 < 7 := by omega
  have e : i - 5 - 3 - 1 - 7 = i - 16 := by omega
  by_cases h24 : i < 24
  · have f : i - 16 < 8 := by omega
    simp [h5, h8, h9, h16, h24, a, c, d, e, f]
  · have f : ¬i - 16 < 8 := by omega
    simp [h5, h8, h9, h16, h24, a, c, d, e, f]

/-- The fields of a command word, as `commandWord` lays them out. -/
theorem commandWord_fields (w : Nat) (b : Bool) (o : Nat) :
    fieldRsvHigh (commandWord w b o) = 0 ∧ fieldW (commandWord w b o) = w % 256 ∧
      fieldRsvMid (commandWord w b o) = 0 ∧ fieldVfy (commandWord w b o) = b ∧
      fieldRsvLow (commandWord w b o) = 0 ∧ (fieldOpc (commandWord w b o)).toNat = o % 32 := by
  have hW : (commandWord w b o).extractLsb' 16 8 = BitVec.ofNat 8 w := by
    apply BitVec.eq_of_getLsbD_eq
    intro i hi
    have h1 : ¬16 + i < 5 := by omega
    have h2 : ¬16 + i < 8 := by omega
    have h3 : ¬16 + i < 9 := by omega
    have h4 : 16 + i < 24 := by omega
    simp [BitVec.getLsbD_extractLsb', commandWord_bit, BitVec.getLsbD_ofNat, h1, h2, h3, h4]
  have hO : (commandWord w b o).extractLsb' 0 5 = BitVec.ofNat 5 o := by
    apply BitVec.eq_of_getLsbD_eq
    intro i hi
    simp only [BitVec.getLsbD_extractLsb', commandWord_bit, BitVec.getLsbD_ofNat, hi, Nat.zero_add, if_true]
  refine ⟨?_, by rw [fieldW, hW, BitVec.toNat_ofNat], ?_, ?_, ?_, by rw [fieldOpc, hO, BitVec.toNat_ofNat]⟩
  · apply BitVec.eq_of_getLsbD_eq
    intro i hi
    simp only [fieldRsvHigh, BitVec.getLsbD_extractLsb', commandWord_bit]
    rw [if_neg (by omega), if_neg (by omega), if_neg (by omega), if_neg (by omega), if_neg (by omega), Bool.and_false]
    exact BitVec.getLsbD_zero.symm
  · apply BitVec.eq_of_getLsbD_eq
    intro i hi
    simp only [fieldRsvMid, BitVec.getLsbD_extractLsb', commandWord_bit]
    rw [if_neg (by omega), if_neg (by omega), if_neg (by omega), if_pos (by omega), Bool.and_false]
    exact BitVec.getLsbD_zero.symm
  · exact commandWord_bit w b o 8
  · apply BitVec.eq_of_getLsbD_eq
    intro i hi
    simp only [fieldRsvLow, BitVec.getLsbD_extractLsb', commandWord_bit]
    rw [if_neg (by omega), if_pos (by omega), Bool.and_false]
    exact BitVec.getLsbD_zero.symm

/-- The opcode of R113, the W operand and the VFY operand of a command; 0 where it takes none. -/
def operands : Instr → Nat × Nat × Bool
  | .specw w => (0x01, w, false)
  | .spece => (0x02, 0, false)
  | .hex2bits => (0x03, 0, false)
  | .bits2hex => (0x04, 0, false)
  | .csum => (0x05, 0, false)
  | .pack => (0x06, 0, false)
  | .unpack w => (0x07, w, false)
  | .cschk => (0x08, 0, false)
  | .encode => (0x09, 0, false)
  | .generate w => (0x0A, w, false)
  | .decode w vfy => (0x0B, w, vfy)

/-- The word of a well-formed command has its opcode and its operands in their fields, and 0 in the reserved
fields. -/
def Statement (i : Instr) : Prop :=
  i.wf = true → (fieldOpc (encode i)).toNat = (operands i).1 ∧ fieldW (encode i) = (operands i).2.1 ∧
    fieldVfy (encode i) = (operands i).2.2 ∧ fieldRsvHigh (encode i) = 0 ∧ fieldRsvMid (encode i) = 0 ∧
    fieldRsvLow (encode i) = 0

/-- The statement for a word that `commandWord` lays out. -/
theorem of_commandWord {i : Instr} {w o : Nat} {b : Bool} (he : encode i = commandWord w b o)
    (hop : operands i = (o, w, b)) (ho : o < 32) (hw : i.wf = true → w ≤ 255) : Statement i := by
  intro h
  obtain ⟨h1, h2, h3, h4, h5, h6⟩ := commandWord_fields w b o
  have := hw h
  rw [he, hop]
  exact ⟨h6.trans (Nat.mod_eq_of_lt ho), h2.trans (Nat.mod_eq_of_lt (by omega)), h4, h1, h3, h5⟩

theorem specw (w : Nat) : Statement (.specw w) := of_commandWord rfl rfl (by omega) (by simp [Instr.wf])
theorem spece : Statement .spece := of_commandWord rfl rfl (by omega) (by simp)
theorem hex2bits : Statement .hex2bits := of_commandWord rfl rfl (by omega) (by simp)
theorem bits2hex : Statement .bits2hex := of_commandWord rfl rfl (by omega) (by simp)
theorem csum : Statement .csum := of_commandWord rfl rfl (by omega) (by simp)
theorem pack : Statement .pack := of_commandWord rfl rfl (by omega) (by simp)
theorem unpack (w : Nat) : Statement (.unpack w) := of_commandWord rfl rfl (by omega) (by simp [Instr.wf])
theorem cschk : Statement .cschk := of_commandWord rfl rfl (by omega) (by simp)
theorem encode : Statement .encode := of_commandWord rfl rfl (by omega) (by simp)
theorem generate (w : Nat) : Statement (.generate w) := of_commandWord rfl rfl (by omega) (by simp [Instr.wf])
theorem decode (w : Nat) (vfy : Bool) : Statement (.decode w vfy) :=
  of_commandWord rfl rfl (by omega) (by simp [Instr.wf])

end Sys2Proof.Laws.EncodedFields
end

