-- ==== Sys2Proof/Tests/Slice0.lean ====
section
/-! SUPPORT. Tests: an ill-formed term for each check of WellFormed, words written bit by bit from 30_encoding.md,
one or two steps per command on the vectors of 95_test_vectors.md (the digest byte of a vector given, since the hash
is a parameter), and for every statement with hypotheses a state and operands that meet them. -/

namespace Sys2Proof.Tests

open Sys2Proof.Machine

/-! ## WellFormed refuses (30 R111, R117: W is 0 to 255) -/

theorem test_wf_specw_w_256 : (Instr.specw 256).wf = false := by decide
theorem test_wf_unpack_w_256 : (Instr.unpack 256).wf = false := by decide
theorem test_wf_generate_w_256 : (Instr.generate 256).wf = false := by decide
theorem test_wf_decode_w_256 : (Instr.decode 256 true).wf = false := by decide
theorem test_wf_accepts_255 : (Instr.specw 255).wf = true ∧ (Instr.decode 255 false).wf = true := by decide

/-! ## Decoding words written from the patterns of 30 R113 -/

theorem test_decode_specw : decode 0b00000000111111110000000000000001#32 = .ok (.specw 255) := by decide
theorem test_decode_spece : decode 0b00000000000000000000000000000010#32 = .ok .spece := by decide
theorem test_decode_hex2bits : decode 0b00000000000000000000000000000011#32 = .ok .hex2bits := by decide
theorem test_decode_bits2hex : decode 0b00000000000000000000000000000100#32 = .ok .bits2hex := by decide
theorem test_decode_csum : decode 0b00000000000000000000000000000101#32 = .ok .csum := by decide
theorem test_decode_pack : decode 0b00000000000000000000000000000110#32 = .ok .pack := by decide
theorem test_decode_unpack : decode 0b00000000000110000000000000000111#32 = .ok (.unpack 24) := by decide
theorem test_decode_cschk : decode 0b00000000000000000000000000001000#32 = .ok .cschk := by decide
theorem test_decode_encode : decode 0b00000000000000000000000000001001#32 = .ok .encode := by decide
theorem test_decode_generate : decode 0b00000000000011110000000000001010#32 = .ok (.generate 15) := by decide
theorem test_decode_decode_verify : decode 0b00000000000101010000000100001011#32 = .ok (.decode 21 true) := by decide
theorem test_decode_decode_plain : decode 0b00000000000011000000000000001011#32 = .ok (.decode 12 false) := by decide

/-- The illegal words of 95_test_vectors.md and 30 R115, each with the reason the decoder names. -/
theorem test_decode_illegal :
    decode 0x00000000#32 = .error .reservedOpcode ∧ decode 0x0000000C#32 = .error .reservedOpcode ∧
    decode 0x0000001F#32 = .error .reservedOpcode ∧ decode 0x80000009#32 = .error .reservedField ∧
    decode 0x00000029#32 = .error .reservedField ∧ decode 0x00000209#32 = .error .reservedField ∧
    decode 0x00000109#32 = .error .unusedOperand ∧ decode 0x000C0009#32 = .error .unusedOperand ∧
    decode 0x000C0107#32 = .error .unusedOperand ∧ decode 0x000C010A#32 = .error .unusedOperand := by decide

theorem test_table_word : decodeTableWord 32 0x000C010B = some (.decode 12 true) := by decide

/-! ## Small states -/

/-- The next state of an outcome; reset where there is none. -/
def outcome : Result → State
  | .next t => t
  | .fault _ => State.reset
  | .refused _ => State.reset

/-- The state after a command. -/
def after (i : Instr) (s : State) : State := outcome (exec i s)

theorem exec_after (i : Instr) (s : State) : exec i s = .next (after i s) := by
  obtain ⟨t, ht, -⟩ := exec_ends i s
  rw [after, ht]
  rfl

/-- Reset with the string `h` in HEX, and WL_SIZE at `n`. -/
def hexState (n : Word) (h : List Byte) : State :=
  { State.reset with wlSize := n, d := { Data.zero with hex := hexBuffer h, hexLen := BitVec.ofNat 8 h.length } }

/-- Reset with the indices `g` in WORD, and WL_SIZE at `n`. -/
def wordState (n : Word) (g : List Nat) : State :=
  { State.reset with wlSize := n, d := { Data.zero with word := wordArray g } }

/-- Reset with `t` in ENT and a checksum of `c` bits, `x`, in CS. -/
def entState (t : Bits) (x c : Nat) : State := { State.reset with d := (Data.zero.setEnt t).setCs x c }

/-- The row of 12 words. -/
def row12 : EntropySpec := ⟨12, 132, 4, 128⟩

/-- SPECW 15 accepted, its execution step not taken. -/
def busyState : State := accept 0x000F0001#32 State.reset

/-- A GENERATE of 12 words waiting, with the answers `as`. -/
def waitState (as : List RngAnswer) : State :=
  { State.reset with lastCmd := 0x000C000A#32, status := Status.accepted, wlSize := 2048, fsm := .rngWait ⟨row12, 16⟩,
                     env := { Env.empty with answers := as } }

/-! ## Commands, on the vectors of 95_test_vectors.md -/

/-- V-P1. -/
theorem test_specw_15 : readReg (after (.specw 15) State.reset) .status = 0x00000002#32 ∧
    readReg (after (.specw 15) State.reset) .spec = 0x0000050F#32 ∧
    readReg (after (.specw 15) State.reset) .specBits = 0x00A500A0#32 := by decide
/-- V-P2. -/
theorem test_specw_27 : readReg (after (.specw 27) State.reset) .status = 0x00000206#32 := by decide

/-- V-P3. -/
theorem test_spece_64 : readReg (after .spece (hexState 0 (List.replicate 64 0x30))) .spec = 0x00000818#32 ∧
    readReg (after .spece (hexState 0 (List.replicate 64 0x30))) .specBits = 0x01080100#32 := by decide +kernel
/-- V-P6: 31 '0' then 'g'. -/
theorem test_spece_g : readReg (after .spece (hexState 0 (List.replicate 31 0x30 ++ [0x67]))) .status =
    0x00000306#32 := by decide +kernel

/-- V-P7: "abc". -/
theorem test_hex2bits_abc : readReg (after .hex2bits (hexState 0 [0x61, 0x62, 0x63])) .entLen = 0x0000000C#32 ∧
    readReg (after .hex2bits (hexState 0 [0x61, 0x62, 0x63])) (.entData 0) = 0xABC00000#32 := by decide +kernel
/-- V-P11: HEX_LEN = 65. -/
theorem test_hex2bits_65 : readReg (after .hex2bits (hexState 0 (List.replicate 65 0x30))) .status = 0x00000306#32 := by decide +kernel

/-- V-P9: ENT holds 0xABC, 12 bits. -/
theorem test_bits2hex_abc : readReg (after .bits2hex (entState (bitsN 12 0xABC) 0 0)) .hexLen = 0x00000003#32 ∧
    readReg (after .bits2hex (entState (bitsN 12 0xABC) 0 0)) (.hexData 0) = 0x61626300#32 := by decide +kernel
/-- V-P13: after reset. -/
theorem test_bits2hex_reset : readReg (after .bits2hex State.reset) .status = 0x00000002#32 := by decide

/-- V-C1 with its digest byte 0x37, and V-E8, V-E11, V-E16 with theirs. -/
theorem test_top_bits : topBits 0x37#8 4 = 0x3 ∧ topBits 0x9A#8 5 = 0x13 ∧ topBits 0x3A#8 7 = 0x1D ∧
    topBits 0xBD#8 8 = 0xBD := by decide
/-- V-C2. -/
theorem test_csum_reset : readReg (after .csum State.reset) .status = 0x00000306#32 := by decide

/-- V-C3: the all-zero entropy with its checksum 3. -/
theorem test_pack_zero : readReg (after .pack (entState (List.replicate 128 false) 3 4)) (.word 11) = 0x00000003#32 ∧
    readReg (after .pack (entState (List.replicate 128 false) 3 4)) .resultW = 0x0000000C#32 := by decide +kernel
/-- V-C5: ENT_LEN 160 with CS_LEN 4. -/
theorem test_pack_operand_error : readReg (after .pack (entState (List.replicate 160 false) 3 4)) .status =
    0x00000906#32 := by decide +kernel

/-- V-C7. -/
theorem test_unpack_ones :
    readReg (after (.unpack 12) (wordState 0 (List.replicate 11 2047 ++ [2037]))) .csum = 0x04050000#32 ∧
    readReg (after (.unpack 12) (wordState 0 (List.replicate 11 2047 ++ [2037]))) (.entData 3) = 0xFFFFFFFF#32 := by decide +kernel
/-- V-S5: `unpack 25`. -/
theorem test_unpack_25 : readReg (after (.unpack 25) State.reset) .status = 0x00000206#32 := by decide

/-- V-C6: CS_RX_LEN is 0. -/
theorem test_cschk_operand_error : readReg (after .cschk (entState (List.replicate 128 false) 0 0)) .status =
    0x00000906#32 := by decide +kernel
/-- InvalidEntropy before OperandError. -/
theorem test_cschk_reset : readReg (after .cschk State.reset) .status = 0x00000306#32 := by decide

/-- V-E4: entropy 80×16, checksum 4. -/
theorem test_encode_80 : [0, 1, 2, 10, 11].map (fun i => ((encodeData (List.replicate 16 0x80#8) 4 row12).wordAt i).idx)
    = [1028, 32, 257, 257, 4] := by decide +kernel
/-- V-D10: InvalidEntropy before EmptyWordlist. -/
theorem test_encode_priority : readReg (after .encode (hexState 0 (List.replicate 30 0x30))) .status =
    0x00000306#32 := by decide +kernel

/-- V-G1, the request: 20 bytes, still BUSY. -/
theorem test_generate_request : (after (.generate 15) (wordState 2048 [])).env.requests = [20] ∧
    (after (.generate 15) { busyState with wlSize := 2048 }).status.toWord = 0x00000001#32 := by decide
/-- V-G3: no request. -/
theorem test_generate_11 : (after (.generate 11) (wordState 2048 [])).env.requests = [] ∧
    readReg (after (.generate 11) (wordState 2048 [])) .status = 0x00000206#32 := by decide

/-- V-D3. -/
theorem test_decode_unverified :
    readReg (after (.decode 12 false) (wordState 2048 (List.replicate 11 0 ++ [19]))) .csum = 0x04030000#32 ∧
    readReg (after (.decode 12 false) (wordState 2048 (List.replicate 11 0 ++ [19]))) (.entData 3) = 0x00000001#32 ∧
    readReg (after (.decode 12 false) (wordState 2048 (List.replicate 11 0 ++ [19]))) (.hexData 7) = 0x30303031#32 := by decide +kernel
/-- V-D6: WORD[3] has NF. -/
theorem test_decode_not_found : readReg (after (.decode 12 true)
    { wordState 2048 [] with d := { Data.zero with word := Data.zero.word.set 3 ⟨0, true⟩ } }) .status =
    0x00000102#32 := by decide

/-- 43 R220: `step` runs the placed word as the first command after reset. -/
theorem test_step_placed : (State.reset.withFetchWord 32 0x000F0001).lastCmd = 0x000F0001#32 ∧
    readReg (outcome (step (State.reset.withFetchWord 32 0x000F0001))) .spec = 0x0000050F#32 := by decide +kernel

/-- V-C11 and 20 R74: reserved bits of WORD are not stored. -/
theorem test_word_write : readReg (outcome (memWrite 0x0A0 4 0xFFFFFFFF#32 State.reset)) (.word 0) = 0x000087FF#32 := by
  decide +kernel

/-! ## Witnesses: a state and operands that meet the hypotheses of each statement

`obtain`-style facts are given as one conjunction per statement, one conjunct per hypothesis or clause, at the
boundary values of its range. -/

theorem test_witness_DecodeOfEncode : (Instr.decode 255 true).wf = true ∧ (Instr.specw 0).wf = true := by decide

theorem test_witness_EncodeOfDecode : decode 0x00FF010B#32 = .ok (.decode 255 true) := by decide

/-- One word for each of the eleven patterns, an operand at 255 where the row has one, and a word of no row. -/
theorem test_witness_DecodeFollowsPatterns :
    0x00FF0001#32 &&& 0xFF00FFFF#32 = 0x00000001#32 ∧ 0x00000002#32 &&& 0xFFFFFFFF#32 = 0x00000002#32 ∧
    0x00000003#32 &&& 0xFFFFFFFF#32 = 0x00000003#32 ∧ 0x00000004#32 &&& 0xFFFFFFFF#32 = 0x00000004#32 ∧
    0x00000005#32 &&& 0xFFFFFFFF#32 = 0x00000005#32 ∧ 0x00000006#32 &&& 0xFFFFFFFF#32 = 0x00000006#32 ∧
    0x00FF0007#32 &&& 0xFF00FFFF#32 = 0x00000007#32 ∧ 0x00000008#32 &&& 0xFFFFFFFF#32 = 0x00000008#32 ∧
    0x00000009#32 &&& 0xFFFFFFFF#32 = 0x00000009#32 ∧ 0x00FF000A#32 &&& 0xFF00FFFF#32 = 0x0000000A#32 ∧
    0x00FF010B#32 &&& 0xFF00FEFF#32 = 0x0000000B#32 ∧ ∀ r ∈ opcodeTable, r.selects 0x0000000C#32 = false := by decide

theorem test_witness_AssemblerWords : 255 ≤ 255 ∧ 255 < 256 := by decide

theorem test_witness_CommandAcceptance : State.reset.status.busy = false ∧ busyState.status.busy = true := by decide

theorem test_witness_IllegalWordCompletes : State.reset.status.busy = false ∧
    (∀ r ∈ opcodeTable, r.selects 0x0000000C#32 = false) ∧
    255 ≤ 255 ∧ validW 255 = false ∧ (accept 0x00FF0001#32 State.reset).fsm = .exec ∧
    (accept 0x00FF0001#32 State.reset).lastCmd = 0x00000001#32 ||| BitVec.ofNat 32 255 <<< 16 ∧
    (accept 0x00FF010B#32 State.reset).lastCmd = 0x0000010B#32 ||| BitVec.ofNat 32 255 <<< 16 := by
  decide

theorem test_witness_StepRunsDecodedCommand : busyState.fsm = .exec ∧ busyState.nextTurn = .block ∧
    decode busyState.lastCmd = .ok (.specw 15) := by decide

/-- A state in EXEC and one in RNG_WAIT meet the register invariant, and each takes a step. -/
theorem test_witness_RegisterInvariantKept : busyState.Inv ∧ (waitState []).Inv ∧ (∃ t, step busyState = .next t) ∧
    ∃ t, step (waitState [.fail]) = .next t := by
  refine ⟨⟨inv_zero, ?_⟩, ⟨inv_zero, ?_⟩, ⟨_, rfl⟩, ⟨_, rfl⟩⟩
  · exact ⟨by decide, by decide, by decide, by decide, by decide, by decide, by decide, fun _ h => Fsm.noConfusion h⟩
  · refine ⟨by decide, by decide, by decide, by decide, by decide, by decide, by decide, fun g h => ?_⟩
    cases h
    decide

/-- The premises are those of `RegisterInvariantKept`. -/
theorem test_witness_SequencerTransitions : busyState.Inv ∧ ∃ t, step busyState = .next t :=
  ⟨test_witness_RegisterInvariantKept.1, _, rfl⟩

/-- Clause 2 with the host's, the block's and an answerless source's turn. -/
theorem test_witness_ExecutionStepEnabled : busyState.fsm = .exec ∧ (waitState []).Inv ∧
    (waitState []).fsm = .rngWait ⟨row12, 16⟩ ∧ (waitState []).nextTurn = .host ∧
    ({ waitState [] with env := { (waitState []).env with turns := [.block] } } : State).nextTurn = .block ∧
    ({ waitState [] with env := { (waitState []).env with turns := [.source] } } : State).nextTurn = .source ∧
    ∃ t, step (waitState []) = .next t :=
  ⟨by decide, test_witness_RegisterInvariantKept.2.1, rfl, by decide, by decide, by decide, _, rfl⟩

theorem test_witness_ErrorsAreAtomic : step (accept 0#32 State.reset) =
    .next (raise .illegalCommand (accept 0#32 State.reset)) ∧ (accept 0#32 State.reset).fsm ≠ .idle ∧
    (raise .illegalCommand (accept 0#32 State.reset)).fsm = .idle ∧
    (raise .illegalCommand (accept 0#32 State.reset)).status.err = true := ⟨rfl, by decide, by decide, by decide⟩

theorem test_witness_CodesOfEachCommand : exec (.specw 11) State.reset = .next (raise .invalidWordCount State.reset) ∧
    (raise .invalidWordCount State.reset).fsm = .idle := ⟨rfl, rfl⟩

/-- Both clauses at the edges of the window. -/
theorem test_witness_AccessContract :
    ¬((4 : Nat) = 4 ∧ (0 : Int) ≤ 0x100 ∧ (0x100 : Int) ≤ 0x0FC ∧ (0x100 : Int) % 4 = 0) ∧
    ¬((4 : Nat) = 4 ∧ (0 : Int) ≤ -4 ∧ (-4 : Int) ≤ 0x0FC ∧ (-4 : Int) % 4 = 0) ∧
    ¬((2 : Nat) = 4 ∧ (0 : Int) ≤ 0 ∧ (0 : Int) ≤ 0x0FC ∧ (0 : Int) % 4 = 0) ∧
    ¬((4 : Nat) = 4 ∧ (0 : Int) ≤ 2 ∧ (2 : Int) ≤ 0x0FC ∧ (2 : Int) % 4 = 0) ∧
    ((4 : Nat) = 4 ∧ (0 : Int) ≤ 0x0FC ∧ (0x0FC : Int) ≤ 0x0FC ∧ (0x0FC : Int) % 4 = 0) := by decide

/-- A host whose next access is a 16-bit read. -/
theorem test_witness_OnlyHostAccessFaults :
    let s : State := { State.reset with env := { Env.empty with program := [.read 0x004 2] } }
    s.nextTurn = .host ∧ s.nextOpBad := ⟨rfl, .inl ⟨0x004, 2, [], rfl, rfl⟩⟩

/-- A host that polls and then reads the last register. -/
theorem test_witness_ContractKeepsRunSafe :
    let s : State := { State.reset with env := { Env.empty with program := [.poll, .read 0x0FC 4] } }
    s.hostKeepsContract := by
  intro s op h
  simp only [s, List.mem_cons, List.not_mem_nil, or_false] at h
  rcases h with rfl | rfl <;> decide

/-- A host that runs two commands with a poll between them; the same writes with no poll do not wait. -/
theorem test_waits : pollsBeforeWrites false (encodeProgram 2048 [0x61] ++ decodeProgram 2048 [some 3, none] true) = true ∧
    pollsBeforeWrites false [wr .cmd 2, wr .hexLen 0] = false := by decide

/-- A waiting host with a write at hand, and a step under the duty from a state whose WDROP is set: the CMD write of an
earlier program was dropped. -/
theorem test_witness_WaitingHostLosesNoWrite :
    let s : State := { dropWrite State.reset with env := { Env.empty with program := [wr .hexLen 5] } }
    s.hostWaits ∧ s.writesWhenIdle ∧ ∃ t, step s = .next t ∧ t.status.wdrop = true :=
  ⟨rfl, fun _ _ _ => rfl, _, rfl, rfl⟩

/-- A run of one poll, which ends it; the poll's state keeps every duty. -/
theorem test_witness_WaitingHostLosesNoWrite_run :
    ∃ t, FinalState [['a'], ['b']] [] { Env.empty with program := [.poll] } t ∧ t.status.wdrop = false := by
  refine ⟨_, ⟨.cons ⟨?_, ?_, ?_, ?_⟩ rfl (.nil _ _), rfl⟩, rfl⟩
  · exact fun _ _ _ => rfl
  · intro i h; cases h
  · intro w v h; cases h
  · intro op h
    rcases List.mem_singleton.1 h with rfl
    rfl

/-- 20 R89 (a), (b): a Wordlist of two words and a phrase of two, one of them not in it. The state in which CMD is
written keeps the duties; with the unknown word reported as index 0 it does not, nor with the size told as 3. -/
theorem test_decode_duties :
    let wl : Wordlist := [['a'], ['b']]
    let p : Phrase := [['b'], ['c']]
    let s (n : Word) (nf : Bool) : State := { State.reset with
      wlSize := n
      d := { Data.zero with word := (Data.zero.word.set 0 ⟨1, false⟩).set 1 ⟨0, nf⟩ }
      env := { Env.empty with program := [wr .cmd (encode (.decode 2 true)), .poll] } }
    (s 2 true).issuedCommand = some (.decode 2 true) ∧ (s 2 true).sizeReported wl ∧ (s 2 true).wordsReported wl p ∧
      ¬ (s 3 true).sizeReported wl ∧ ¬ (s 2 false).wordsReported wl p := by
  intro wl p s
  have hi (n : Word) (nf : Bool) : (s n nf).issuedCommand = some (.decode 2 true) := rfl
  refine ⟨hi _ _, fun _ _ _ => rfl, ?_, fun h => absurd (h _ (hi _ _) rfl) (by decide), fun h => ?_⟩
  · intro w v h
    cases h
    refine ⟨rfl, fun i h2 => ?_⟩
    have h3 : i < 2 := h2
    interval_cases i
    · exact ⟨rfl, rfl⟩
    · exact ⟨rfl, rfl⟩
  · exact Bool.noConfusion ((h 2 true (hi _ _)).2 1 (by decide)).2

/-- The ranges' ends: the last mapped word below the reserved offsets, the reserved ones, the next mapped ones. -/
theorem test_witness_RegisterMap : (8 < 64 ∧ 4 * 8 < 0x024) ∧ (16 < 64 ∧ 0x040 ≤ 4 * 16) ∧ (63 < 64 ∧ 0x040 ≤ 4 * 63) ∧
    (0x024 ≤ 4 * 9 ∧ 4 * 9 < 0x040) ∧ (0x024 ≤ 4 * 15 ∧ 4 * 15 < 0x040) := by decide

theorem test_witness_ReservedAndReadOnly : (0x024 % 4 = 0 ∧ 0x03C % 4 = 0 ∧ 0x03C < 0x040) ∧ 0x004 % 4 = 0 ∧
    (0x010 % 4 = 0 ∧ 0x020 % 4 = 0 ∧ 0x020 < 0x024) ∧ (0x080 % 4 = 0 ∧ 0x09C % 4 = 0 ∧ 0x09C < 0x0A0) := by decide

/-- The premise of the register statements in IDLE. -/
theorem test_witness_ReservedBits : State.reset.status.busy = false := by decide
theorem test_witness_HexDataLanes : (hexState 0 [0x61]).status.busy = false := by decide
theorem test_witness_EntDataLanes : (entState [true] 0 0).status.busy = false := by decide
theorem test_witness_IdleReadsAreExact : (entState [true] 3 4).status.busy = false := by decide

theorem test_witness_SideEffects : memRead 0x0FC 4 State.reset = .next (returnWord 0 State.reset) ∧
    State.reset.status.busy = false ∧ 0x0FC % 4 = 0 ∧ (regAt 0x0FC).isRW = true ∧ (regAt 0x000).isRW = true ∧
    busyState.status.busy = true := ⟨rfl, by decide, by decide, by decide, by decide, by decide⟩

/-- Clause 2: a GENERATE's execution step leaves BUSY at 1. -/
theorem test_witness_CommandIsLatched : State.reset.status.busy = false ∧
    let s : State := { accept 0x000C000A#32 State.reset with wlSize := 2048 }
    s.status.busy = true ∧ step s = .next (requestEntropy row12 s) ∧ (requestEntropy row12 s).status.busy = true :=
  ⟨by decide, by decide, rfl, by decide⟩

/-- Every range of offsets at its ends, and a step of a state whose WDROP is set. -/
theorem test_witness_BusyWritesDropped : busyState.status.busy = true ∧ (0x07C % 4 = 0 ∧ 0x07C < 0x080) ∧
    (0x0A0 % 4 = 0 ∧ 0x0FC % 4 = 0 ∧ 0x0FC ≤ 0x0FC) ∧ (0x010 % 4 = 0 ∧ 0x03C % 4 = 0 ∧ 0x03C < 0x040) ∧
    (0x080 % 4 = 0 ∧ 0x09C % 4 = 0 ∧ 0x09C < 0x0A0) ∧ (dropWrite State.reset).status.wdrop = true ∧
    ∃ t, step (dropWrite State.reset) = .next t :=
  ⟨by decide, by decide, by decide, by decide, by decide, by decide, _, rfl⟩

theorem test_witness_BusyReads : busyState.status.busy = true ∧ (Reg.word 23).isData = true ∧
    Reg.hexLen.isData = true := by decide

theorem test_witness_ResetAbandonsCommand : (waitState [.fail]).status.busy = true := by decide

/-- The two states that discard an answer. -/
theorem test_witness_StrayAnswersDiscarded : ∃ s e : State, s.fsm = .idle ∧ e.fsm = .exec ∧ (∀ g, s.fsm ≠ .rngWait g) ∧
    (∀ g, e.fsm ≠ .rngWait g) ∧ s.env.answers = .fail :: [] ∧ e.env.answers = .fail :: [] :=
  ⟨{ State.reset with env := { Env.empty with answers := [.fail] } },
    { busyState with env := { Env.empty with answers := [.fail] } }, rfl, rfl, fun _ => Fsm.noConfusion,
    fun _ => Fsm.noConfusion, rfl, rfl⟩

theorem test_witness_RequestsOnlyFromGenerate :
    let s : State := { accept 0x000C000A#32 State.reset with wlSize := 2048 }
    step s = .next (requestEntropy row12 s) := rfl

theorem test_witness_RunExecutesCommand :
    let s : State := { State.reset with env := { Env.empty with program := run (.specw 12) ++ [.poll] } }
    (Instr.specw 12).wf = true ∧ (∀ w, Instr.specw 12 ≠ .generate w) ∧ s.fsm = .idle ∧ s.status.busy = false ∧
      s.env.turns = [] ∧ s.env.program = run (.specw 12) ++ [.poll] :=
  ⟨rfl, fun _ h => Instr.noConfusion h, rfl, rfl, rfl, rfl⟩

theorem test_witness_ValidWordCounts : validW 24 = true ∧ validW 12 = true ∧ validW 11 = false ∧ validW 13 = false ∧
    validW 25 = false ∧ validW 27 = false := by decide

theorem test_witness_SizeBijection : specFromW 24 = some ⟨24, 264, 8, 256⟩ ∧
    specFromEntBits 128 = some ⟨12, 132, 4, 128⟩ := by decide

theorem test_witness_SpecwResult : 255 ≤ 255 ∧ validW 12 = true ∧ validW 24 = true ∧ validW 255 = false := by decide

/-- Valid entropy at both ends of its lengths, and none: a length, and a character. -/
theorem test_witness_EntropyOk : (hexState 0 (List.replicate 32 0x46)).d.EntropyOk ∧
    (hexState 0 (List.replicate 64 0x30)).d.EntropyOk ∧ ¬(hexState 0 (List.replicate 30 0x30)).d.EntropyOk ∧
    ¬(hexState 0 (List.replicate 31 0x30 ++ [0x67])).d.EntropyOk := by
  refine ⟨(validEntropyHex_iff _).1 (by decide +kernel), (validEntropyHex_iff _).1 (by decide +kernel), ?_, ?_⟩ <;>
    exact fun h => absurd ((validEntropyHex_iff _).2 h) (by decide +kernel)

theorem test_witness_SpeceResult : (hexState 0 (List.replicate 64 0x30)).d.EntropyOk ∧
    ¬(hexState 0 (List.replicate 30 0x30)).d.EntropyOk :=
  ⟨test_witness_EntropyOk.2.1, test_witness_EntropyOk.2.2.1⟩

theorem test_witness_ChecksumIsDigestPrefix : 4 ≤ 8 ∧ 8 ≤ 8 ∧ 0 ≤ 8 := by decide

theorem test_witness_CsumResult : (entState (List.replicate 256 true) 0 0).d.entLen.toNat ∈ [128, 160, 192, 224, 256] ∧
    (entState [] 0 0).d.entLen.toNat ∉ [128, 160, 192, 224, 256] := by decide +kernel

/-- A state of CSCHK's clauses for `ENT_LEN = 128`: no length, a length with any checksum. -/
theorem test_witness_CschkResult : (entState [] 0 0).d.entLen.toNat ∉ [128, 160, 192, 224, 256] ∧
    (entState (List.replicate 128 true) 0 0).d.csRxLen.toNat ≠ csBitsOf 128 ∧
    ((entState (List.replicate 128 true) 0 0).d.setCsRx 5 4).csRxLen.toNat = csBitsOf 128 := by decide +kernel

/-- Whatever the digest, some CS_RX agrees with it and some other does not. -/
theorem test_witness_CschkResult_match (d : Data) (b : List Byte) : ∃ x, (d.setCsRx x 4).csRx.toNat = checksum b 4 := by
  have h := checksum_lt b 4 (by omega)
  exact ⟨checksum b 4, by rw [Data.setCsRx_csRx, BitVec.toNat_ofNat, Nat.mod_eq_of_lt (by omega)]⟩

theorem test_witness_CschkResult_mismatch (d : Data) (b : List Byte) :
    ∃ x, (d.setCsRx x 4).csRx.toNat ≠ checksum b 4 := by
  by_cases h : checksum b 4 = 0
  · exact ⟨1, by rw [h, Data.setCsRx_csRx]; decide⟩
  · exact ⟨0, fun e => h e.symm⟩

theorem test_witness_HexRoundTrips : [true, false, true, true].length % 4 = 0 ∧
    ∀ ch ∈ ([0x30, 0x46, 0x66] : List Byte), isHex ch = true := by decide

theorem test_witness_HexPairsAreBytes : ([0x30, 0x46] : List Byte).length % 2 = 0 := by decide

/-- Clause 4: PACK then UNPACK of the all-zero 12-word entropy with checksum 3. -/
theorem test_witness_PackingInverses : (∀ x ∈ [0, 2047], x < 2048) ∧ (List.replicate 22 true).length = 11 * 2 ∧
    (entState (List.replicate 128 false) 3 4).Inv ∧
    specFromEntBits (entState (List.replicate 128 false) 3 4).d.entLen.toNat = some row12 ∧
    ∃ t u, exec .pack (entState (List.replicate 128 false) 3 4) = .next t ∧ t.status.code = 0 ∧
      exec (.unpack 12) t = .next u := by
  refine ⟨by decide, by decide, ⟨inv_setCs 3 4 (inv_setEnt _ inv_zero (by simp) (by simp)) (by omega) (by omega), ?_⟩,
    by decide +kernel, _, _, exec_after _ _, by decide +kernel, exec_after _ _⟩
  exact ⟨by decide, by decide, by decide, by decide, by decide, by decide, by decide, fun _ h => Fsm.noConfusion h⟩

theorem test_witness_BitPlacement : row12 ∈ specRows ∧ (List.replicate 128 true).length = row12.entropyBits ∧
    15 < 2 ^ row12.checksumBits := ⟨by decide, List.length_replicate, by decide⟩

/-- The longest string, a bad character, and a length beyond the buffer. -/
theorem test_witness_Hex2bitsResult : (hexState 0 (List.replicate 64 0x46)).d.hexLen.toNat ≤ 64 ∧
    (hexState 0 (List.replicate 64 0x46)).d.hexChars.all isHex = true ∧
    64 < (hexState 0 (List.replicate 65 0x30)).d.hexLen.toNat ∧
    (0 < (hexState 0 [0x67]).d.hexLen.toNat ∧ isHex ((hexState 0 [0x67]).d.hexAt 0) = false) := by decide +kernel

theorem test_witness_Bits2hexResult : (entState (List.replicate 256 true) 0 0).d.entLen.toNat = 256 ∧
    256 % 4 = 0 ∧ (entState [true] 0 0).d.entLen.toNat % 4 ≠ 0 ∧ busyState.Inv :=
  ⟨by decide +kernel, by decide, by decide, test_witness_RegisterInvariantKept.1⟩

theorem test_witness_PackResult : (entState [] 0 0).d.entLen.toNat ∉ [128, 160, 192, 224, 256] ∧
    (entState (List.replicate 256 true) 0 7).d.csLen.toNat ≠ csBitsOf 256 ∧
    (entState (List.replicate 256 true) 0 8).d.csLen.toNat = csBitsOf 256 := by decide +kernel

theorem test_witness_UnpackResult : validW 12 = true ∧ validW 24 = true ∧ validW 0 = false ∧ validW 255 = false := by
  decide

/-- The four clauses of ENCODE: entropy as `test_witness_EntropyOk`, and the three sizes of the Wordlist. -/
theorem test_witness_EncodeResult : (hexState 2048 (List.replicate 64 0x30)).d.EntropyOk ∧
    (hexState 2048 (List.replicate 64 0x30)).wlSize = 2048 ∧ (hexState 0 (List.replicate 64 0x30)).wlSize = 0 ∧
    (hexState 2047 (List.replicate 64 0x30)).wlSize ≠ 0 ∧ (hexState 2047 (List.replicate 64 0x30)).wlSize ≠ 2048 :=
  ⟨test_witness_EntropyOk.2.1, by decide, by decide, by decide, by decide⟩

theorem test_witness_GenerateResult : validW 24 = true ∧ validW 25 = false ∧ (wordState 2048 []).wlSize = 2048 ∧
    (wordState 0 []).wlSize = 0 ∧ (wordState 2049 []).wlSize ≠ 0 ∧ (wordState 2049 []).wlSize ≠ 2048 := by decide

theorem test_witness_GenerateAnswer : row12 ∈ specRows ∧
    (waitState []).fsm = .rngWait ⟨row12, row12.entropyBits / 8⟩ ∧ (waitState []).env.answers = [] ∧
    (waitState [.fail]).env.answers = .fail :: [] ∧
    (waitState [.ok (Vector.replicate 32 0)]).env.answers = .ok (Vector.replicate 32 0) :: [] :=
  ⟨by decide, rfl, rfl, rfl, rfl⟩

/-- No NF flag among the words used, and one. -/
theorem test_witness_DecodeResult : specFromW 12 = some row12 ∧ (wordState 2048 [19]).wlSize = 2048 ∧
    (∀ i, i < 12 → ((wordState 2048 [19]).d.wordAt i).nf = false) ∧
    (∃ i, i < 12 ∧ (({ Data.zero with word := Data.zero.word.set 11 ⟨0, true⟩ } : Data).wordAt i).nf = true) := by
  refine ⟨by decide, by decide, by decide, 11, by decide, by decide⟩

theorem test_witness_EmptyMnemonic : validW 12 = true ∧ 11 < 12 ∧
    (({ Data.zero with word := Data.zero.word.set 11 ⟨0, true⟩ } : Data).wordAt 11).nf = true := by decide

/-- A completed command, and an answer to a waiting GENERATE. -/
theorem test_witness_ZeroFill : (after .bits2hex State.reset).fsm = .idle ∧
    (after .bits2hex State.reset).status.err = false ∧ exec .bits2hex State.reset = .next (after .bits2hex State.reset) ∧
    (waitState []).Inv ∧ (waitState []).fsm = .rngWait ⟨row12, 16⟩ ∧
    (rngAnswer (.ok (Vector.replicate 32 0)) (waitState [])).status.err = false :=
  ⟨by decide, by decide, rfl, test_witness_RegisterInvariantKept.2.1, rfl, rfl⟩

/-- ENCODE of valid entropy completes with code 0, and its own words are a `u`. -/
theorem test_witness_DecodeOfEncodedEntropy : ∃ s t : State, exec .encode s = .next t ∧ t.status.code = 0 ∧
    t.wlSize = 2048 := by
  obtain ⟨sp, -, -, -, -, h⟩ := execEncode_ok (s := hexState 2048 (List.replicate 64 0x30)) test_witness_EntropyOk.2.1
  exact ⟨_, _, h rfl, rfl, rfl⟩

/-- The words of the all-zero 12-word entropy with the checksum `x`. -/
def zeroWords (x : Nat) : State :=
  { State.reset with wlSize := 2048, d := Data.zero.setWords (group (List.replicate 128 false ++ bitsN 4 x) 12) }

theorem getD_zeros (n i : Nat) : (List.replicate n false).getD i false = false := by
  rw [List.getD_eq_getElem?_getD, List.getElem?_replicate]
  split <;> rfl

theorem zeroWords_are (x : Nat) : (zeroWords x).d.WordsAre 12 128 (fun _ => false) x :=
  wordsAre_setWords row12 (by decide) x (List.replicate 128 false) List.length_replicate _
    (fun i _ => getD_zeros 128 i) Data.zero

/-- With the checksum that goes with them they verify, whatever the hash. -/
theorem zeroWords_verify : ∃ x t, exec (.decode 12 true) (zeroWords x) = .next t ∧ t.status.code = 0 := by
  let b := bytesOf (List.replicate 128 false)
  have hlt : checksum b 4 < 2 ^ 4 := checksum_lt b 4 (by omega)
  have hW := zeroWords_are (checksum b 4)
  obtain ⟨p1, -, p3, p4⟩ := decode_parts (zeroWords (checksum b 4)).d row12 (by decide)
  have e := execDecode_ok (s := zeroWords (checksum b 4)) (specFromW_row (sp := row12) (by decide)) rfl
    (fun i _ => hW.2.1 i)
  simp only [row12] at p1 p3 p4 e
  have q1 : (split (ungroup ((zeroWords (checksum b 4)).d.wordIdxs 12)) 128).1 = List.replicate 128 false := by
    refine bits_ext (p1.trans List.length_replicate.symm) fun i hi => ?_
    rw [p1] at hi
    rw [p3 i hi, hW.1 i (by omega), if_pos hi, getD_zeros]
  have q2 : val (split (ungroup ((zeroWords (checksum b 4)).d.wordIdxs 12)) 128).2 = checksum b 4 := by
    apply Nat.eq_of_testBit_eq
    intro k
    rw [p4 k]
    by_cases hk : k < 4
    · have h2 : 11 * 12 - 1 - (11 * 12 - 1 - k) = k := by omega
      rw [hW.1 _ (by omega), if_neg (by omega), h2]
      simp [hk]
    · rw [Nat.testBit_lt_two_pow (lt_of_lt_of_le hlt (Nat.pow_le_pow_right (by omega) (by omega)))]
      simp [hk]
  exact ⟨checksum b 4, _, e.2.1 (by rw [q1, q2]), rfl⟩

/-- `u` differs from a verified `s` in the last checksum bit alone. -/
theorem test_witness_ChecksumBitChangesFail : ∃ s t u : State, exec (.decode 12 true) s = .next t ∧ t.status.code = 0 ∧
    u.wlSize = 2048 ∧ (∀ i, i < 12 → (u.d.wordAt i).nf = false) ∧
    (∀ p, p < entBitsOf 12 → u.d.groupBit p = s.d.groupBit p) ∧
    ∃ p, entBitsOf 12 ≤ p ∧ p < 11 * 12 ∧ u.d.groupBit p ≠ s.d.groupBit p := by
  obtain ⟨x, t, ht, hc⟩ := zeroWords_verify
  have hs := zeroWords_are x
  have hu := zeroWords_are (x ^^^ 1)
  refine ⟨zeroWords x, t, zeroWords (x ^^^ 1), ht, hc, rfl, fun i _ => hu.2.1 i, fun p hp => ?_, 131, by decide,
    by decide, ?_⟩
  · have hp' : p < 128 := hp
    rw [hu.1 p (by omega), hs.1 p (by omega), if_pos hp', if_pos hp']
  · rw [hu.1 131 (by omega), hs.1 131 (by omega), if_neg (by omega), if_neg (by omega), Nat.testBit_xor]
    cases x.testBit (11 * 12 - 1 - 131) <;> decide

theorem test_witness_CodecDependsOnInputsOnly : validW 12 = true ∧ (wordState 2048 []).wlSize = 2048 ∧
    exec (.generate 12) (wordState 2048 []) = .next (requestEntropy row12 (wordState 2048 [])) ∧
    (∃ t, exec .encode State.reset = .next t) ∧ ∃ t, exec (.decode 12 true) State.reset = .next t :=
  ⟨by decide, by decide, rfl, ⟨_, rfl⟩, ⟨_, rfl⟩⟩

/-- "ABCDEF" and "abcdef". -/
theorem test_witness_CaseDoesNotMatter : ∀ j, j < 6 →
    lowerHex ((hexState 2048 [0x41, 0x42, 0x43, 0x44, 0x45, 0x46]).d.hexAt j) =
      lowerHex ((hexState 2048 [0x61, 0x62, 0x63, 0x64, 0x65, 0x66]).d.hexAt j) := by decide

end Sys2Proof.Tests
end

/-! # The state's invariants, zero-fill and the codec's inputs (family `10_state.md`)

The commit set of every command is listed once (`Commits`), and once it is shown that a command ends by raising an
error, by one of these commit sets, or by the entropy request (`exec_outcome`). The register invariant (O15, O16) and
the zero-fill (O55) are then facts about the commit sets. -/

namespace Sys2Proof.Machine

/-! ## What each command commits -/

/-- `Commits s i c d`: a completion of the command `i` in state `s` with code `c` has the commit set `d` (the column
'writes' of 30 R112). Of the command's checks it keeps what fixes the sizes of what is written. -/
inductive Commits (s : State) : Instr → Code → Data → Prop where
  | specw (w : Nat) (sp : EntropySpec) (hsp : specFromW w = some sp) : Commits s (.specw w) .ok (s.d.setSpec sp)
  | spece (sp : EntropySpec) (hsp : specFromEntBits (4 * s.d.hexLen.toNat) = some sp) :
      Commits s .spece .ok (s.d.setSpec sp)
  | hex2bits : Commits s .hex2bits .ok (s.d.setEnt (hexToBits s.d.hexChars))
  | bits2hex : Commits s .bits2hex .ok (s.d.setHex (bitsToHex s.d.entBits))
  | csum (sp : EntropySpec) (hsp : specFromEntBits s.d.entLen.toNat = some sp) :
      Commits s .csum .ok (s.d.setCs (checksum (bytesOf s.d.entBits) sp.checksumBits) sp.checksumBits)
  | pack (sp : EntropySpec) (hsp : specFromEntBits s.d.entLen.toNat = some sp) :
      Commits s .pack .ok (s.d.setWords (group (s.d.entBits ++ s.d.csBits) sp.w))
  | unpack (w : Nat) (sp : EntropySpec) (hsp : specFromW w = some sp) :
      Commits s (.unpack w) .ok ((s.d.setEnt (split (ungroup (s.d.wordIdxs w)) sp.entropyBits).1).setCsRx
        (val (split (ungroup (s.d.wordIdxs w)) sp.entropyBits).2) sp.checksumBits)
  | cschk (sp : EntropySpec) (hsp : specFromEntBits s.d.entLen.toNat = some sp) :
      Commits s .cschk .ok (s.d.setCs (checksum (bytesOf s.d.entBits) sp.checksumBits) sp.checksumBits)
  | encode (sp : EntropySpec) (hok : s.d.EntropyOk) (hr : sp ∈ specRows)
      (he : sp.entropyBits = 4 * s.d.hexLen.toNat) :
      Commits s .encode .ok (encodeData (bytesOf (hexToBits s.d.hexChars))
        (checksum (bytesOf (hexToBits s.d.hexChars)) sp.checksumBits) sp)
  | decodeEmpty (w : Nat) (vfy : Bool) : Commits s (.decode w vfy) .notFound Data.zero
  | decode (w : Nat) (vfy : Bool) (sp : EntropySpec) (hsp : specFromW w = some sp) (x c : Nat) (hc : c ≤ 8)
      (hx : x < 2 ^ c) :
      Commits s (.decode w vfy) .ok (decodeData (split (ungroup (s.d.wordIdxs w)) sp.entropyBits).1
        (split (ungroup (s.d.wordIdxs w)) sp.entropyBits).2 x c (s.d.wordIdxs w) sp)

/-- How a command ends its execution step, with the commit set of a completion named. -/
inductive ExecOutcome (s : State) (i : Instr) : State → Prop where
  | raised (c : Code) (hc : 2 ≤ c.num.toNat) : ExecOutcome s i (raise c s)
  | committed (c : Code) (d : Data) (h : Commits s i c d) : ExecOutcome s i (complete c d s)
  | requested (sp : EntropySpec) (hr : sp ∈ specRows) : ExecOutcome s i (requestEntropy sp s)

section Commands

variable {s t : State}

theorem execSpecw_outcome {w : Nat} (h : execSpecw w s = .next t) : ExecOutcome s (.specw w) t := by
  unfold execSpecw at h
  split at h
  · cases h; exact .raised _ (by decide)
  · next sp hsp => cases h; exact .committed _ _ (.specw w sp hsp)

theorem execSpece_outcome (h : execSpece s = .next t) : ExecOutcome s .spece t := by
  unfold execSpece at h
  split at h
  · split at h
    · cases h; exact .raised _ (by decide)
    · next sp hsp => cases h; exact .committed _ _ (.spece sp hsp)
  · cases h; exact .raised _ (by decide)

theorem execHex2bits_outcome (h : execHex2bits s = .next t) : ExecOutcome s .hex2bits t := by
  unfold execHex2bits at h
  split at h
  · cases h; exact .raised _ (by decide)
  · split at h
    · cases h; exact .committed _ _ .hex2bits
    · cases h; exact .raised _ (by decide)

theorem execBits2hex_outcome (h : execBits2hex s = .next t) : ExecOutcome s .bits2hex t := by
  unfold execBits2hex at h
  split at h
  · cases h; exact .raised _ (by decide)
  · cases h; exact .committed _ _ .bits2hex

theorem execCsum_outcome (h : execCsum s = .next t) : ExecOutcome s .csum t := by
  unfold execCsum at h
  split at h
  · cases h; exact .raised _ (by decide)
  · next sp hsp => cases h; exact .committed _ _ (.csum sp hsp)

theorem execPack_outcome (h : execPack s = .next t) : ExecOutcome s .pack t := by
  unfold execPack at h
  split at h
  · cases h; exact .raised _ (by decide)
  · next sp hsp =>
    split at h
    · cases h; exact .raised _ (by decide)
    · cases h; exact .committed _ _ (.pack sp hsp)

theorem execUnpack_outcome {w : Nat} (h : execUnpack w s = .next t) : ExecOutcome s (.unpack w) t := by
  unfold execUnpack at h
  split at h
  · cases h; exact .raised _ (by decide)
  · next sp hsp => cases h; exact .committed _ _ (.unpack w sp hsp)

theorem execCschk_outcome (h : execCschk s = .next t) : ExecOutcome s .cschk t := by
  unfold execCschk at h
  split at h
  · cases h; exact .raised _ (by decide)
  · next sp hsp =>
    split at h
    · cases h; exact .raised _ (by decide)
    · dsimp only at h
      split at h
      · cases h; exact .raised _ (by decide)
      · cases h; exact .committed _ _ (.cschk sp hsp)

/-- A code that `wordlistCheck` raises is an error code (43 R222). -/
theorem wordlistCheck_isError {v : Word} {c : Code} (h : wordlistCheck v = some c) : 2 ≤ c.num.toNat := by
  rcases wordlistCheck_cases v with ⟨hc, -⟩ | ⟨hc, -⟩ | ⟨hc, -⟩ <;> rw [hc] at h <;> cases h <;> decide

theorem execEncode_outcome (h : execEncode s = .next t) : ExecOutcome s .encode t := by
  by_cases hok : s.d.EntropyOk
  · obtain ⟨sp, hr, -, he, hraise, hcommit⟩ := execEncode_ok hok
    cases hw : wordlistCheck s.wlSize with
    | some c => rw [hraise c hw] at h; cases h; exact .raised c (wordlistCheck_isError hw)
    | none => rw [hcommit hw] at h; cases h; exact .committed _ _ (.encode sp hok hr he)
  · rw [execEncode, validEntropyHex_false hok] at h
    cases h; exact .raised _ (by decide)

theorem execGenerate_outcome {w : Nat} (h : execGenerate w s = .next t) : ExecOutcome s (.generate w) t := by
  unfold execGenerate at h
  split at h
  · cases h; exact .raised _ (by decide)
  · next sp hsp =>
    split at h
    · next c hc => cases h; exact .raised c (wordlistCheck_isError hc)
    · cases h; exact .requested sp (specFromW_some hsp).1

theorem execDecode_outcome {w : Nat} {vfy : Bool} (h : execDecode w vfy s = .next t) :
    ExecOutcome s (.decode w vfy) t := by
  unfold execDecode at h
  split at h
  · cases h; exact .raised _ (by decide)
  next sp hsp =>
  have hc : sp.checksumBits ≤ 8 := by have := specRows_sizes (specFromW_some hsp).1; omega
  split at h
  · next c hw => cases h; exact .raised c (wordlistCheck_isError hw)
  dsimp only at h
  split at h
  · cases h; exact .committed _ _ (.decodeEmpty w vfy)
  split at h
  · split at h
    · cases h; exact .raised _ (by decide)
    · cases h; exact .committed _ _ (.decode w vfy sp hsp _ _ hc (checksum_lt _ _ hc))
  · cases h; exact .committed _ _ (.decode w vfy sp hsp 0 0 (by decide) (by decide))

/-- Every command ends by raising an error, by its commit set, or by the entropy request. -/
theorem exec_outcome {i : Instr} (h : exec i s = .next t) : ExecOutcome s i t := by
  cases i with
  | specw w => exact execSpecw_outcome h
  | spece => exact execSpece_outcome h
  | hex2bits => exact execHex2bits_outcome h
  | bits2hex => exact execBits2hex_outcome h
  | csum => exact execCsum_outcome h
  | pack => exact execPack_outcome h
  | unpack w => exact execUnpack_outcome h
  | cschk => exact execCschk_outcome h
  | encode => exact execEncode_outcome h
  | generate w => exact execGenerate_outcome h
  | decode w vfy => exact execDecode_outcome h

end Commands

/-! ## The data registers' invariant over the commit sets -/

/-- HEX_LEN, HEX and WORD, the data registers the host writes, carry no invariant of their own. -/
theorem inv_hostFields (l : BitVec 8) (hex : Vector Byte 64) (word : Vector WordReg 24) {d : Data} (hd : d.Inv) :
    ({ d with hexLen := l, hex := hex, word := word } : Data).Inv :=
  ⟨hd.entLen_le, hd.entLen_mod, hd.ent_tail, hd.csLen_le, hd.cs_lt, hd.csRxLen_le, hd.csRx_lt, hd.spec_row,
    hd.resultW_valid⟩

/-- The encode path's commit set (43 R224) meets the invariant. -/
theorem inv_encodeData (b : List Byte) {sp : EntropySpec} (hr : sp ∈ specRows)
    (hb : b.length = sp.entropyBits / 8) : (encodeData b (checksum b sp.checksumBits) sp).Inv := by
  obtain ⟨hw, -, -, -, hc, -, -, -, he, -⟩ := specRows_sizes hr
  have hent : (bitsOf b).length ≤ 256 ∧ (bitsOf b).length % 4 = 0 := by rw [length_bitsOf]; omega
  have h1 := inv_setEnt (bitsOf b) (inv_setHex (bitsToHex (bitsOf b)) inv_zero) hent.1 hent.2
  exact inv_setWords _ (inv_setSpec sp (inv_setCs _ _ h1 hc (checksum_lt b _ hc)) hr) (by rwa [length_group])

/-- DECODE's commit set (43 R240) meets the invariant. -/
theorem inv_decodeData {eb cb : Bits} {x c : Nat} {g : List Nat} {sp : EntropySpec} (hr : sp ∈ specRows)
    (he : eb.length ≤ 256) (h4 : eb.length % 4 = 0) (hcb : val cb < 2 ^ sp.checksumBits) (hc : c ≤ 8)
    (hx : x < 2 ^ c) (hg : validW g.length = true) : (decodeData eb cb x c g sp).Inv := by
  obtain ⟨-, -, -, -, hc8, -⟩ := specRows_sizes hr
  have h1 := inv_setCs x c (inv_setEnt eb (inv_setHex (bitsToHex eb) inv_zero) he h4) hc hx
  exact inv_setWords g (inv_setSpec sp (inv_setCsRx _ _ h1 hc8 hcb) hr) hg

/-- The parts DECODE and UNPACK split the words into fit ENT and CS_RX (42 R188). -/
theorem split_wordIdxs_fits (d : Data) {w : Nat} {sp : EntropySpec} (hsp : specFromW w = some sp) :
    (split (ungroup (d.wordIdxs w)) sp.entropyBits).1.length ≤ 256 ∧
      (split (ungroup (d.wordIdxs w)) sp.entropyBits).1.length % 4 = 0 ∧ sp.checksumBits ≤ 8 ∧
      val (split (ungroup (d.wordIdxs w)) sp.entropyBits).2 < 2 ^ sp.checksumBits := by
  obtain ⟨hr, rfl⟩ := specFromW_some hsp
  obtain ⟨hle, hlc, -, -⟩ := decode_parts d sp hr
  obtain ⟨-, -, -, -, hcb, -, -, -, he, he32⟩ := specRows_sizes hr
  have hval := val_lt (split (ungroup (d.wordIdxs sp.w)) sp.entropyBits).2
  rw [hlc] at hval
  exact ⟨by omega, by omega, hcb, hval⟩

/-- The words a command with a resolved word count reads: as many as it says, a valid number. -/
theorem length_wordIdxs_of_spec (d : Data) {w : Nat} {sp : EntropySpec} (hsp : specFromW w = some sp) :
    (d.wordIdxs w).length = w ∧ validW w = true := by
  obtain ⟨hr, rfl⟩ := specFromW_some hsp
  obtain ⟨hw, -, -, -, -, -, hw24, -⟩ := specRows_sizes hr
  exact ⟨by rw [length_wordIdxs]; omega, hw⟩

/-- A commit set keeps the invariant of the data registers. -/
theorem Commits.inv {s : State} {i : Instr} {c : Code} {d : Data} (h : Commits s i c d) (hd : s.d.Inv) : d.Inv := by
  cases h with
  | specw w sp hsp => exact inv_setSpec sp hd (specFromW_some hsp).1
  | spece sp hsp => exact inv_setSpec sp hd (specFromEntBits_some hsp).1
  | hex2bits =>
    have hl := length_hexChars s.d
    exact inv_setEnt _ hd (by rw [length_hexToBits]; omega) (by rw [length_hexToBits]; omega)
  | bits2hex => exact inv_setHex _ hd
  | csum sp hsp | cschk sp hsp =>
    obtain ⟨-, -, -, -, hc, -⟩ := specRows_sizes (specFromEntBits_some hsp).1
    exact inv_setCs _ _ hd hc (checksum_lt _ _ hc)
  | pack sp hsp =>
    obtain ⟨hw, -⟩ := specRows_sizes (specFromEntBits_some hsp).1
    exact inv_setWords _ hd (by rwa [length_group])
  | unpack w sp hsp =>
    obtain ⟨hle, hl4, hc, hval⟩ := split_wordIdxs_fits s.d hsp
    exact inv_setCsRx _ _ (inv_setEnt _ hd hle hl4) hc hval
  | encode sp hok hr he => exact inv_encodeData _ hr (by rw [(encode_bytes hok).1, he])
  | decodeEmpty w vfy => exact inv_zero
  | decode w vfy sp hsp x c hc hx =>
    obtain ⟨hle, hl4, -, hval⟩ := split_wordIdxs_fits s.d hsp
    obtain ⟨hl, hw⟩ := length_wordIdxs_of_spec s.d hsp
    exact inv_decodeData (specFromW_some hsp).1 hle hl4 hval hc hx (by rwa [hl])

/-! ## The invariant of the machine over the named operations -/

theorem Code.num_le (c : Code) : c.num.toNat ≤ 9 := by cases c <;> decide

/-- Completion sets every control register, so it meets their invariant from any state (60 R261). -/
theorem ctlInv_finish (c : Code) (s : State) : (finish c s).CtlInv where
  busy_iff := by simp
  err_eq := rfl
  code_busy := by simp
  done_busy := by simp
  code_done := by simp
  code_le := c.num_le
  wdrop_cause := by simp
  gctx_valid := by simp

/-- Acceptance sets every control register, so it meets their invariant from any state (60 R260). -/
theorem ctlInv_accept (v : Word) (s : State) : (accept v s).CtlInv where
  busy_iff := by simp
  err_eq := rfl
  code_busy := by simp
  done_busy := by simp
  code_done := by simp
  code_le := by simp
  wdrop_cause := by simp
  gctx_valid := by simp

/-- The reset values of the control registers meet their invariant, whatever the environment (10 R50). -/
theorem ctlInv_reset (e : Env) : ({ State.reset with env := e } : State).CtlInv where
  busy_iff := by simp [State.reset]
  err_eq := rfl
  code_busy := by simp [State.reset]
  done_busy := by simp [State.reset]
  code_done := by simp [State.reset]
  code_le := by simp [State.reset]
  wdrop_cause := by simp [State.reset]
  gctx_valid := by simp [State.reset]

/-- The invariant of the control registers looks at STATUS and FSM alone. -/
theorem ctlInv_congr {s t : State} (hs : t.status = s.status) (hf : t.fsm = s.fsm) (h : s.CtlInv) : t.CtlInv := by
  obtain ⟨h1, h2, h3, h4, h5, h6, h7, h8⟩ := h
  rw [← hs] at h1 h2 h3 h4 h5 h6 h7
  rw [← hf] at h1 h8
  exact ⟨h1, h2, h3, h4, h5, h6, h7, h8⟩

/-- A write is dropped only while BUSY, which is what WDROP asks for (70 R300). -/
theorem ctlInv_dropWrite {s : State} (h : s.CtlInv) (hb : s.status.busy = true) : (dropWrite s).CtlInv :=
  ⟨h.busy_iff, h.err_eq, h.code_busy, h.done_busy, h.code_done, h.code_le, fun _ => .inl hb, h.gctx_valid⟩

/-- The entropy request is made in EXEC, where BUSY is 1 already, and sets GCTX (43 R234). -/
theorem ctlInv_requestEntropy {s : State} (h : s.CtlInv) (hf : s.fsm = .exec) {sp : EntropySpec}
    (hr : sp ∈ specRows) : (requestEntropy sp s).CtlInv where
  busy_iff := by
    have hb : s.status.busy = true := h.busy_iff.2 (by simp [hf])
    simp [hb]
  err_eq := h.err_eq
  code_busy := h.code_busy
  done_busy := h.done_busy
  code_done := h.code_done
  code_le := h.code_le
  wdrop_cause := h.wdrop_cause
  gctx_valid := fun g hg => by cases hg; exact ⟨hr, rfl⟩

section Operations

variable {s t : State}

/-- The invariant is about the registers of the block alone. -/
theorem State.Inv.of_sameRegs (h : s.SameRegs t) (hi : s.Inv) : t.Inv := by
  obtain ⟨-, hs, -, hd, hf⟩ := h
  exact ⟨hd ▸ hi.data, ctlInv_congr hs hf hi.ctl⟩

theorem inv_withEnv (e : Env) (hi : s.Inv) : ({ s with env := e } : State).Inv :=
  .of_sameRegs (s := s) ⟨rfl, rfl, rfl, rfl, rfl⟩ hi

/-- A register write keeps the invariant: CMD is an acceptance, every other one leaves STATUS and FSM (20 R80). -/
theorem inv_writeReg (v : Word) (r : Reg) (hi : s.Inv) : (writeReg v s r).Inv := by
  have hctl : (writeReg v s r).CtlInv := by
    rcases writeReg_cases v s r with ⟨-, h⟩ | ⟨-, hf, hs, -, -⟩
    · rw [h]; exact ctlInv_accept v s
    · exact ctlInv_congr hs hf hi.ctl
  refine ⟨?_, hctl⟩
  cases r with
  | hexLen | hexData k | word k => exact inv_hostFields _ _ _ hi.data
  | cmd | status | wlSize | entLen | csum | spec | specBits | resultW | reserved | entData k => exact hi.data

theorem inv_memWrite {off : Int} {size : Nat} {v : Word} (hi : s.Inv) (h : memWrite off size v s = .next t) :
    t.Inv := by
  rcases (memWrite_next h).2 with ⟨rfl, -, hb⟩ | ⟨rfl, -⟩
  · exact ⟨hi.data, ctlInv_dropWrite hi.ctl hb⟩
  · exact inv_writeReg v _ hi

/-- The execution step of a command keeps the invariant. -/
theorem inv_exec {i : Instr} (hi : s.Inv) (hf : s.fsm = .exec) (h : exec i s = .next t) : t.Inv := by
  cases exec_outcome h with
  | raised c hc => exact ⟨hi.data, ctlInv_finish c s⟩
  | committed c d hd => exact ⟨hd.inv hi.data, ctlInv_finish c _⟩
  | requested sp hr => exact ⟨hi.data, ctlInv_requestEntropy hi.ctl hf hr⟩

/-- The bytes of an answer are as many as GCTX asks for (20 R88, 43 R236). -/
theorem length_drawn {g : GenContext} (hi : s.CtlInv) (hf : s.fsm = .rngWait g) (draw : Vector Byte 32) :
    (draw.toList.take g.n).length = g.spec.entropyBits / 8 := by
  obtain ⟨hr, hn⟩ := hi.gctx_valid g hf
  have he := specRows_sizes hr
  rw [List.length_take, Vector.length_toList, hn]
  omega

/-- An answer of the entropy port keeps the invariant. -/
theorem inv_rngAnswer (a : RngAnswer) (hi : s.Inv) : (rngAnswer a s).Inv := by
  rcases rngAnswer_cases a s with ⟨g, draw, hf, -, h⟩ | ⟨g, -, -, h⟩ | ⟨-, h⟩ <;> rw [h]
  · exact ⟨inv_encodeData _ (hi.ctl.gctx_valid g hf).1 (length_drawn hi.ctl hf draw), ctlInv_finish _ _⟩
  · exact ⟨hi.data, ctlInv_finish _ _⟩
  · exact hi

theorem inv_resetBlock (s : State) : (resetBlock s).Inv := ⟨inv_zero, ctlInv_reset s.env⟩

/-- Every agent's turn keeps the invariant. -/
theorem Moves.inv {tn : Turn} (h : Moves s tn t) (hi : s.Inv) : t.Inv := by
  cases h with
  | hostDone | blockIdle | noAnswer => exact hi
  | read off rest _ hp h => exact .of_sameRegs (memRead_same h).1 (inv_withEnv _ hi)
  | write off v rest _ hp h => exact inv_memWrite (inv_withEnv _ hi) h
  | poll rest hp => exact .of_sameRegs (pollStatus_same rest s) hi
  | illegal hf => exact ⟨hi.data, ctlInv_finish _ _⟩
  | executed i _ hf hd h => exact inv_exec hi hf h
  | answered a rest ha => exact inv_rngAnswer a (inv_withEnv _ hi)
  | reset => exact inv_resetBlock s

end Operations

/-- Settles O15: a step is one agent's turn, and each of the turns keeps the invariant. -/
theorem registerInvariantKept : Obligations.RegisterInvariantKept := fun _ _ hi h =>
  (step_moves h).inv (inv_withEnv _ hi)

/-- Settles O16: the reset values meet the invariant field by field. -/
theorem registerInvariantAtReset : Obligations.RegisterInvariantAtReset := ⟨inv_zero, ctlInv_reset Env.empty⟩

/-! ## Zero-fill (10 R45) -/

/-- Every position of HEX, ENT and WORD beyond its length register is 0. -/
structure Data.ZeroFilled (d : Data) : Prop where
  hex : ∀ j, d.hexLen.toNat ≤ j → d.hexAt j = 0
  ent : ∀ j, d.entLen.toNat ≤ j → d.ent.getMsbD j = false
  word : ∀ j, d.resultW.toNat ≤ j → d.wordAt j = ⟨0, false⟩

theorem setHex_zeroFill {h : List Byte} (d : Data) (hl : h.length ≤ 64) (j : Nat)
    (hj : (d.setHex h).hexLen.toNat ≤ j) : (d.setHex h).hexAt j = 0 := by
  rw [Data.setHex_hexLen, BitVec.toNat_ofNat, Nat.mod_eq_of_lt (by omega)] at hj
  rw [hexAt_setHex h d hl, List.getD_eq_default _ _ hj]

theorem setEnt_zeroFill {t : Bits} (d : Data) (ht : t.length ≤ 256) (j : Nat)
    (hj : (d.setEnt t).entLen.toNat ≤ j) : (d.setEnt t).ent.getMsbD j = false := by
  rw [Data.setEnt_entLen, BitVec.toNat_ofNat, Nat.mod_eq_of_lt (by omega)] at hj
  rw [setEnt_getMsbD t d ht, List.getD_eq_default _ _ hj]

theorem setWords_zeroFill {g : List Nat} (d : Data) (hg : g.length ≤ 24) (j : Nat)
    (hj : (d.setWords g).resultW.toNat ≤ j) : (d.setWords g).wordAt j = ⟨0, false⟩ := by
  rw [Data.setWords_resultW, BitVec.toNat_ofNat, Nat.mod_eq_of_lt (by omega)] at hj
  rw [wordAt_setWords g d hg, List.getD_eq_default _ _ hj]
  rfl

theorem zeroFilled_zero : Data.zero.ZeroFilled where
  hex := fun j _ => by
    by_cases hj : j < 64
    · rw [hexAt_eq _ ⟨j, hj⟩]; simp
    · exact hexAt_beyond _ _ (by omega)
  ent := fun j _ => by simp
  word := fun j _ => by
    by_cases hj : j < 24
    · rw [wordAt_eq _ ⟨j, hj⟩]; simp
    · exact wordAt_beyond _ _ (by omega)

theorem zeroFilled_encodeData {b : List Byte} (x : Nat) {sp : EntropySpec} (hr : sp ∈ specRows)
    (hb : b.length = sp.entropyBits / 8) : (encodeData b x sp).ZeroFilled := by
  obtain ⟨-, -, -, -, -, -, hw, -, he, -⟩ := specRows_sizes hr
  have hent : (bitsOf b).length ≤ 256 := by rw [length_bitsOf]; omega
  exact ⟨setHex_zeroFill Data.zero (by rw [length_bitsToHex]; omega), setEnt_zeroFill Data.zero hent,
    setWords_zeroFill _ (by rwa [length_group])⟩

theorem zeroFilled_decodeData {eb : Bits} (cb : Bits) (x c : Nat) {g : List Nat} (sp : EntropySpec)
    (he : eb.length ≤ 256) (hg : g.length ≤ 24) : (decodeData eb cb x c g sp).ZeroFilled :=
  ⟨setHex_zeroFill Data.zero (by rw [length_bitsToHex]; omega), setEnt_zeroFill Data.zero he, setWords_zeroFill _ hg⟩

/-- The commit sets of ENCODE and DECODE are zero-filled throughout. -/
theorem Commits.zeroFilled {s : State} {i : Instr} {c : Code} {d : Data} (h : Commits s i c d)
    (hi : i = .encode ∨ ∃ w b, i = .decode w b) : d.ZeroFilled := by
  cases h with
  | encode sp hok hr he => exact zeroFilled_encodeData _ hr (by rw [(encode_bytes hok).1, he])
  | decodeEmpty w vfy => exact zeroFilled_zero
  | decode w vfy sp hsp x c hc hx =>
    exact zeroFilled_decodeData _ _ _ _ (split_wordIdxs_fits s.d hsp).1 (by rw [length_wordIdxs]; omega)
  | _ => simp at hi

section ZeroFill

variable {s : State} {i : Instr} {c : Code} {d : Data} (h : Commits s i c d)

include h

theorem Commits.hex_zeroFill (hi : i = .bits2hex ∨ i = .encode ∨ ∃ w b, i = .decode w b) :
    ∀ j, d.hexLen.toNat ≤ j → d.hexAt j = 0 := by
  rcases hi with rfl | hi
  · cases h
    exact setHex_zeroFill _ (by rw [length_bitsToHex, length_entBits]; omega)
  · exact (h.zeroFilled hi).hex

theorem Commits.ent_zeroFill (hi : i = .hex2bits ∨ i = .encode ∨ (∃ w, i = .unpack w) ∨ ∃ w b, i = .decode w b) :
    ∀ j, d.entLen.toNat ≤ j → d.ent.getMsbD j = false := by
  rcases hi with rfl | hi | ⟨w, rfl⟩ | hi
  · cases h
    exact setEnt_zeroFill _ (by rw [length_hexToBits, length_hexChars]; omega)
  · exact (h.zeroFilled (.inl hi)).ent
  · cases h with
    | unpack _ sp hsp => exact setEnt_zeroFill s.d (split_wordIdxs_fits s.d hsp).1
  · exact (h.zeroFilled (.inr hi)).ent

theorem Commits.word_zeroFill (hi : i = .pack ∨ i = .encode ∨ ∃ w b, i = .decode w b) :
    ∀ j, d.resultW.toNat ≤ j → d.wordAt j = ⟨0, false⟩ := by
  rcases hi with rfl | hi
  · cases h with
    | pack sp hsp =>
      obtain ⟨-, -, -, -, -, -, hw, -⟩ := specRows_sizes (specFromEntBits_some hsp).1
      exact setWords_zeroFill _ (by rwa [length_group])
  · exact (h.zeroFilled hi).word

end ZeroFill

/-- A command that ends without error has committed one of its commit sets. -/
theorem commits_of_no_error {i : Instr} {s t : State} (h : exec i s = .next t) (hf : t.fsm = .idle)
    (he : t.status.err = false) : ∃ c, Commits s i c t.d := by
  cases exec_outcome h with
  | raised c hc => simp at he; omega
  | committed c d hd => exact ⟨c, hd⟩
  | requested sp hr => simp at hf

/-- An answer without error leaves a zero-filled commit set, the encode path's (43 R236). -/
theorem zeroFilled_rngAnswer (a : RngAnswer) {s : State} {g : GenContext} (hi : s.CtlInv) (hf : s.fsm = .rngWait g)
    (he : (rngAnswer a s).status.err = false) : (rngAnswer a s).d.ZeroFilled := by
  rcases rngAnswer_cases a s with ⟨g, draw, hf, -, h⟩ | ⟨g, -, -, h⟩ | ⟨hn, -⟩
  · rw [h]
    exact zeroFilled_encodeData _ (hi.gctx_valid g hf).1 (length_drawn hi hf draw)
  · rw [h] at he
    cases he
  · exact absurd hf (hn g)

/-- Settles O55: a command that ends without error has committed one of its commit sets, and those of the commands
that write a length register are zero-filled; so is the one an answered GENERATE ends with. -/
theorem zeroFill : Obligations.ZeroFill := by
  refine ⟨fun i s t h hf he => ?_, fun a s g hi hf he => ?_⟩
  · obtain ⟨c, hc⟩ := commits_of_no_error h hf he
    exact ⟨hc.hex_zeroFill, hc.ent_zeroFill, hc.word_zeroFill⟩
  · obtain ⟨hhex, hent, hword⟩ := zeroFilled_rngAnswer a hi.ctl hf he
    exact ⟨hhex, hent, hword⟩

/-! ## The inputs of the codec commands (10 R48, 43 R228) -/

/-- Two results end alike: the same error with nothing committed, or the same code with the same commit set. -/
inductive EndAlike (s s' : State) : Result → Result → Prop where
  | raised (c : Code) (hc : 2 ≤ c.num.toNat) : EndAlike s s' (.next (raise c s)) (.next (raise c s'))
  | completed (c : Code) (d : Data) : EndAlike s s' (.next (complete c d s)) (.next (complete c d s'))

/-- What ending alike says of the two next states. -/
theorem EndAlike.same {s s' t t' : State} (h : EndAlike s s' (.next t) (.next t')) :
    t.status.code = t'.status.code ∧ (t.status.err = false → t.d = t'.d) := by
  cases h with
  | raised c hc => exact ⟨rfl, fun he => by simp at he; omega⟩
  | completed c d => exact ⟨rfl, fun _ => rfl⟩

/-! ### The operands as read -/

/-- The characters a command reads are those of HEX before HEX_LEN. -/
theorem hexChars_congr {d d' : Data} (hl : d.hexLen = d'.hexLen)
    (h : ∀ j, j < d.hexLen.toNat → d.hexAt j = d'.hexAt j) : d.hexChars = d'.hexChars := by
  apply List.ext_getElem (by rw [length_hexChars, length_hexChars, hl])
  intro j h1 h2
  have hj : j < d.hexLen.toNat ∧ j < 64 := by rw [length_hexChars] at h1; omega
  rw [← List.getD_eq_getElem _ 0 h1, ← List.getD_eq_getElem _ 0 h2, getD_hexChars_hexAt d j hj.1 hj.2,
    getD_hexChars_hexAt d' j (hl ▸ hj.1) hj.2, h j hj.1]

/-- The WORD registers a command with operand `w` reads are its first `w`. -/
theorem take_word_congr {d d' : Data} {w : Nat} (h : ∀ i, i < w → d.wordAt i = d'.wordAt i) :
    d.word.toList.take w = d'.word.toList.take w := by
  apply List.ext_getElem (by simp)
  intro i h1 h2
  have hi : i < w ∧ i < 24 := by simpa using h1
  have := h i hi.1
  rw [wordAt_eq d ⟨i, hi.2⟩, wordAt_eq d' ⟨i, hi.2⟩] at this
  simpa using this

/-! ### The commands end alike -/

theorem execEncode_endAlike {s s' : State} (hw : s.wlSize = s'.wlSize) (hl : s.d.hexLen = s'.d.hexLen)
    (hc : s.d.hexChars = s'.d.hexChars) : EndAlike s s' (execEncode s) (execEncode s') := by
  have hv : validEntropyHex s.d = validEntropyHex s'.d := by rw [validEntropyHex, validEntropyHex, hl, hc]
  cases hok : validEntropyHex s'.d with
  | false =>
    simp only [execEncode, hv, hok]
    exact .raised _ (by decide)
  | true =>
    cases hsp : specFromEntBits (4 * s'.d.hexLen.toNat) with
    | none =>
      simp only [execEncode, hv, hok, hl, hsp, if_true]
      exact .raised _ (by decide)
    | some sp =>
      cases hwl : wordlistCheck s'.wlSize with
      | some c =>
        simp only [execEncode, hv, hok, hl, hsp, hw, hwl, if_true]
        exact .raised c (wordlistCheck_isError hwl)
      | none =>
        simp only [execEncode, hv, hok, hl, hsp, hw, hwl, hc, if_true]
        exact .completed _ _

theorem execDecode_endAlike {s s' : State} (w : Nat) (b : Bool) (hw : s.wlSize = s'.wlSize)
    (h : ∀ i, i < w → s.d.wordAt i = s'.d.wordAt i) : EndAlike s s' (execDecode w b s) (execDecode w b s') := by
  have hg : s.d.wordIdxs w = s'.d.wordIdxs w := by rw [Data.wordIdxs, Data.wordIdxs, take_word_congr h]
  have hn : s.d.anyNotFound w = s'.d.anyNotFound w := by rw [Data.anyNotFound, Data.anyNotFound, take_word_congr h]
  cases hsp : specFromW w with
  | none =>
    simp only [execDecode, hsp]
    exact .raised _ (by decide)
  | some sp =>
    cases hwl : wordlistCheck s'.wlSize with
    | some c =>
      simp only [execDecode, hsp, hw, hwl]
      exact .raised c (wordlistCheck_isError hwl)
    | none =>
      simp only [execDecode, hsp, hw, hwl, hg, hn]
      split
      · exact .completed _ _
      · split
        · split
          · exact .raised _ (by decide)
          · exact .completed _ _
        · exact .completed _ _

/-- A GENERATE that passes its checks issues the request of its row (43 R234). -/
theorem execGenerate_ok {s : State} {w : Nat} {sp : EntropySpec} (hsp : specFromW w = some sp)
    (hwl : s.wlSize = 2048) : execGenerate w s = .next (requestEntropy sp s) := by
  simp only [execGenerate, hsp, wordlistCheck_full hwl]

/-- The answer to a request ends alike in all states: it reads GCTX and the answer (43 R236). -/
theorem rngAnswer_endAlike (a : RngAnswer) (sp : EntropySpec) (s s' : State) :
    EndAlike (requestEntropy sp s) (requestEntropy sp s') (.next (rngAnswer a (requestEntropy sp s)))
      (.next (rngAnswer a (requestEntropy sp s'))) := by
  cases a with
  | ok draw => exact .completed _ _
  | fail => exact .raised _ (by decide)

/-- Settles O58: each command's outcome is written in terms of the operands as read, which agree. -/
theorem codecDependsOnInputsOnly : Obligations.CodecDependsOnInputsOnly := by
  refine ⟨fun s s' t t' hw hl hh ht ht' => ?_, fun s s' t t' w b hw hh ht ht' => ?_,
    fun s s' t t' w a hw hv hwl ht ht' => ?_⟩
  · have h := execEncode_endAlike hw hl (hexChars_congr hl hh)
    rw [exec] at ht ht'
    rw [ht, ht'] at h
    exact h.same
  · have h := execDecode_endAlike w b hw hh
    rw [exec] at ht ht'
    rw [ht, ht'] at h
    exact h.same
  · obtain ⟨sp, hsp⟩ := specFromW_of_valid hv
    rw [exec, execGenerate_ok hsp hwl] at ht
    rw [exec, execGenerate_ok hsp (hw ▸ hwl)] at ht'
    cases ht
    cases ht'
    exact (rngAnswer_endAlike a sp s s').same

end Sys2Proof.Machine

/-! # The register window (family `20_memory.md`)

A host access is decided by three things: whether it is inside the contract, which register stands at its offset, and
BUSY. One lemma per outcome says what the access then answers (`memRead_exact`, `memRead_free`, `memRead_fault`,
`memWrite_taken`, `memWrite_dropped`, `memWrite_fault`); the claims about registers are these and facts about one
register's contents. The claims about steps are facts about each agent's move (`Moves`). -/

namespace Sys2Proof.Machine

/-! ## The register map (20 R71) -/

theorem regAt_offset (r : Reg) : regAt r.offset = r := by
  cases r with
  | hexData k => revert k; decide
  | entData k => revert k; decide
  | word i => revert i; decide
  | cmd | status | wlSize | hexLen | entLen | csum | spec | specBits | resultW | reserved => rfl

theorem offset_regAt {k : Nat} (hk : k < 64) (h : 4 * k < 0x024 ∨ 0x040 ≤ 4 * k) :
    (regAt (4 * k)).offset = 4 * k := by
  revert k
  decide

theorem regAt_eq_reserved_iff {k : Nat} (hk : k < 64) :
    regAt (4 * k) = .reserved ↔ 0x024 ≤ 4 * k ∧ 4 * k < 0x040 := by
  revert k
  decide

theorem regAt_isData_iff {k : Nat} (hk : k < 64) :
    (regAt (4 * k)).isData = true ↔ (0x00C ≤ 4 * k ∧ 4 * k ≤ 0x020) ∨ 0x040 ≤ 4 * k := by
  revert k
  decide

theorem regAt_isRW_iff {k : Nat} (hk : k < 64) :
    (regAt (4 * k)).isRW = true ↔
      4 * k = 0x000 ∨ 4 * k = 0x008 ∨ 4 * k = 0x00C ∨ (0x040 ≤ 4 * k ∧ 4 * k < 0x080) ∨ 0x0A0 ≤ 4 * k := by
  revert k
  decide

/-- An aligned offset of the window, as a number, is inside the contract (20 R72). -/
theorem accessOk_of_window {off : Nat} (h4 : off % 4 = 0) (hw : off ≤ 0x0FC) : accessOk off 4 = true := by
  rw [accessOk_iff]
  omega

theorem accessOk_offset (r : Reg) : accessOk r.offset 4 = true := by
  have h : r.offset % 4 = 0 ∧ r.offset ≤ 0x0FC := by
    cases r with
    | hexData | entData | word => simp only [Reg.offset]; omega
    | _ => decide
  exact accessOk_of_window h.1 h.2

/-! ## Host accesses, one lemma per outcome (20 R72, R73, R80; 70 R300, R301) -/

section Accesses

variable {off : Int} {size : Nat} {v : Word} {s t : State} {r : Reg}

theorem memRead_fault (h : accessOk off size = false) : memRead off size s = .fault (.hostAccess off size) := by
  simp [memRead, h]

theorem memWrite_fault (h : accessOk off size = false) : memWrite off size v s = .fault (.hostAccess off size) := by
  simp [memWrite, h]

/-- A read is exact where the register is no data register, or BUSY is 0. -/
theorem memRead_exact (ha : accessOk off size = true) (hr : regAt off.toNat = r)
    (h : r.isData = false ∨ s.status.busy = false) : memRead off size s = .next (returnWord (readReg s r) s) := by
  rcases h with h | h <;> simp [memRead, ha, hr, h]

theorem memRead_free (ha : accessOk off size = true) (hr : (regAt off.toNat).isData = true)
    (hb : s.status.busy = true) : memRead off size s = .next (returnFree s) := by
  simp [memRead, ha, hr, hb]

/-- A write reaches its register where that is not host-writable, or BUSY is 0. -/
theorem memWrite_taken (ha : accessOk off size = true) (hr : regAt off.toNat = r)
    (h : r.isRW = false ∨ s.status.busy = false) : memWrite off size v s = .next (writeReg v s r) := by
  rcases h with h | h <;> simp [memWrite, ha, hr, h]

theorem memWrite_dropped (ha : accessOk off size = true) (hr : (regAt off.toNat).isRW = true)
    (hb : s.status.busy = true) : memWrite off size v s = .next (dropWrite s) := by
  simp [memWrite, ha, hr, hb]

/-- A write to a register the host cannot write leaves the whole state (20 R73). -/
theorem memWrite_ignored (ha : accessOk off size = true) (hr : (regAt off.toNat).isRW = false) :
    memWrite off size v s = .next s := by
  rw [memWrite_taken ha rfl (.inl hr), writeReg_of_not_rw v s _ hr]

theorem memRead_answers (ha : accessOk off size = true) : ∃ t, memRead off size s = .next t := by
  by_cases h : (regAt off.toNat).isData = true ∧ s.status.busy = true
  · exact ⟨_, memRead_free ha h.1 h.2⟩
  · exact ⟨_, memRead_exact ha rfl (by simpa [or_iff_not_imp_left] using h)⟩

theorem memWrite_answers (ha : accessOk off size = true) : ∃ t, memWrite off size v s = .next t := by
  by_cases h : (regAt off.toNat).isRW = true ∧ s.status.busy = true
  · exact ⟨_, memWrite_dropped ha h.1 h.2⟩
  · exact ⟨_, memWrite_taken ha rfl (by simpa [or_iff_not_imp_left] using h)⟩

/-- With BUSY = 0 a read at a register's offset returns the register's contents. -/
theorem memRead_reg (r : Reg) (hb : s.status.busy = false) :
    memRead r.offset 4 s = .next (returnWord (readReg s r) s) :=
  memRead_exact (accessOk_offset r) (regAt_offset r) (.inr hb)

/-- With BUSY = 0 a write at a register's offset reaches the register. -/
theorem memWrite_reg (r : Reg) (v : Word) (hb : s.status.busy = false) :
    memWrite r.offset 4 v s = .next (writeReg v s r) :=
  memWrite_taken (accessOk_offset r) (regAt_offset r) (.inr hb)

theorem memWrite_env (h : memWrite off size v s = .next t) : t.env = s.env := by
  rcases (memWrite_next h).2 with ⟨rfl, -⟩ | ⟨rfl, -⟩
  · rfl
  · rcases writeReg_cases v s (regAt off.toNat) with ⟨-, hw⟩ | ⟨-, -, -, -, he⟩
    · rw [hw, accept_env]
    · exact he

/-- While BUSY = 1 a write changes WDROP at most. -/
theorem memWrite_busy (h : memWrite off size v s = .next t) (hb : s.status.busy = true) : t = dropWrite s ∨ t = s := by
  rcases (memWrite_next h).2 with ⟨rfl, -⟩ | ⟨rfl, hr | hb'⟩
  · exact .inl rfl
  · exact .inr (writeReg_of_not_rw v s _ hr)
  · rw [hb] at hb'
    cases hb'

theorem readReg_congr (h : s.SameRegs t) (r : Reg) : readReg t r = readReg s r := by
  obtain ⟨hl, hs, hw, hd, -⟩ := h
  cases r <;> simp only [readReg, hl, hs, hw, hd]

end Accesses

/-! ## The fields of a register

A register's contents are its fields appended, at widths that add up to 32. Nat literals hide the sum from simp's index,
so the lemmas about `++` are used with `-index`. -/

theorem extractLsb'_append_low {v w : Nat} (x : BitVec v) (y : BitVec w) : (x ++ y).extractLsb' 0 w = y := by
  rw [BitVec.extractLsb'_append_eq_of_add_le (by omega), BitVec.extractLsb'_eq_self]

/-- The fields of STATUS (10 R34). -/
theorem readReg_status_fields (s : State) :
    (readReg s .status).getLsbD 0 = s.status.busy ∧ (readReg s .status).getLsbD 1 = s.status.done ∧
      (readReg s .status).getLsbD 2 = s.status.err ∧ (readReg s .status).getLsbD 3 = s.status.wdrop ∧
      (readReg s .status).extractLsb' 8 8 = s.status.code := by
  simp -index only [readReg, Status.toWord, BitVec.getLsbD_append, BitVec.extractLsb'_append_eq_of_le,
    extractLsb'_append_low, Nat.reduceLeDiff, Nat.reduceSub]
  simp

/-- The fields of the other registers but the lanes (10 R33, R35, R36, R38 to R43). -/
theorem readReg_fields (s : State) :
    readReg s .cmd = s.lastCmd ∧ readReg s .wlSize = s.wlSize ∧
      (readReg s .hexLen).extractLsb' 0 8 = s.d.hexLen ∧ (readReg s .entLen).extractLsb' 0 9 = s.d.entLen ∧
      (readReg s .csum).extractLsb' 0 8 = s.d.cs ∧ (readReg s .csum).extractLsb' 8 4 = s.d.csLen ∧
      (readReg s .csum).extractLsb' 16 8 = s.d.csRx ∧ (readReg s .csum).extractLsb' 24 4 = s.d.csRxLen ∧
      (readReg s .spec).extractLsb' 0 5 = s.d.sw ∧ (readReg s .spec).extractLsb' 8 4 = s.d.scsb ∧
      (readReg s .specBits).extractLsb' 0 9 = s.d.sentb ∧ (readReg s .specBits).extractLsb' 16 9 = s.d.sovb ∧
      (readReg s .resultW).extractLsb' 0 5 = s.d.resultW ∧
      ∀ i : Fin 24, (readReg s (.word i)).extractLsb' 0 11 = (s.d.wordAt i.val).idx ∧
        (readReg s (.word i)).getLsbD 15 = (s.d.wordAt i.val).nf := by
  simp -index only [readReg, readWord, wordAt_eq, BitVec.getLsbD_append, BitVec.extractLsb'_append_eq_of_le,
    extractLsb'_append_low, Nat.reduceLeDiff, Nat.reduceSub]
  simp

/-- The reserved bits read 0 (20 R74): each mask, laid out as its register is, is 0 on the named fields. -/
theorem readReg_reservedBits (s : State) :
    readReg s .status &&& 0xFFFF00F0#32 = 0 ∧ readReg s .hexLen &&& 0xFFFFFF00#32 = 0 ∧
      readReg s .entLen &&& 0xFFFFFE00#32 = 0 ∧ readReg s .csum &&& 0xF000F000#32 = 0 ∧
      readReg s .spec &&& 0xFFFFF0E0#32 = 0 ∧ readReg s .specBits &&& 0xFE00FE00#32 = 0 ∧
      readReg s .resultW &&& 0xFFFFFFE0#32 = 0 ∧ ∀ i : Fin 24, readReg s (.word i) &&& 0xFFFF7800#32 = 0 := by
  have status : 0xFFFF00F0#32 = 0xFFFF#16 ++ 0#8 ++ 0xF#4 ++ 0#1 ++ 0#1 ++ 0#1 ++ 0#1 := by decide
  have hexLen : 0xFFFFFF00#32 = 0xFFFFFF#24 ++ 0#8 := by decide
  have entLen : 0xFFFFFE00#32 = 0x7FFFFF#23 ++ 0#9 := by decide
  have csum : 0xF000F000#32 = 0xF#4 ++ 0#4 ++ 0#8 ++ 0xF#4 ++ 0#4 ++ 0#8 := by decide
  have spec : 0xFFFFF0E0#32 = 0xFFFFF#20 ++ 0#4 ++ 0x7#3 ++ 0#5 := by decide
  have specBits : 0xFE00FE00#32 = 0x7F#7 ++ 0#9 ++ 0x7F#7 ++ 0#9 := by decide
  have resultW : 0xFFFFFFE0#32 = 0x7FFFFFF#27 ++ 0#5 := by decide
  have word : 0xFFFF7800#32 = 0xFFFF#16 ++ 0#1 ++ 0xF#4 ++ 0#11 := by decide
  rw [status, hexLen, entLen, csum, spec, specBits, resultW, word]
  simp -index only [readReg, readWord, Status.toWord, BitVec.and_append, BitVec.zero_and, BitVec.and_zero]
  decide

/-- HEX_LEN keeps bits 7:0 of what is written (20 R74). -/
theorem hexLen_written (v : Word) : 0#24 ++ v.extractLsb' 0 8 = v &&& 0x000000FF#32 := by
  have mask : 0x000000FF#32 = 0#24 ++ BitVec.allOnes 8 := by decide
  have parts : v = v.extractLsb' 8 24 ++ v.extractLsb' 0 8 := by
    simp -index only [BitVec.extractLsb'_append_extractLsb'_eq_extractLsb', Nat.reduceAdd, BitVec.extractLsb'_eq_self]
  conv_rhs => rw [mask, parts, BitVec.and_append, BitVec.and_zero, BitVec.and_allOnes]

/-- WORD[i] keeps bits 10:0 and 15 of what is written (20 R74). -/
theorem readWord_wordOf (v : Word) : readWord (wordOf v) = v &&& 0x000087FF#32 := by
  have mask : 0x000087FF#32 = 0#16 ++ BitVec.allOnes 1 ++ 0#4 ++ BitVec.allOnes 11 := by decide
  have parts : v = v.extractLsb' 16 16 ++ v.extractLsb' 15 1 ++ v.extractLsb' 11 4 ++ v.extractLsb' 0 11 := by
    simp -index only [BitVec.extractLsb'_append_extractLsb'_eq_extractLsb', Nat.reduceAdd, BitVec.extractLsb'_eq_self]
  have nf : BitVec.ofBool (v.getLsbD 15) = v.extractLsb' 15 1 := by
    ext i hi
    have : i = 0 := by omega
    simp [this]
  rw [readWord, wordOf, nf]
  conv_rhs => rw [mask, parts]
  simp -index only [BitVec.and_append, BitVec.and_zero, BitVec.and_allOnes]

theorem wordAt_set (d : Data) (i : Fin 24) (r : WordReg) (j : Nat) :
    ({ d with word := d.word.set i r } : Data).wordAt j = if j = i.val then r else d.wordAt j := by
  by_cases hj : j < 24
  · rw [wordAt_eq _ ⟨j, hj⟩, wordAt_eq d ⟨j, hj⟩]
    simp [Vector.getElem_set, eq_comm (a := j)]
  · rw [wordAt_beyond _ _ (by omega), wordAt_beyond _ _ (by omega), if_neg (by omega)]

/-! ## The lanes of HEX_DATA and ENT_DATA (20 R75, R76) -/

/-- The lanes of HEX_DATA[k] in the terms of the claims. -/
theorem readHexData_eq (d : Data) (k : Fin 16) :
    readHexData d k = d.hexAt (4 * k.val) ++ d.hexAt (4 * k.val + 1) ++ d.hexAt (4 * k.val + 2)
      ++ d.hexAt (4 * k.val + 3) := by
  rw [readHexData, ← hexAt_eq, ← hexAt_eq, ← hexAt_eq, ← hexAt_eq]
  rfl

/-- Appending puts the upper part shifted above the lower one, read at any width. -/
theorem setWidth_append_eq_or {v w : Nat} (n : Nat) (x : BitVec v) (y : BitVec w) :
    (x ++ y).setWidth n = x.setWidth n <<< w ||| y.setWidth n := by
  apply BitVec.eq_of_getLsbD_eq
  intro i hi
  by_cases hw : i < w
  · simp [BitVec.getLsbD_append, hi, hw]
  · have hy : y.getLsbD i = false := BitVec.getLsbD_of_ge y i (by omega)
    simp [BitVec.getLsbD_append, hi, hw, hy]

/-- Four lanes as a word, in the form R75 writes it. -/
theorem lanes_eq_or (a b c d : Byte) :
    a ++ b ++ c ++ d =
      a.setWidth 32 <<< 24 ||| b.setWidth 32 <<< 16 ||| c.setWidth 32 <<< 8 ||| d.setWidth 32 := by
  calc a ++ b ++ c ++ d = (a ++ b ++ c ++ d).setWidth 32 := (BitVec.setWidth_eq _).symm
    _ = _ := by simp only [setWidth_append_eq_or, BitVec.shiftLeft_or_distrib, ← BitVec.shiftLeft_add]

/-- The HEX buffer after a write of HEX_DATA[k], character by character. -/
theorem hexAt_writeHexData (d : Data) (k : Fin 16) (v : Word) (j : Nat) :
    ({ d with hex := writeHexData d.hex k v } : Data).hexAt j =
      if j = 4 * k.val + 3 then v.extractLsb' 0 8 else if j = 4 * k.val + 2 then v.extractLsb' 8 8
      else if j = 4 * k.val + 1 then v.extractLsb' 16 8 else if j = 4 * k.val then v.extractLsb' 24 8
      else d.hexAt j := by
  by_cases hj : j < 64
  · rw [hexAt_eq _ ⟨j, hj⟩, hexAt_eq d ⟨j, hj⟩]
    simp [writeHexData, hexLane, Vector.getElem_set, eq_comm (a := j)]
  · have hk := k.isLt
    rw [hexAt_beyond _ _ (by omega), hexAt_beyond _ _ (by omega), if_neg (by omega), if_neg (by omega),
      if_neg (by omega), if_neg (by omega)]

/-- What is written to HEX_DATA[k] is read back. -/
theorem readHexData_writeHexData (d : Data) (k : Fin 16) (v : Word) :
    readHexData { d with hex := writeHexData d.hex k v } k = v := by
  have parts : v = v.extractLsb' 24 8 ++ v.extractLsb' 16 8 ++ v.extractLsb' 8 8 ++ v.extractLsb' 0 8 := by
    simp -index only [BitVec.extractLsb'_append_extractLsb'_eq_extractLsb', Nat.reduceAdd, BitVec.extractLsb'_eq_self]
  conv_rhs => rw [parts]
  simp [readHexData_eq, hexAt_writeHexData]

/-- Bit `31 - m` of ENT_DATA[k] is `ENT⟨32k+m⟩`. -/
theorem getLsbD_readEntData (d : Data) (k : Fin 8) {m : Nat} (hm : m < 32) :
    (readEntData d k).getLsbD (31 - m) = d.ent.getMsbD (32 * k.val + m) := by
  have hk := k.isLt
  have hpos : 224 - 32 * k.val + (31 - m) = 255 - (32 * k.val + m) := by omega
  have hlt : 31 - m < 32 := by omega
  have hlt' : 32 * k.val + m < 256 := by omega
  simp [readEntData, BitVec.getMsbD, hpos, hlt, hlt']

/-- A bit vector's number is `val` of its bits, the most significant first (00 R8). -/
theorem toNat_eq_val {n : Nat} (v : BitVec n) (bit : Nat → Bool) (h : ∀ m, m < n → v.getLsbD (n - 1 - m) = bit m) :
    v.toNat = val ((List.range n).map bit) := by
  have hbits : bitsN n v.toNat = (List.range n).map bit := by
    refine bits_ext (by simp) fun m hm => ?_
    rw [length_bitsN] at hm
    rw [getD_bitsN _ _ _ hm, BitVec.testBit_toNat, h m hm]
    simp [List.getD_eq_getElem?_getD, hm]
  rw [← hbits, val_bitsN, Nat.mod_eq_of_lt v.isLt]

/-! ## The claims about accesses -/

/-- Settles O17: `accessOk` is the contract, and decides between a fault and an answer. -/
theorem accessContract : Obligations.AccessContract := by
  intro off size v s
  rw [← accessOk_iff]
  refine ⟨fun h => ?_, fun h => ⟨memRead_answers h, memWrite_answers h⟩⟩
  rw [Bool.not_eq_true] at h
  exact ⟨memRead_fault h, memWrite_fault h⟩

/-- Settles O20: the map is two inverse functions on the 64 offsets, and the fields are appended in their order. -/
theorem registerMap : Obligations.RegisterMap :=
  ⟨regAt_offset, fun _ => offset_regAt, fun _ => regAt_eq_reserved_iff,
    ⟨rfl, rfl, rfl, rfl, rfl, rfl, rfl, rfl, rfl⟩,
    ⟨fun k => regAt_offset (.hexData k), fun k => regAt_offset (.entData k), fun i => regAt_offset (.word i)⟩,
    fun _ hk => ⟨regAt_isData_iff hk, regAt_isRW_iff hk⟩, readReg_status_fields, readReg_fields⟩

/-- Settles O21: no data register and no host-writable one stands at a reserved offset, and the read-only registers are
not host-writable. -/
theorem reservedAndReadOnly : Obligations.ReservedAndReadOnly := by
  intro off v s h4
  obtain ⟨k, rfl⟩ := Nat.dvd_of_mod_eq_zero h4
  have ignored (hk : k < 64) (hro : ¬(regAt (4 * k)).isRW = true) : memWrite ((4 * k : Nat) : Int) 4 v s = .next s :=
    memWrite_ignored (accessOk_of_window h4 (by omega)) (Bool.not_eq_true _ ▸ hro)
  refine ⟨fun h => ⟨?_, ?_⟩, fun h => ?_⟩
  · have hr := (regAt_eq_reserved_iff (by omega)).2 h
    exact memRead_exact (accessOk_of_window h4 (by omega)) hr (.inl rfl)
  · exact ignored (by omega) (by rw [regAt_isRW_iff (by omega)]; omega)
  · exact ignored (by omega) (by rw [regAt_isRW_iff (by omega)]; omega)

/-- Settles O22: the reserved bits of each register, and each register after it is written. -/
theorem reservedBits : Obligations.ReservedBits := by
  refine ⟨fun s => ⟨rfl, readReg_reservedBits s⟩, fun s v hb => ⟨?cmd, ?wlSize, ?hexLen, fun k => ?hexData,
    fun i => ?word⟩⟩
  case cmd => exact ⟨_, memWrite_reg .cmd v hb, rfl⟩
  case wlSize => exact ⟨_, memWrite_reg .wlSize v hb, rfl, rfl⟩
  case hexLen => exact ⟨_, memWrite_reg .hexLen v hb, hexLen_written v, rfl⟩
  case hexData => exact ⟨_, memWrite_reg (.hexData k) v hb, readHexData_writeHexData s.d k v, rfl⟩
  case word =>
    refine ⟨_, memWrite_reg (.word i) v hb, ?_, fun j hj => ?_, rfl⟩
    · simpa [readReg, writeReg] using readWord_wordOf v
    · simp only [writeReg, wordAt_set, if_neg hj]

/-- Settles O23: the register's four lanes read, and the buffer after they are written. -/
theorem hexDataLanes : Obligations.HexDataLanes := by
  intro s k v hb
  refine ⟨⟨_, memRead_reg (.hexData k) hb, ?_⟩, _, memWrite_reg (.hexData k) v hb, ?_⟩
  · rw [returnWord_env, readReg, readHexData_eq, lanes_eq_or]
  · simp only [writeReg, hexAt_writeHexData]
    refine ⟨by simp, by simp, by simp, by simp, fun j hj => ?_⟩
    rw [if_neg (by omega), if_neg (by omega), if_neg (by omega), if_neg (by omega)]

/-- Settles O24: the word's bits are those of the slice, and so its number is the slice's value. -/
theorem entDataLanes : Obligations.EntDataLanes := by
  intro s k hb
  exact ⟨_, _, memRead_reg (.entData k) hb, rfl, fun _ => getLsbD_readEntData s.d k,
    toNat_eq_val _ _ fun _ => getLsbD_readEntData s.d k⟩

/-- Settles O25: a read leaves the registers, so a second one finds the same contents. -/
theorem sideEffects : Obligations.SideEffects := by
  refine ⟨fun off size s t h => ?read, fun v s hb => ⟨_, memWrite_reg .cmd v hb, rfl, rfl, rfl⟩,
    fun off v s h4 hw hr hb => memWrite_dropped (accessOk_of_window h4 hw) hr hb⟩
  obtain ⟨hregs, hp, ha, ht, hq⟩ := memRead_same h
  refine ⟨hregs, hp, ha, ht, hq, fun hb => ?_⟩
  obtain ⟨hok, -⟩ := memRead_next h
  rw [memRead_exact hok rfl (.inr hb)] at h
  cases h
  exact ⟨_, memRead_exact hok rfl (.inr hb), by simp [readReg_congr hregs]⟩

/-- Settles O26: `memRead_reg`, and a returned word is no register and no draw. -/
theorem idleReadsAreExact : Obligations.IdleReadsAreExact := fun _ r hb =>
  ⟨_, memRead_reg r hb, rfl, (memRead_same (memRead_reg r hb)).1, rfl⟩

/-! ## Steps and the access contract (20 R72, 60 R271, R272, 70 R304) -/

theorem nextOpBad_iff (s : State) :
    s.nextOpBad ↔ ∃ op rest, s.env.program = op :: rest ∧ op.inContract = false := by
  constructor
  · rintro (⟨off, size, rest, hp, h⟩ | ⟨off, size, v, rest, hp, h⟩) <;> exact ⟨_, _, hp, h⟩
  · rintro ⟨op, rest, hp, h⟩
    cases op with
    | read off size => exact .inl ⟨off, size, rest, hp, h⟩
    | write off size v => exact .inr ⟨off, size, v, rest, hp, h⟩
    | poll => cases h

/-- The host's turn goes on where its next operation is inside the contract. -/
theorem hostTurn_answers {s : State} (h : ¬s.nextOpBad) : ∃ t, hostTurn s = .next t := by
  unfold hostTurn
  split
  next => exact ⟨_, rfl⟩
  next off size rest hp =>
    exact memRead_answers (by_contra fun ha => h (.inl ⟨off, size, rest, hp, Bool.not_eq_true _ ▸ ha⟩))
  next off size v rest hp =>
    exact memWrite_answers (by_contra fun ha => h (.inr ⟨off, size, v, rest, hp, Bool.not_eq_true _ ▸ ha⟩))
  next => exact ⟨_, rfl⟩

theorem hostTurn_fault {s : State} (h : s.nextOpBad) : ∃ r, hostTurn s = .fault r := by
  rcases h with ⟨off, size, rest, hp, ha⟩ | ⟨off, size, v, rest, hp, ha⟩
  · exact ⟨_, by rw [hostTurn, hp]; exact memRead_fault ha⟩
  · exact ⟨_, by rw [hostTurn, hp]; exact memWrite_fault ha⟩

/-- Every other agent's turn goes on. -/
theorem takeTurn_answers {tn : Turn} (s : State) (h : tn ≠ .host) : ∃ t, takeTurn tn s = .next t := by
  cases tn with
  | host => exact absurd rfl h
  | block =>
    cases hf : s.fsm with
    | exec =>
      obtain ⟨t, ht, -⟩ := blockTurn_exec hf
      exact ⟨t, ht⟩
    | idle => exact ⟨s, by rw [takeTurn, blockTurn, hf]⟩
    | rngWait g => exact ⟨s, by rw [takeTurn, blockTurn, hf]⟩
  | source =>
    cases ha : s.env.answers with
    | nil => exact ⟨_, by rw [takeTurn, sourceTurn, ha]⟩
    | cons a rest => exact ⟨_, by rw [takeTurn, sourceTurn, ha]⟩
  | reset => exact ⟨_, rfl⟩

theorem step_answers {s : State} (h : ¬(s.nextTurn = .host ∧ s.nextOpBad)) : ∃ t, step s = .next t := by
  rw [step_eq]
  by_cases ht : s.nextTurn = .host
  · rw [ht]
    exact hostTurn_answers fun hbad => h ⟨ht, hbad⟩
  · exact takeTurn_answers _ ht

theorem step_fault {s : State} (ht : s.nextTurn = .host) (hbad : s.nextOpBad) : ∃ r, step s = .fault r := by
  rw [step_eq, ht]
  exact hostTurn_fault (s := s.popTurn) hbad

/-- Settles O18: a step faults where the host's next operation is bad, and goes on everywhere else. -/
theorem onlyHostAccessFaults : Obligations.OnlyHostAccessFaults := by
  intro s
  by_cases h : s.nextTurn = .host ∧ s.nextOpBad
  · obtain ⟨r, hr⟩ := step_fault h.1 h.2
    exact ⟨iff_of_true ⟨r, hr⟩ h, fun r' h' => by rw [hr] at h'; cases h'⟩
  · obtain ⟨t, ht⟩ := step_answers h
    exact ⟨iff_of_false (fun ⟨r, hr⟩ => by rw [ht] at hr; cases hr) h, fun r' h' => by rw [ht] at h'; cases h'⟩

/-! ## What each move leaves of the environment -/

theorem exec_program {i : Instr} {s t : State} (h : exec i s = .next t) : t.env.program = s.env.program := by
  cases exec_outcome h with
  | raised | committed | requested => rfl

theorem rngAnswer_env (a : RngAnswer) (s : State) : (rngAnswer a s).env = s.env := by
  rcases rngAnswer_cases a s with ⟨g, draw, -, -, h⟩ | ⟨g, -, -, h⟩ | ⟨-, h⟩ <;> rw [h]
  · rfl
  · rfl

theorem pollStatus_requests (rest : List HostOp) (s : State) :
    (pollStatus rest s).env.requests = s.env.requests := by
  unfold pollStatus
  split <;> rfl

/-- A poll stays in the program while BUSY = 1 (30 R119). -/
theorem pollStatus_program (rest : List HostOp) (s : State) :
    (pollStatus rest s).env.program = if s.status.busy then s.env.program else rest := by
  unfold pollStatus
  split <;> rfl

/-- A move takes at most the first operation of the host's program. -/
theorem Moves.program_suffix {s t : State} {tn : Turn} (h : Moves s tn t) : t.env.program <:+ s.env.program := by
  cases h with
  | hostDone | blockIdle | noAnswer | illegal | reset => exact List.suffix_rfl
  | read off rest _ hp h =>
    obtain ⟨-, hrest, -⟩ := memRead_same h
    rw [hrest, hp]
    exact List.suffix_cons _ _
  | write off v rest _ hp h =>
    rw [memWrite_env h, hp]
    exact List.suffix_cons _ _
  | poll rest hp =>
    rw [pollStatus_program, hp]
    split
    · exact List.suffix_rfl
    · exact List.suffix_cons _ _
  | executed i _ hf hd h => rw [exec_program h]
  | answered a rest ha => rw [rngAnswer_env]

/-- Settles O19: an operation inside the contract is not the one that faults, and the program only gets shorter. -/
theorem contractKeepsRunSafe : Obligations.ContractKeepsRunSafe := by
  intro s hs
  have hgood : ¬s.nextOpBad := by
    rw [nextOpBad_iff]
    rintro ⟨op, rest, hp, hbad⟩
    rw [hs op (by simp [hp])] at hbad
    cases hbad
  obtain ⟨t, ht⟩ := step_answers fun h => hgood h.2
  exact ⟨t, ht, fun op hop => hs op ((step_moves ht).program_suffix.subset hop)⟩

/-! ## A running command (20 R85, R88; 43 R234) -/

/-- A move that finds BUSY = 1 and leaves it writes no operand register. -/
theorem Moves.latched {s t : State} {tn : Turn} (h : Moves s tn t) (hb : s.status.busy = true)
    (hb' : t.status.busy = true) : t.lastCmd = s.lastCmd ∧ t.d = s.d ∧ t.wlSize = s.wlSize := by
  cases h with
  | hostDone | blockIdle | noAnswer => exact ⟨rfl, rfl, rfl⟩
  | read off rest _ hp h =>
    obtain ⟨⟨hl, -, hw, hd, -⟩, -⟩ := memRead_same h
    exact ⟨hl, hd, hw⟩
  | write off v rest _ hp h => rcases memWrite_busy h hb with rfl | rfl <;> exact ⟨rfl, rfl, rfl⟩
  | poll rest hp =>
    obtain ⟨hl, -, hw, hd, -⟩ := pollStatus_same rest s
    exact ⟨hl, hd, hw⟩
  | illegal hf => cases hb'
  | executed i _ hf hd h =>
    cases exec_outcome h with
    | raised | committed => cases hb'
    | requested => exact ⟨rfl, rfl, rfl⟩
  | answered a rest ha =>
    rcases rngAnswer_cases a { s with env := { s.env with answers := rest } } with
      ⟨g, draw, -, -, h⟩ | ⟨g, -, -, h⟩ | ⟨-, h⟩ <;> rw [h] at hb' ⊢
    · cases hb'
    · cases hb'
    · exact ⟨rfl, rfl, rfl⟩
  | reset => cases hb'

/-- Settles O27: acceptance latches the word, and the moves between two BUSY states leave what it runs on. -/
theorem commandIsLatched : Obligations.CommandIsLatched :=
  ⟨fun _ v hb => ⟨_, memWrite_reg .cmd v hb, rfl⟩, fun _ _ hb h hb' => (step_moves h).latched hb hb'⟩

/-- A move leaves the requests, or it is the execution step of a GENERATE that passed its checks. -/
theorem Moves.requests {s t : State} {tn : Turn} (h : Moves s tn t) :
    t.env.requests = s.env.requests ∨
      ∃ w sp, s.fsm = .exec ∧ decode s.lastCmd = .ok (.generate w) ∧ specFromW w = some sp ∧ s.wlSize = 2048 ∧
        t = requestEntropy sp s := by
  cases h with
  | hostDone | blockIdle | noAnswer | illegal | reset => exact .inl rfl
  | read off rest _ hp h =>
    obtain ⟨-, -, -, -, hq⟩ := memRead_same h
    exact .inl hq
  | write off v rest _ hp h => exact .inl (by rw [memWrite_env h])
  | poll rest hp => exact .inl (pollStatus_requests rest s)
  | executed i _ hf hd h =>
    obtain ⟨t', ht', hends⟩ := exec_ends i s
    rw [h] at ht'
    cases ht'
    cases hends with
    | raised | completed => exact .inl rfl
    | requested w sp hi hsp hw => exact .inr ⟨w, sp, hf, hi ▸ hd, hsp, hw, rfl⟩
  | answered a rest ha => exact .inl (by rw [rngAnswer_env])

/-- Settles O33: the row of a valid word count gives the request its number of bytes. -/
theorem requestsOnlyFromGenerate : Obligations.RequestsOnlyFromGenerate := by
  intro s t h
  rcases (step_moves h).requests with hq | ⟨w, sp, hf, hd, hsp, hw, rfl⟩
  · exact .inl hq
  · obtain ⟨hr, rfl⟩ := specFromW_some hsp
    obtain ⟨hvalid, -⟩ := specRows_sizes hr
    obtain ⟨-, hbits, -, hn⟩ := specRows_formulas hr
    exact .inr ⟨sp.w, sp.entropyBits / 8, hf, hd, hvalid, hw, by rw [hbits], hn, rfl, sp, rfl⟩

/-- Settles O32: outside RNG_WAIT an answer leaves the state that has lost it. -/
theorem strayAnswersDiscarded : Obligations.StrayAnswersDiscarded := by
  intro s a rest hf ha
  rw [sourceTurn, ha]
  rcases rngAnswer_cases a { s with env := { s.env with answers := rest } } with ⟨g, -, hg, -⟩ | ⟨g, hg, -⟩ | ⟨-, h⟩
  · exact absurd hg (hf g)
  · exact absurd hg (hf g)
  · exact congrArg _ h

end Sys2Proof.Machine

/-! # The command word (family `30_encoding.md`)

A command word is its six fields (`word_eq_iff`). Both the rows of R113 and the encoder are read field by field
(`Row.selects_iff_fields`, `commandWord_eq_iff`), and so a row selects exactly the words of the commands it builds
(`Row.selects_iff_encode_build`). With at most one row selecting a word, decoding is the inverse of encoding
(`decode_eq_ok_iff`); the claims about words are uses of it. The claims about steps follow the decoded command through
the block's turn (`blockTurn_of_decode`, `blockTurn_of_illegal`) and the host's (`step_writeCmd`, `step_poll`). -/

namespace Sys2Proof

open Sys2Proof.Laws.EncodedFields (operands commandWord_bit commandWord_fields)

/-! ## The fields of a word (10 R33, 30 R110) -/

theorem fieldW_lt (v : Word) : fieldW v < 256 := (v.extractLsb' 16 8).isLt

/-- A word is its six fields, appended. -/
theorem word_eq_append (v : Word) :
    v = fieldRsvHigh v ++ BitVec.ofNat 8 (fieldW v) ++ fieldRsvMid v ++ BitVec.ofBool (fieldVfy v)
      ++ fieldRsvLow v ++ fieldOpc v := by
  have vfy : BitVec.ofBool (fieldVfy v) = v.extractLsb' 8 1 := by
    ext i hi
    have : i = 0 := by omega
    simp [this, fieldVfy]
  rw [vfy, fieldW, BitVec.ofNat_toNat, BitVec.setWidth_eq]
  simp -index only [fieldRsvHigh, fieldRsvMid, fieldRsvLow, fieldOpc,
    BitVec.extractLsb'_append_extractLsb'_eq_extractLsb', Nat.reduceAdd, BitVec.extractLsb'_eq_self]

theorem fieldsReserved_eq_false_iff (v : Word) :
    fieldsReserved v = false ↔ fieldRsvHigh v = 0 ∧ fieldRsvMid v = 0 ∧ fieldRsvLow v = 0 := by
  simp [fieldsReserved]

/-- Two words whose reserved fields are 0 are the same where W, VFY and OPC are. -/
theorem word_eq_iff {u v : Word} (hu : fieldsReserved u = false) :
    v = u ↔ fieldsReserved v = false ∧ fieldW v = fieldW u ∧ fieldVfy v = fieldVfy u ∧ fieldOpc v = fieldOpc u := by
  constructor
  · rintro rfl
    exact ⟨hu, rfl, rfl, rfl⟩
  · rintro ⟨hv, hW, hV, hO⟩
    obtain ⟨uHigh, uMid, uLow⟩ := (fieldsReserved_eq_false_iff u).1 hu
    obtain ⟨vHigh, vMid, vLow⟩ := (fieldsReserved_eq_false_iff v).1 hv
    rw [word_eq_append u, word_eq_append v, uHigh, uMid, uLow, vHigh, vMid, vLow, hW, hV, hO]

/-- The word that `commandWord` lays out is known by its fields. -/
theorem commandWord_eq_iff (w : Nat) (b : Bool) (o : Nat) (v : Word) :
    commandWord w b o = v ↔
      fieldsReserved v = false ∧ fieldW v = w % 256 ∧ fieldVfy v = b ∧ (fieldOpc v).toNat = o % 32 := by
  obtain ⟨hHigh, hW, hMid, hV, hLow, hO⟩ := commandWord_fields w b o
  rw [eq_comm, word_eq_iff ((fieldsReserved_eq_false_iff _).2 ⟨hHigh, hMid, hLow⟩), hW, hV, ← BitVec.toNat_inj, hO]

theorem fieldW_commandWord {w : Nat} (hw : w ≤ 255) (b : Bool) (o : Nat) : fieldW (commandWord w b o) = w := by
  obtain ⟨-, hW, -⟩ := commandWord_fields w b o
  rw [hW, Nat.mod_eq_of_lt (by omega)]

/-- W stands alone in bits 23:16 of a word, the rest as without it. -/
theorem commandWord_eq_or {w : Nat} (hw : w ≤ 255) (b : Bool) (o : Nat) :
    commandWord w b o = commandWord 0 b o ||| BitVec.ofNat 32 w <<< 16 := by
  apply BitVec.eq_of_getLsbD_eq
  intro i hi
  have hbits (h : 24 ≤ i) : w.testBit (i - 16) = false :=
    Nat.testBit_lt_two_pow (lt_of_lt_of_le (b := 2 ^ 8) (by omega) (Nat.pow_le_pow_right (by omega) (by omega)))
  rw [BitVec.getLsbD_or, commandWord_bit, commandWord_bit, BitVec.getLsbD_shiftLeft, BitVec.getLsbD_ofNat]
  by_cases h16 : i < 16
  · simp [h16]
  · have h32 : i - 16 < 32 := by omega
    have hlow : ¬i < 5 ∧ ¬i < 8 ∧ ¬i < 9 := by omega
    by_cases h24 : i < 24
    · simp [h16, h24, h32, hlow, hi]
    · simp [h16, h24, hlow, hbits (by omega)]

/-! ## The rows of R113 -/

/-- How the rows are laid out: every mask covers OPC and the reserved fields, and covers W whole or not at all; a
`match` is 0 outside OPC. -/
theorem opcodeTable_layout : ∀ r ∈ opcodeTable,
    fieldRsvHigh r.mask = BitVec.allOnes 8 ∧ fieldRsvMid r.mask = BitVec.allOnes 7 ∧
      fieldRsvLow r.mask = BitVec.allOnes 3 ∧ fieldOpc r.mask = BitVec.allOnes 5 ∧
      (fieldW r.mask = 0 ∨ fieldW r.mask = 255) ∧
      fieldsReserved r.fixed = false ∧ fieldW r.fixed = 0 ∧ fieldVfy r.fixed = false := by decide

theorem fieldW_and (v m : Word) : fieldW (v &&& m) = fieldW v &&& fieldW m := by
  simp only [fieldW, BitVec.extractLsb'_and, BitVec.toNat_and]

theorem fieldVfy_and (v m : Word) : fieldVfy (v &&& m) = (fieldVfy v && fieldVfy m) := BitVec.getLsbD_and

/-- A row selects the words whose reserved fields are 0, whose W and VFY are 0 where its mask covers them, and that have
its opcode. -/
theorem Row.selects_iff_fields {r : Row} (hr : r ∈ opcodeTable) (v : Word) :
    r.selects v = true ↔ fieldsReserved v = false ∧ (fieldW r.mask = 0 ∨ fieldW v = 0) ∧
      (fieldVfy r.mask = false ∨ fieldVfy v = false) ∧ fieldOpc v = fieldOpc r.fixed := by
  obtain ⟨mHigh, mMid, mLow, mOpc, mW, fRsv, fW, fVfy⟩ := opcodeTable_layout r hr
  have hRsv : fieldsReserved (v &&& r.mask) = false ↔ fieldsReserved v = false := by
    simp only [fieldRsvHigh, fieldRsvMid, fieldRsvLow] at mHigh mMid mLow
    simp only [fieldsReserved_eq_false_iff, fieldRsvHigh, fieldRsvMid, fieldRsvLow, BitVec.extractLsb'_and, mHigh,
      mMid, mLow, BitVec.and_allOnes]
  have hOpc : fieldOpc (v &&& r.mask) = fieldOpc v := by
    simp only [fieldOpc] at mOpc
    simp only [fieldOpc, BitVec.extractLsb'_and, mOpc, BitVec.and_allOnes]
  have hW : fieldW (v &&& r.mask) = 0 ↔ fieldW r.mask = 0 ∨ fieldW v = 0 := by
    rw [fieldW_and]
    rcases mW with h | h
    · simp [h]
    · have hand : fieldW v &&& 255 = fieldW v :=
        (Nat.and_two_pow_sub_one_eq_mod _ 8).trans (Nat.mod_eq_of_lt (fieldW_lt v))
      simp [h, hand]
  have hVfy : fieldVfy (v &&& r.mask) = false ↔ fieldVfy r.mask = false ∨ fieldVfy v = false := by
    rw [fieldVfy_and, Bool.and_eq_false_iff, or_comm]
  rw [Row.selects, decide_eq_true_eq, word_eq_iff fRsv, hRsv, hOpc, fW, fVfy, hW, hVfy]

/-- At most one row selects a word: the opcodes of the rows differ (30 R113). -/
theorem Row.eq_of_selects {r₁ r₂ : Row} {v : Word} (h₁ : r₁ ∈ opcodeTable) (h₂ : r₂ ∈ opcodeTable)
    (hs₁ : r₁.selects v = true) (hs₂ : r₂.selects v = true) : r₁ = r₂ := by
  have hnodup : (opcodeTable.map fun r => fieldOpc r.fixed).Nodup := by decide
  obtain ⟨-, -, -, ho₁⟩ := (selects_iff_fields h₁ v).1 hs₁
  obtain ⟨-, -, -, ho₂⟩ := (selects_iff_fields h₂ v).1 hs₂
  exact List.inj_on_of_nodup_map hnodup h₁ h₂ (ho₁.symm.trans ho₂)

/-- The operands a row builds: its own opcode, and W and VFY where its mask leaves them free. -/
theorem Row.operands_build (v : Word) : ∀ r ∈ opcodeTable, operands (r.build v) =
    ((fieldOpc r.fixed).toNat, if fieldW r.mask = 0 then fieldW v else 0, !fieldVfy r.mask && fieldVfy v) := by
  simp only [opcodeTable, List.forall_mem_cons]
  exact ⟨rfl, rfl, rfl, rfl, rfl, rfl, rfl, rfl, rfl, rfl, rfl, by simp⟩

theorem encode_eq_commandWord (i : Instr) :
    encode i = commandWord (operands i).2.1 (operands i).2.2 (operands i).1 := by
  cases i <;> rfl

/-- A row selects exactly the words of the commands it builds. -/
theorem Row.selects_iff_encode_build {r : Row} (hr : r ∈ opcodeTable) (v : Word) :
    r.selects v = true ↔ encode (r.build v) = v := by
  have hW := fieldW_lt v
  have hWif : fieldW v = (if fieldW r.mask = 0 then fieldW v else 0) % 256 ↔ fieldW r.mask = 0 ∨ fieldW v = 0 := by
    split <;> omega
  have hVfy : (fieldVfy v = (!fieldVfy r.mask && fieldVfy v)) ↔ fieldVfy r.mask = false ∨ fieldVfy v = false := by
    cases fieldVfy r.mask <;> simp
  rw [selects_iff_fields hr, encode_eq_commandWord, operands_build v r hr, commandWord_eq_iff, hWif, hVfy,
    Nat.mod_eq_of_lt (fieldOpc r.fixed).isLt, BitVec.toNat_inj]

/-- A row builds a well-formed command: W has 8 bits. -/
theorem Row.wf_build (v : Word) : ∀ r ∈ opcodeTable, (r.build v).wf = true := by
  have hW : decide (fieldW v ≤ 255) = true := decide_eq_true (Nat.le_of_lt_succ (fieldW_lt v))
  simp only [opcodeTable, List.forall_mem_cons]
  exact ⟨hW, rfl, rfl, rfl, rfl, rfl, hW, rfl, rfl, hW, hW, by simp⟩

/-! ## Decoding -/

/-- Decoding answers the command of the row that selects the word. -/
theorem decode_eq_ok_iff_row (v : Word) (i : Instr) :
    decode v = .ok i ↔ ∃ r ∈ opcodeTable, r.selects v = true ∧ r.build v = i := by
  have selects {r : Row} (h : opcodeTable.find? (fun r : Row => r.selects v) = some r) : r.selects v = true :=
    List.find?_some (p := fun r : Row => r.selects v) h
  unfold decode
  constructor
  · intro h
    split at h
    next r hfind =>
      cases h
      exact ⟨r, List.mem_of_find?_eq_some hfind, selects hfind, rfl⟩
    next => cases h
  · rintro ⟨r, hr, hs, rfl⟩
    obtain ⟨r', hfind⟩ := Option.isSome_iff_exists.1
      (List.find?_isSome (p := fun r : Row => r.selects v).2 ⟨r, hr, hs⟩)
    rw [hfind, Row.eq_of_selects (List.mem_of_find?_eq_some hfind) hr (selects hfind) hs]

/-- The row at position `k` of the table decodes the words it selects. -/
theorem decode_of_row {v : Word} (k : Fin 11) (h : opcodeTable[k].selects v = true) :
    decode v = .ok (opcodeTable[k].build v) :=
  (decode_eq_ok_iff_row v _).2 ⟨_, List.getElem_mem _, h, rfl⟩

/-- A word is legal exactly when some row selects it (30 R115). -/
theorem decode_ok_iff_selects (v : Word) :
    (∃ i, decode v = .ok i) ↔ ∃ r ∈ opcodeTable, r.selects v = true := by
  simp only [decode_eq_ok_iff_row]
  exact ⟨fun ⟨_, r, hr, hs, _⟩ => ⟨r, hr, hs⟩, fun ⟨r, hr, hs⟩ => ⟨_, r, hr, hs, rfl⟩⟩

theorem decode_ne_ok_of_no_row {v : Word} (h : ∀ r ∈ opcodeTable, r.selects v = false) (i : Instr) :
    decode v ≠ .ok i := by
  intro hi
  obtain ⟨r, hr, hs⟩ := (decode_ok_iff_selects v).1 ⟨i, hi⟩
  rw [h r hr] at hs
  cases hs

/-- Every well-formed command has a row that builds it from its word. -/
theorem exists_row_build_encode {i : Instr} (h : i.wf = true) : ∃ r ∈ opcodeTable, r.build (encode i) = i := by
  have row (k : Fin 11) (hk : opcodeTable[k].build (encode i) = i) : ∃ r ∈ opcodeTable, r.build (encode i) = i :=
    ⟨_, List.getElem_mem _, hk⟩
  cases i with
  | specw w => exact row 0 (congrArg Instr.specw (fieldW_commandWord (of_decide_eq_true h) _ _))
  | spece => exact row 1 rfl
  | hex2bits => exact row 2 rfl
  | bits2hex => exact row 3 rfl
  | csum => exact row 4 rfl
  | pack => exact row 5 rfl
  | unpack w => exact row 6 (congrArg Instr.unpack (fieldW_commandWord (of_decide_eq_true h) _ _))
  | cschk => exact row 7 rfl
  | encode => exact row 8 rfl
  | generate w => exact row 9 (congrArg Instr.generate (fieldW_commandWord (of_decide_eq_true h) _ _))
  | decode w vfy =>
    exact row 10 (congrArg₂ Instr.decode (fieldW_commandWord (of_decide_eq_true h) _ _) (commandWord_bit w vfy _ 8))

/-- Decoding is the inverse of encoding on the well-formed commands. -/
theorem decode_eq_ok_iff (v : Word) (i : Instr) : decode v = .ok i ↔ i.wf = true ∧ encode i = v := by
  rw [decode_eq_ok_iff_row]
  constructor
  · rintro ⟨r, hr, hs, rfl⟩
    exact ⟨Row.wf_build v r hr, (Row.selects_iff_encode_build hr v).1 hs⟩
  · rintro ⟨hwf, rfl⟩
    obtain ⟨r, hr, hb⟩ := exists_row_build_encode hwf
    exact ⟨r, hr, (Row.selects_iff_encode_build hr _).2 (congrArg encode hb), hb⟩

theorem decode_encode {i : Instr} (h : i.wf = true) : decode (encode i) = .ok i := (decode_eq_ok_iff _ i).2 ⟨h, rfl⟩

/-- The words of the five operand forms (30 R117). -/
theorem encode_operandForms {w : Nat} (hw : w ≤ 255) :
    encode (.specw w) = 0x00000001#32 ||| BitVec.ofNat 32 w <<< 16 ∧
      encode (.unpack w) = 0x00000007#32 ||| BitVec.ofNat 32 w <<< 16 ∧
      encode (.generate w) = 0x0000000A#32 ||| BitVec.ofNat 32 w <<< 16 ∧
      encode (.decode w false) = 0x0000000B#32 ||| BitVec.ofNat 32 w <<< 16 ∧
      encode (.decode w true) = 0x0000010B#32 ||| BitVec.ofNat 32 w <<< 16 :=
  ⟨commandWord_eq_or hw false 0x01, commandWord_eq_or hw false 0x07, commandWord_eq_or hw false 0x0A,
    commandWord_eq_or hw false 0x0B, commandWord_eq_or hw true 0x0B⟩

/-- The opcodes of the rows, and which rows leave W and VFY free (30 R113): a word's opcode, whether its W is not 0 and
its VFY are allowed by some row exactly where R115 allows them. -/
theorem exists_row_opcode_iff : ∀ (o : BitVec 5) (hasW vfy : Bool),
    (∃ r ∈ opcodeTable, (fieldW r.mask = 0 ∨ hasW = false) ∧ (fieldVfy r.mask = false ∨ vfy = false) ∧
        o = fieldOpc r.fixed) ↔
      1 ≤ o.toNat ∧ o.toNat ≤ 0x0B ∧ (hasW = true → o.toNat ∈ [0x01, 0x07, 0x0A, 0x0B]) ∧
        (vfy = true → o.toNat = 0x0B) := by
  decide

end Sys2Proof

namespace Sys2Proof.Machine

/-! ## The claims about words -/

/-- Settles O1: a well-formed command has a row that builds it, which selects its word. -/
theorem decodeOfEncode : Obligations.DecodeOfEncode := fun _ => decode_encode

/-- Settles O2: the row that selects the word builds a command with that word. -/
theorem encodeOfDecode : Obligations.EncodeOfDecode := fun v i => (decode_eq_ok_iff v i).1

/-- Settles O3: each clause is a row of the table; the rows' opcodes differ. -/
theorem decodeFollowsPatterns : Obligations.DecodeFollowsPatterns := by
  intro v
  have row (k : Fin 11) (h : v &&& opcodeTable[k].mask = opcodeTable[k].fixed) :
      decode v = .ok (opcodeTable[k].build v) := decode_of_row k (decide_eq_true h)
  refine ⟨row 0, row 1, row 2, row 3, row 4, row 5, row 6, row 7, row 8, row 9, row 10,
    fun r₁ h₁ r₂ h₂ hs₁ hs₂ => congrArg Row.fixed (Row.eq_of_selects h₁ h₂ hs₁ hs₂), fun h => ?_⟩
  cases hd : decode v with
  | ok i => exact absurd hd (decode_ne_ok_of_no_row h i)
  | error e => exact ⟨e, rfl⟩

/-- Settles O4: the reserved fields are the same for every row, and what a row asks of the other fields is read off
the table for each of the 32 opcodes. -/
theorem legalWordFields : Obligations.LegalWordFields := by
  intro v
  refine ⟨?_, decode_ok_iff_selects v⟩
  have hW : fieldW v = 0 ↔ decide (v.extractLsb' 16 8 ≠ 0#8) = false := by
    rw [fieldW, decide_eq_false_iff_not, not_not, ← BitVec.toNat_inj]
    rfl
  calc (∃ i, decode v = .ok i)
    _ ↔ ∃ r ∈ opcodeTable, r.selects v = true := decode_ok_iff_selects v
    _ ↔ fieldsReserved v = false ∧ ∃ r ∈ opcodeTable,
          (fieldW r.mask = 0 ∨ decide (v.extractLsb' 16 8 ≠ 0#8) = false) ∧
          (fieldVfy r.mask = false ∨ fieldVfy v = false) ∧ fieldOpc v = fieldOpc r.fixed := by
      rw [← hW]
      constructor
      · rintro ⟨r, hr, hs⟩
        obtain ⟨hrsv, h⟩ := (Row.selects_iff_fields hr v).1 hs
        exact ⟨hrsv, r, hr, h⟩
      · rintro ⟨hrsv, r, hr, h⟩
        exact ⟨r, hr, (Row.selects_iff_fields hr v).2 ⟨hrsv, h⟩⟩
    _ ↔ _ := by
      rw [exists_row_opcode_iff, fieldsReserved_eq_false_iff, decide_eq_true_eq]
      simp only [fieldRsvHigh, fieldRsvMid, fieldRsvLow, fieldOpc, fieldVfy]
      tauto

/-- Settles O5: the words of the operand forms; the assembler rejects what is not well-formed. -/
theorem assemblerWords : Obligations.AssemblerWords := by
  refine ⟨fun w hw => ?_, fun w hw => ?_, rfl, rfl, rfl, rfl, rfl, rfl, rfl⟩
  · obtain ⟨h1, h2, h3, h4, h5⟩ := encode_operandForms hw
    simp only [assemble, Instr.wf, decide_eq_true hw, if_true, h1, h2, h3, h4, h5, and_self]
  · have hw' : ¬w ≤ 255 := by omega
    simp only [assemble, Instr.wf, decide_eq_false hw', Bool.false_eq_true, if_false, implies_true, and_self]

/-- Settles O6: each word is the command's own. -/
theorem writtenWordsDecode : Obligations.WrittenWordsDecode :=
  ⟨decode_encode (i := .specw 15) rfl, decode_encode (i := .spece) rfl, decode_encode (i := .pack) rfl,
    decode_encode (i := .unpack 12) rfl, decode_encode (i := .encode) rfl, decode_encode (i := .generate 15) rfl,
    decode_encode (i := .decode 12 true) rfl⟩

/-! ## A latched word's execution (30 R116, R119; 43 R220) -/

/-- The execution step of a latched word that decodes. -/
theorem blockTurn_of_decode {s : State} {i : Instr} (hf : s.fsm = .exec) (hd : decode s.lastCmd = .ok i) :
    blockTurn s = exec i s := by
  simp only [blockTurn, hf, execStep, fetch, hd]

/-- The execution step of a latched word that no row selects (30 R116). -/
theorem blockTurn_of_illegal {s : State} (hf : s.fsm = .exec) (h : ∀ r ∈ opcodeTable, r.selects s.lastCmd = false) :
    blockTurn s = .next (raise .illegalCommand s) := by
  obtain ⟨t, ht, ⟨i, hd, -⟩ | ⟨-, rfl⟩⟩ := blockTurn_exec hf
  · exact absurd hd (decode_ne_ok_of_no_row h i)
  · exact ht

/-- The commands that take a word count check it first (30 R116, 60 R268). -/
theorem exec_invalidW {w : Nat} (h : validW w = false) (s : State) :
    exec (.specw w) s = .next (raise .invalidWordCount s) ∧ exec (.unpack w) s = .next (raise .invalidWordCount s) ∧
      exec (.generate w) s = .next (raise .invalidWordCount s) ∧
      ∀ vfy, exec (.decode w vfy) s = .next (raise .invalidWordCount s) := by
  simp only [exec, execSpecw, execUnpack, execGenerate, execDecode, specFromW_none.2 h, implies_true, and_self]

/-- A command that is no GENERATE ends in its execution step. -/
theorem exec_ended {i : Instr} (h : ∀ w, i ≠ .generate w) (s : State) :
    ∃ t c, exec i s = .next t ∧ s.Ended c t := by
  obtain ⟨t, ht, hends⟩ := exec_ends i s
  cases hends with
  | raised c _ =>
    obtain ⟨hended, -⟩ := raised_raise c s
    exact ⟨_, c, ht, hended⟩
  | completed c d _ => exact ⟨_, c, ht, ended_complete c d s⟩
  | requested w _ hi => exact absurd hi (h w)

/-- With no turn chosen a step is the default one (log entry 3). -/
theorem step_default {s : State} (h : s.env.turns = []) : step s = takeTurn (defaultTurn s) s := by
  simp only [step, agentStep, h]

theorem core_run_succ {s t : State} (k : Nat) (h : step s = .next t) :
    Sys2Proof.core.run (k + 1) s = Sys2Proof.core.run k t := by
  have hcore : Sys2Proof.core.step s = .next t := h
  simp only [Host.Core.run, hcore]

/-- In IDLE the host's write of a command word to CMD accepts it. -/
theorem step_writeCmd {s : State} {v : Word} {rest : List HostOp} (ht : s.env.turns = []) (hf : s.fsm = .idle)
    (hb : s.status.busy = false) (hp : s.env.program = wr .cmd v :: rest) :
    step s = .next (accept v { s with env := { s.env with program := rest } }) := by
  simp only [step_default ht, defaultTurn, hf, takeTurn, hostTurn, hp, wr]
  exact memWrite_reg .cmd v hb

/-- After the acceptance of a command's word the block executes the command. -/
theorem step_accepted {s : State} {i : Instr} (hwf : i.wf = true) (ht : s.env.turns = []) :
    step (accept (encode i) s) = exec i (accept (encode i) s) :=
  (step_default (s := accept (encode i) s) ht).trans (blockTurn_of_decode (s := accept _ s) rfl (decode_encode hwf))

/-- In IDLE with BUSY = 0 the host's poll reads STATUS and is over (30 R119). -/
theorem step_poll {s : State} {rest : List HostOp} (ht : s.env.turns = []) (hf : s.fsm = .idle)
    (hb : s.status.busy = false) (hp : s.env.program = .poll :: rest) :
    step s = .next { s with env := { s.env with program := rest, readData := some s.status.toWord } } := by
  have hturn : defaultTurn s = .host := by rw [defaultTurn, hf]
  simp only [step_default ht, hturn, takeTurn, hostTurn, hp, pollStatus, hb, Bool.false_eq_true, if_false]
  rfl

/-- Settles O8: the CMD write latches any word; one that no row selects raises IllegalCommand, and one with a word
count that is not valid decodes to a command that refuses it. -/
theorem illegalWordCompletes : Obligations.IllegalWordCompletes := by
  constructor
  · intro s v hb hv
    exact ⟨accept v s, raise .illegalCommand (accept v s), memWrite_reg .cmd v hb, rfl, rfl, rfl,
      blockTurn_of_illegal rfl hv, raised_raise _ _, rfl, rfl, rfl, rfl, rfl⟩
  · intro s w hw hv hf hword
    have run (i : Instr) (hwf : i.wf = true) (hl : s.lastCmd = encode i)
        (he : exec i s = .next (raise .invalidWordCount s)) :
        ∃ u, blockTurn s = .next u ∧ s.Raised .invalidWordCount u :=
      ⟨_, (blockTurn_of_decode hf (hl ▸ decode_encode hwf)).trans he, raised_raise _ _⟩
    obtain ⟨h1, h2, h3, h4, h5⟩ := encode_operandForms hw
    obtain ⟨e1, e2, e3, e4⟩ := exec_invalidW hv s
    have hwf := decide_eq_true hw
    rcases hword with h | h | h | h | h
    · exact run (.specw w) hwf (h.trans h1.symm) e1
    · exact run (.unpack w) hwf (h.trans h2.symm) e2
    · exact run (.generate w) hwf (h.trans h3.symm) e3
    · exact run (.decode w false) hwf (h.trans h4.symm) (e4 false)
    · exact run (.decode w true) hwf (h.trans h5.symm) (e4 true)

/-- Settles O34: the three steps are the CMD write, the execution step, which ends the command, and the poll. -/
theorem runExecutesCommand : Obligations.RunExecutesCommand := by
  intro i s rest hwf hgen hf hb hturns hp
  obtain ⟨t, c, ht, hended⟩ :=
    exec_ended hgen (accept (encode i) { s with env := { s.env with program := .poll :: rest } })
  have write := step_writeCmd (rest := .poll :: rest) hturns hf hb hp
  have execute : step (accept (encode i) { s with env := { s.env with program := .poll :: rest } }) = .next t := by
    rw [step_accepted hwf, ht]
    exact hturns
  have poll := step_poll (by rw [hended.env]; exact hturns) hended.fsm hended.busy (by rw [hended.env]; rfl)
  have three := (core_run_succ 2 write).trans ((core_run_succ 1 execute).trans (core_run_succ 0 poll))
  exact ⟨t, _, ht, three, rfl, rfl, rfl, rfl, hended.fsm, hended.wlSize, hended.lastCmd⟩

/-- Settles O9: a step is the next turn, and the block's turn in EXEC runs the latched command. -/
theorem stepRunsDecodedCommand : Obligations.StepRunsDecodedCommand := by
  intro s i hf ht hd
  rw [step_eq, ht]
  exact blockTurn_of_decode (s := s.popTurn) hf hd

end Sys2Proof.Machine

/-! # EntropySpec resolution (family `40_entropy_spec.md`)

Both size formulas answer the rows of one table (`Laws/EntropySpec`), and a row fits the EntropySpec registers
(`setSpec_toNat`). SPECW and SPECE commit the row of their operand (`exec_specw_row`, `exec_spece_ok`). -/

namespace Sys2Proof.Machine

/-! ## The size table (40 R140 to R143) -/

/-- Settles O35: the valid word counts are the five of the table, and the commands that take a word count check it
first. -/
theorem validWordCounts : Obligations.ValidWordCounts := by
  intro w
  refine ⟨decide_eq_true_iff, ?_, fun s h b => ?_⟩
  · rw [validW_iff]
    simp only [List.mem_cons, List.not_mem_nil, or_false]
  · obtain ⟨hspecw, hunpack, hgenerate, hdecode⟩ := exec_invalidW h s
    have raised := raised_raise .invalidWordCount s
    exact ⟨⟨_, hspecw, raised⟩, ⟨_, hunpack, raised⟩, ⟨_, hgenerate, raised⟩, ⟨_, hdecode b, raised⟩⟩

/-- Settles O36: both formulas answer the rows of one table, and each row is found by either of its keys. -/
theorem sizeBijection : Obligations.SizeBijection := by
  refine ⟨fun w sp h => ?_, fun e sp h => ?_, fun sp => ?_, rfl⟩
  · obtain ⟨hr, -⟩ := specFromW_some h
    obtain ⟨-, hoverall, -⟩ := specRows_sizes hr
    exact ⟨specFromEntBits_row hr, by omega⟩
  · obtain ⟨hr, he⟩ := specFromEntBits_some h
    exact ⟨specFromW_row hr, he⟩
  · exact ⟨fun ⟨_, h⟩ => (specFromW_some h).1, fun hr => ⟨sp.w, specFromW_row hr⟩⟩

/-! ## The EntropySpec registers (10 R41) -/

/-- The four registers hold a row as its numbers. -/
theorem setSpec_toNat {sp : EntropySpec} (hr : sp ∈ specRows) (d : Data) :
    (d.setSpec sp).sw.toNat = sp.w ∧ (d.setSpec sp).sovb.toNat = sp.overallBits ∧
      (d.setSpec sp).scsb.toNat = sp.checksumBits ∧ (d.setSpec sp).sentb.toNat = sp.entropyBits :=
  EntropySpec.mk.inj (spec_setSpec sp d hr)

/-! ## The commands (40 R145, R146) -/

theorem exec_specw_row {sp : EntropySpec} (hr : sp ∈ specRows) (s : State) :
    exec (.specw sp.w) s = .next (complete .ok (s.d.setSpec sp) s) := by
  simp only [exec, execSpecw, specFromW_row hr]

theorem exec_spece_ok {s : State} (h : s.d.EntropyOk) : ∃ sp ∈ specRows, sp.entropyBits = 4 * s.d.hexLen.toNat ∧
    exec .spece s = .next (complete .ok (s.d.setSpec sp) s) := by
  have hok := (validEntropyHex_iff s.d).2 h
  obtain ⟨hlen, -⟩ := Bool.and_eq_true_iff.1 hok
  obtain ⟨sp, hr, hsp, he⟩ := validHexLen_row hlen
  refine ⟨sp, hr, he, ?_⟩
  simp only [exec, execSpece, hok, hsp, if_true]

theorem exec_spece_error {s : State} (h : ¬s.d.EntropyOk) : exec .spece s = .next (raise .invalidEntropy s) := by
  simp only [exec, execSpece, validEntropyHex_false h, Bool.false_eq_true, if_false]

/-- Settles O37: a valid word count is that of a row, whose sizes are the formulas of R140. -/
theorem specwResult : Obligations.SpecwResult := by
  refine ⟨fun w hw => ?_, fun s w => ⟨fun h => ?_, fun h => ?_⟩⟩
  · rw [← (encode_operandForms hw).1]
    exact decode_encode (decide_eq_true hw)
  · obtain ⟨sp, hsp⟩ := specFromW_of_valid h
    obtain ⟨hr, rfl⟩ := specFromW_some hsp
    obtain ⟨-, hoverall, -⟩ := specRows_sizes hr
    obtain ⟨-, hentropy, hchecksum, -⟩ := specRows_formulas hr
    obtain ⟨hsw, hsovb, hscsb, hsentb⟩ := setSpec_toNat hr s.d
    exact ⟨_, exec_specw_row hr s, ended_complete _ _ s, hsw, hsovb.trans hoverall, hscsb.trans hchecksum.symm,
      hsentb.trans hentropy.symm, rfl⟩
  · exact ⟨_, (exec_invalidW h s).1, raised_raise _ s⟩

/-- Settles O38: a valid hex string has the length of a row's entropy, and the row's sizes are the formulas of R142. -/
theorem speceResult : Obligations.SpeceResult := by
  refine ⟨decode_encode (i := .spece) rfl, fun s => ⟨fun h => ?_, fun h => ?_⟩⟩
  · obtain ⟨sp, hr, he, hexec⟩ := exec_spece_ok h
    obtain ⟨-, hoverall, hsum, -⟩ := specRows_sizes hr
    obtain ⟨hchecksum, -⟩ := specRows_formulas hr
    obtain ⟨hsw, hsovb, hscsb, hsentb⟩ := setSpec_toNat hr s.d
    rw [← he]
    refine ⟨_, hexec, ended_complete _ _ s, hsentb, hscsb.trans hchecksum.symm, ?_, ?_, rfl⟩
    · rw [complete_d, hsovb, hchecksum, hoverall, hsum]
    · rw [complete_d, hsw, hsovb, hoverall]
  · exact ⟨_, exec_spece_error h, raised_raise _ s⟩

end Sys2Proof.Machine

/-! # The checksum (family `41_checksum_deriver.md`)

A checksum's bits are read off the first digest byte (`testBit_topBits`). CSUM and CSCHK are said once each for a valid
ENT_LEN and once for the others, in terms of the checksum of ENT (`Data.entChecksum`). ENCODE reads the characters of
HEX through their values only, which case does not change (`hexValue_lowerHex`). -/

namespace Sys2Proof.Machine

/-! ## The top bits of a digest (41 R160 to R162) -/

/-- The mask keeps the top `c` bits of a byte (41 R160). -/
theorem getLsbD_mask (c i : Nat) : (mask c).getLsbD i = (decide (8 - c ≤ i) && decide (i < 8)) := by
  have hones : 0xFF#8 = BitVec.allOnes 8 := by decide
  rw [mask, hones, BitVec.getLsbD_shiftLeft, BitVec.getLsbD_allOnes, Bool.eq_iff_iff]
  simp only [Bool.and_eq_true, Bool.not_eq_true', decide_eq_true_eq, decide_eq_false_iff_not]
  omega

/-- Bit `k` of a checksum of `c` bits is bit `8 - c + k` of the first digest byte. -/
theorem testBit_topBits (d0 : Byte) (c k : Nat) : (topBits d0 c).testBit k = d0.getLsbD (8 - c + k) := by
  rw [topBits, BitVec.testBit_toNat, BitVec.getLsbD_ushiftRight, BitVec.getLsbD_and, getLsbD_mask,
    decide_eq_true (Nat.le_add_right _ _), Bool.true_and, Bool.and_eq_left_iff_imp, decide_eq_true_eq]
  exact BitVec.lt_of_getLsbD

/-- Settles O39: bit by bit, the checksum's bits are those of the digest's first byte, which begin the digest. -/
theorem checksumIsDigestPrefix : Obligations.ChecksumIsDigestPrefix := by
  refine ⟨by decide, fun b c _ hc => ⟨checksum_lt b c hc, ?_⟩⟩
  refine bits_ext (by simp; omega) fun i hi => ?_
  rw [length_bitsN] at hi
  have hdigest := getD_bitsOf (Config.hash b).toList 0 i (by simp) (by omega)
  have hpos : 8 - c + (c - 1 - i) = 7 - i := by omega
  calc (bitsN c (checksum b c)).getD i false
      = (Config.hash b)[0].getLsbD (7 - i) := by
        rw [getD_bitsN _ _ _ hi, checksum, testBit_topBits, hpos]
    _ = (bitsOf (Config.hash b).toList).getD i false := by
        simpa [List.getD_eq_getElem?_getD, BitVec.testBit_toNat] using hdigest.symm
    _ = ((bitsOf (Config.hash b).toList).take c).getD i false := by
        simp [List.getD_eq_getElem?_getD, hi]

/-! ## The checksum registers and the checksum of ENT (10 R39, 41 R163) -/

theorem setCs_toNat {x c : Nat} (hc : c ≤ 8) (hx : x < 2 ^ c) (d : Data) :
    (d.setCs x c).cs.toNat = x ∧ (d.setCs x c).csLen.toNat = c := by
  have hpow : 2 ^ c ≤ 2 ^ 8 := Nat.pow_le_pow_right (by omega) hc
  exact ⟨Nat.mod_eq_of_lt (by omega), Nat.mod_eq_of_lt (by omega)⟩

/-- The checksum of the whole entropy in ENT. -/
def Data.entChecksum (d : Data) : Nat := checksum (d.entBytes (d.entLen.toNat / 8)) (csBitsOf d.entLen.toNat)

theorem validEntBits_iff_mem (e : Nat) : validEntBits e = true ↔ e ∈ [128, 160, 192, 224, 256] := by
  rw [validEntBits_iff]
  simp only [List.mem_cons, List.not_mem_nil, or_false]

theorem csBitsOf_le {e : Nat} (h : validEntBits e = true) : csBitsOf e ≤ 8 := by
  rw [validEntBits_iff] at h
  rw [csBitsOf]
  omega

theorem specFromEntBits_of_valid {e : Nat} (h : validEntBits e = true) :
    ∃ sp, specFromEntBits e = some sp ∧ sp.checksumBits = csBitsOf e :=
  ⟨_, if_pos h, rfl⟩

/-- CS and CS_LEN hold the checksum of ENT after it is committed. -/
theorem setCs_entChecksum_toNat {d : Data} (h : validEntBits d.entLen.toNat = true) :
    (d.setCs d.entChecksum (csBitsOf d.entLen.toNat)).cs.toNat = d.entChecksum ∧
      (d.setCs d.entChecksum (csBitsOf d.entLen.toNat)).csLen.toNat = csBitsOf d.entLen.toNat :=
  setCs_toNat (csBitsOf_le h) (checksum_lt _ _ (csBitsOf_le h)) d

/-! ## CSUM and CSCHK (41 R164, R166) -/

section Commands

variable {s : State}

theorem exec_csum_invalid (h : validEntBits s.d.entLen.toNat = false) :
    exec .csum s = .next (raise .invalidEntropy s) := by
  simp only [exec, execCsum, specFromEntBits_none.2 h]

theorem exec_csum_valid (h : validEntBits s.d.entLen.toNat = true) :
    exec .csum s = .next (complete .ok (s.d.setCs s.d.entChecksum (csBitsOf s.d.entLen.toNat)) s) := by
  obtain ⟨sp, hsp, hc⟩ := specFromEntBits_of_valid h
  simp only [exec, execCsum, hsp, hc, bytesOf_entBits _ h, Data.entChecksum]

theorem exec_cschk_invalid (h : validEntBits s.d.entLen.toNat = false) :
    exec .cschk s = .next (raise .invalidEntropy s) := by
  simp only [exec, execCschk, specFromEntBits_none.2 h]

theorem exec_cschk_valid (h : validEntBits s.d.entLen.toNat = true) :
    exec .cschk s =
      if s.d.csRxLen.toNat ≠ csBitsOf s.d.entLen.toNat then .next (raise .operandError s)
      else if s.d.entChecksum ≠ s.d.csRx.toNat then .next (raise .checksumMismatch s)
      else .next (complete .ok (s.d.setCs s.d.entChecksum (csBitsOf s.d.entLen.toNat)) s) := by
  obtain ⟨sp, hsp, hc⟩ := specFromEntBits_of_valid h
  rw [Data.entChecksum, ← hc, ← bytesOf_entBits _ h, exec, execCschk, hsp]

end Commands

/-- Settles O40: a valid ENT_LEN commits the checksum of ENT, which fits CS and CS_LEN. -/
theorem csumResult : Obligations.CsumResult := by
  refine ⟨decode_encode (i := .csum) rfl, fun s => ?_⟩
  rw [← validEntBits_iff_mem, Bool.not_eq_true]
  refine ⟨fun h => ?_, fun h => ⟨_, exec_csum_invalid h, raised_raise _ s⟩⟩
  obtain ⟨hcs, hlen⟩ := setCs_entChecksum_toNat h
  exact ⟨_, exec_csum_valid h, ended_complete _ _ s, hcs, hlen, rfl⟩

/-- Settles O41: the checks of CSCHK in their order, each decided by the case's hypotheses. -/
theorem cschkResult : Obligations.CschkResult := by
  refine ⟨decode_encode (i := .cschk) rfl, fun s => ?_⟩
  rw [← validEntBits_iff_mem, Bool.not_eq_true]
  refine ⟨fun h => ⟨_, exec_cschk_invalid h, raised_raise _ s⟩, fun h hrx => ?_, fun h hrx hne => ?_,
    fun h hrx heq => ?_⟩
  · exact ⟨_, (exec_cschk_valid h).trans (if_pos hrx), raised_raise _ s⟩
  · have hexec := (exec_cschk_valid h).trans (if_neg (not_not.2 hrx))
    exact ⟨_, hexec.trans (if_pos hne), raised_raise _ s⟩
  · have hexec := (exec_cschk_valid h).trans (if_neg (not_not.2 hrx))
    obtain ⟨hcs, hlen⟩ := setCs_entChecksum_toNat h
    exact ⟨_, hexec.trans (if_neg (not_not.2 heq)), ended_complete _ _ s,
      BitVec.eq_of_toNat_eq (hcs.trans heq), hlen, rfl⟩

/-! ## The case of the hex characters (41 R163, 42 R185) -/

theorem hexValue_lowerHex (ch : Byte) : hexValue (lowerHex ch) = hexValue ch := by
  revert ch
  decide

theorem hexValue_eq_of_lowerHex {a b : Byte} (h : lowerHex a = lowerHex b) : hexValue a = hexValue b := by
  rw [← hexValue_lowerHex a, h, hexValue_lowerHex]

section HexValues

variable {s s' : State}

/-- Whether the entropy is valid depends on HEX_LEN and the characters' values (40 R144). -/
theorem entropyOk_congr {d d' : Data} (hl : d.hexLen = d'.hexLen)
    (h : ∀ j, j < d.hexLen.toNat → hexValue (d.hexAt j) = hexValue (d'.hexAt j)) :
    d.EntropyOk ↔ d'.EntropyOk := by
  rw [Data.EntropyOk, Data.EntropyOk, ← hl]
  exact and_congr_right fun _ => forall₂_congr fun j hj => by rw [isHex, isHex, h j hj]

/-- So do the entropy bits (42 R180). -/
theorem hexToBits_congr {d d' : Data} (hl : d.hexLen = d'.hexLen) (h64 : d.hexLen.toNat ≤ 64)
    (h : ∀ j, j < d.hexLen.toNat → hexValue (d.hexAt j) = hexValue (d'.hexAt j)) :
    hexToBits d.hexChars = hexToBits d'.hexChars := by
  refine bits_ext (by simp [length_hexChars, hl]) fun i hi => ?_
  have hi : i < 4 * d.hexLen.toNat := by
    rw [length_hexToBits, length_hexChars] at hi
    omega
  rw [getD_hexToBits_hexBit d h64 i hi, getD_hexToBits_hexBit d' (hl ▸ h64) i (hl ▸ hi), Data.hexBit, Data.hexBit,
    nib, nib, h _ (by omega)]

theorem execEncode_error (h : ¬s.d.EntropyOk) : execEncode s = .next (raise .invalidEntropy s) := by
  simp only [execEncode, validEntropyHex_false h, Bool.false_eq_true, if_false]

/-- ENCODE reads HEX through the values of its characters. -/
theorem execEncode_endAlike_of_hexValue (hw : s.wlSize = s'.wlSize) (hl : s.d.hexLen = s'.d.hexLen)
    (h : ∀ j, j < s.d.hexLen.toNat → hexValue (s.d.hexAt j) = hexValue (s'.d.hexAt j)) :
    EndAlike s s' (execEncode s) (execEncode s') := by
  have hok := entropyOk_congr hl h
  by_cases hs : s.d.EntropyOk
  · obtain ⟨sp, -, hsp, -, hraise, hcore⟩ := execEncode_ok hs
    obtain ⟨sp', -, hsp', -, hraise', hcore'⟩ := execEncode_ok (hok.1 hs)
    obtain rfl : sp = sp' := Option.some.inj (hsp.symm.trans (hl ▸ hsp'))
    cases hc : wordlistCheck s.wlSize with
    | some c =>
      rw [hraise c hc, hraise' c (hw ▸ hc)]
      exact .raised c (wordlistCheck_isError hc)
    | none =>
      have hbits := hexToBits_congr hl (by obtain ⟨hlen, -⟩ := hs; omega) h
      rw [hcore hc, hcore' (hw ▸ hc), hbits]
      exact .completed _ _
  · rw [execEncode_error hs, execEncode_error (mt hok.2 hs)]
    exact .raised _ (by decide)

end HexValues

/-- Settles O59: characters equal in lower case have one value, and ENCODE reads no more of them. -/
theorem caseDoesNotMatter : Obligations.CaseDoesNotMatter := by
  intro s s' t t' hw hl hlower ht ht'
  have h := execEncode_endAlike_of_hexValue hw hl fun j hj => hexValue_eq_of_lowerHex (hlower j hj)
  rw [exec] at ht ht'
  rw [ht, ht'] at h
  exact h.same

end Sys2Proof.Machine

/-! # The bit packer (family `42_bit_packer.md`)

Hex characters, bytes and groups are all windows of one width of a bit string. A window of blocks laid end to end is one
block (`slice_flatMap_blocks`), and windows side by side join (`slice_append_slice`); the laws of R182, R185, R189 and
R198 are uses of the two. The four commands are said once each where their checks pass and once where they fail. -/

namespace Sys2Proof.Machine

/-! ## Windows of a bit string (00 R8) -/

theorem slice_append_slice (s : Bits) {a b c : Nat} (hab : a ≤ b) (hbc : b ≤ c) :
    slice s a b ++ slice s b c = slice s a c := by
  have hb : b = a + (b - a) := by omega
  have hc : c - a = (b - a) + (c - b) := by omega
  rw [slice, slice, slice, hc, List.take_add, List.drop_drop, ← hb]

/-- Blocks of one length laid end to end: window `j` is block `j`. -/
theorem slice_flatMap_blocks {α : Type} (f : α → Bits) (n : Nat) (hf : ∀ x, (f x).length = n) (l : List α) (x : α)
    {j : Nat} (hj : j < l.length) : slice (l.flatMap f) (n * j) (n * j + n) = f (l.getD j x) := by
  have hlen : n * j + n ≤ n * l.length := Nat.mul_le_mul_left n hj
  refine bits_ext (by rw [length_slice, length_flatMap_blocks f n hf, hf]; omega) fun k hk => ?_
  have hk : k < n := by rw [length_slice] at hk; omega
  rw [getD_slice _ _ _ _ (by omega), getD_flatMap_blocks f n hf l x j k hj hk]

theorem slice_append_left (s t : Bits) (a : Nat) {b : Nat} (hb : b ≤ s.length) : slice (s ++ t) a b = slice s a b := by
  refine bits_ext (by simp only [length_slice, List.length_append]; omega) fun i hi => ?_
  have hi : i < b - a := by rw [length_slice] at hi; omega
  rw [getD_slice _ _ _ _ hi, getD_slice _ _ _ _ hi, List.getD_append _ _ _ _ (by omega)]

theorem slice_append_right (s t : Bits) : slice (s ++ t) s.length (s ++ t).length = t := by
  rw [slice, List.drop_left, List.length_append, Nat.add_sub_cancel_left, List.take_length]

/-! ## Hex (42 R180 to R185) -/

theorem nib_hexChar {v : Nat} (hv : v < 16) : nib (hexChar v) = v := by
  revert v
  decide

theorem slice_four (s : Bits) {a : Nat} (h : a + 4 ≤ s.length) :
    slice s a (a + 4) = [s.getD a false, s.getD (a + 1) false, s.getD (a + 2) false, s.getD (a + 3) false] := by
  refine bits_ext (by simp only [length_slice, List.length_cons, List.length_nil]; omega) fun i hi => ?_
  have hi : i < 4 := by rw [length_slice] at hi; omega
  rw [getD_slice _ _ _ _ (by omega)]
  interval_cases i <;> rfl

/-- Character `j` of `bitsToHex(s)` stands for the value of window `j` (42 R183). -/
theorem getD_bitsToHex_eq_val (s : Bits) {j : Nat} (hj : j < s.length / 4) :
    (bitsToHex s).getD j 0 = hexChar (val (slice s (4 * j) (4 * j + 4))) := by
  rw [getD_bitsToHex _ _ hj, slice_four s (by omega)]
  simp only [bitAt, window_value, val_cons, val_nil, List.length_cons, List.length_nil]
  congr 1
  omega

/-- Window `j` of `hexToBits(h)` has the value of character `j` (42 R180). -/
theorem val_slice_hexToBits (h : List Byte) {j : Nat} (hj : j < h.length) :
    val (slice (hexToBits h) (4 * j) (4 * j + 4)) = nib (h.getD j 0) := by
  rw [hexToBits, slice_flatMap_blocks _ 4 (by simp) h 0 hj, val_bitsN]
  exact Nat.mod_eq_of_lt (nib_lt _)

/-- A byte's window is the windows of its two characters, side by side (42 R182). -/
theorem val_slice_hexToBits_pair (h : List Byte) {j : Nat} (hj : 2 * j + 1 < h.length) :
    val (slice (hexToBits h) (8 * j) (8 * j + 8)) = 16 * nib (h.getD (2 * j) 0) + nib (h.getD (2 * j + 1) 0) := by
  have hhigh : val (slice (hexToBits h) (8 * j) (8 * j + 4)) = nib (h.getD (2 * j) 0) := by
    rw [← val_slice_hexToBits h (by omega), ← Nat.mul_assoc]
  have hlow : val (slice (hexToBits h) (8 * j + 4) (8 * j + 8)) = nib (h.getD (2 * j + 1) 0) := by
    rw [← val_slice_hexToBits h hj, Nat.mul_add, ← Nat.mul_assoc]
  have hlen : (slice (hexToBits h) (8 * j + 4) (8 * j + 8)).length = 4 := by
    rw [length_slice, length_hexToBits]
    omega
  rw [← slice_append_slice (b := 8 * j + 4) _ (by omega) (by omega), val_append, hhigh, hlow, hlen]
  omega

theorem hexToBits_bitsToHex {s : Bits} (hs : s.length % 4 = 0) : hexToBits (bitsToHex s) = s := by
  refine bits_ext (by rw [length_hexToBits, length_bitsToHex]; omega) fun i hi => ?_
  rw [length_hexToBits, length_bitsToHex] at hi
  have hw : (slice s (4 * (i / 4)) (4 * (i / 4) + 4)).length = 4 := by rw [length_slice]; omega
  have hv := val_lt (slice s (4 * (i / 4)) (4 * (i / 4) + 4))
  rw [hw] at hv
  have hbit := getD_hexToBits (bitsToHex s) (i / 4) (i % 4) (by rw [length_bitsToHex]; omega) (by omega)
  have hk : 4 - 1 - (3 - i % 4) = i % 4 := by omega
  rw [getD_bitsToHex_eq_val s (by omega), nib_hexChar hv, testBit_val _ _ (by omega), hw, hk,
    getD_slice _ _ _ _ (by omega), Nat.div_add_mod] at hbit
  exact hbit

theorem bitsToHex_hexToBits {h : List Byte} (hh : ∀ ch ∈ h, isHex ch = true) :
    bitsToHex (hexToBits h) = h.map lowerHex := by
  refine List.ext_getElem (by simp) fun j h1 h2 => ?_
  have hj : j < h.length := by simpa using h2
  rw [← List.getD_eq_getElem _ 0 h1, getD_bitsToHex_eq_val _ (by rw [length_hexToBits]; omega),
    val_slice_hexToBits h hj, List.getD_eq_getElem _ _ hj, List.getElem_map, hexChar_nib _ (hh _ (List.getElem_mem hj))]

/-- Settles O42: both directions go window by window, each a character's value. -/
theorem hexRoundTrips : Obligations.HexRoundTrips :=
  ⟨fun _ => hexToBits_bitsToHex, fun _ => bitsToHex_hexToBits, fun _ => by simp only [lowerHex, BitVec.le_def]; rfl⟩

/-- Settles O43: byte `j` has the value of window `j`, that of the two characters. -/
theorem hexPairsAreBytes : Obligations.HexPairsAreBytes := by
  intro h _
  refine ⟨by rw [length_bytesOf, length_hexToBits]; omega, fun j hj => ?_⟩
  rw [getD_bytesOf _ _ (by rw [length_hexToBits]; omega), val_slice_hexToBits_pair h (by omega)]

/-! ## Groups (42 R187 to R189, R198) -/

theorem group_ungroup {g : List Nat} (hg : ∀ x ∈ g, x < 2048) : group (ungroup g) g.length = g := by
  refine List.ext_getElem (length_group _ _) fun i h1 h2 => ?_
  rw [← List.getD_eq_getElem _ 0 h1, getD_group _ _ _ h2, ungroup, slice_flatMap_blocks _ 11 (by simp) g 0 h2,
    val_bitsN, List.getD_eq_getElem _ _ h2]
  exact Nat.mod_eq_of_lt (hg _ (List.getElem_mem h2))

theorem ungroup_group {s : Bits} {w : Nat} (hs : s.length = 11 * w) : ungroup (group s w) = s := by
  refine bits_ext (by rw [length_ungroup, length_group, hs]) fun i hi => ?_
  rw [length_ungroup, length_group] at hi
  have hbit := getD_ungroup (group s w) (i / 11) (i % 11) (by rw [length_group]; omega) (by omega)
  rwa [testBit_group s w _ _ (by omega) (by omega) hs, Nat.div_add_mod] at hbit

theorem split_append (s t : Bits) : split (s ++ t) s.length = (s, t) := by
  rw [← Prod.mk.eta (p := split _ _), split_fst, split_snd, List.take_left, List.drop_left]

/-- The WORD registers read back the groups that were written to them. -/
theorem wordIdxs_setWords_group (s : Bits) {w : Nat} (hw : w ≤ 24) (d : Data) :
    (d.setWords (group s w)).wordIdxs w = group s w := by
  refine List.ext_getElem (by rw [length_wordIdxs, length_group]; omega) fun i h1 h2 => ?_
  have hi : i < w := by rwa [length_group] at h2
  rw [← List.getD_eq_getElem _ 0 h1, ← List.getD_eq_getElem _ 0 h2, getD_wordIdxs_wordAt _ _ _ hi (by omega),
    wordAt_setWords _ _ (by rwa [length_group])]
  exact Nat.mod_eq_of_lt (group_lt s w i)

/-- Settles O45: entropy bits lie below `e` and checksum bits above it, and only the last window crosses `e`. -/
theorem bitPlacement : Obligations.BitPlacement := by
  intro sp ent x hr he hx
  obtain ⟨-, -, hsum, hc4, hc8, hw12, -⟩ := specRows_sizes hr
  have hlen : (ent ++ bitsN sp.checksumBits x).length = 11 * sp.w := by rw [List.length_append, length_bitsN]; omega
  refine ⟨fun j hj => ?_, fun k hk => ?_, ?_, fun i hi => ?_⟩
  · rw [testBit_group _ _ _ _ (by omega) (by omega) hlen, Nat.div_add_mod, List.getD_append _ _ _ _ (by omega)]
  · rw [List.getD_append_right _ _ _ _ (by omega), he, Nat.add_sub_cancel_left, getD_bitsN _ _ _ hk]
  · have hstart : 11 * (sp.w - 1) = sp.entropyBits - (11 - sp.checksumBits) := by omega
    have hend : 11 * (sp.w - 1) + 11 = (ent ++ bitsN sp.checksumBits x).length := by omega
    rw [getD_group _ _ _ (by omega), hend, ← slice_append_slice (b := ent.length) _ (by omega) (by omega),
      slice_append_right, slice_append_left _ _ _ le_rfl, val_append, val_bitsN, length_bitsN, Nat.mod_eq_of_lt hx,
      hstart, he]
  · exact ⟨by rw [getD_group _ _ _ (by omega), slice_append_left _ _ _ (by omega)], by omega⟩

/-! ## The commands (42 R190 to R196) -/

section Commands

variable {s : State}

theorem exec_hex2bits_ok (hl : s.d.hexLen.toNat ≤ 64) (h : ∀ j, j < s.d.hexLen.toNat → isHex (s.d.hexAt j) = true) :
    exec .hex2bits s = .next (complete .ok (s.d.setEnt (hexToBits s.d.hexChars)) s) := by
  simp only [exec, execHex2bits, if_neg (Nat.not_lt.2 hl), (all_isHex_iff s.d hl).2 h, if_true]

theorem exec_hex2bits_error (h : 64 < s.d.hexLen.toNat ∨ ∃ j, j < s.d.hexLen.toNat ∧ isHex (s.d.hexAt j) = false) :
    exec .hex2bits s = .next (raise .invalidEntropy s) := by
  rw [exec, execHex2bits]
  by_cases hl : 64 < s.d.hexLen.toNat
  · exact if_pos hl
  · obtain ⟨j, hj, hbad⟩ := h.resolve_left hl
    rw [if_neg hl, if_neg fun hall => ?_]
    rw [(all_isHex_iff s.d (Nat.not_lt.1 hl)).1 hall j hj] at hbad
    cases hbad

theorem exec_bits2hex_ok (h : s.d.entLen.toNat % 4 = 0) :
    exec .bits2hex s = .next (complete .ok (s.d.setHex (bitsToHex s.d.entBits)) s) :=
  if_neg (not_not.2 h)

theorem exec_bits2hex_error (h : s.d.entLen.toNat % 4 ≠ 0) : exec .bits2hex s = .next (raise .invalidEntropy s) :=
  if_pos h

theorem exec_pack_invalid (h : validEntBits s.d.entLen.toNat = false) :
    exec .pack s = .next (raise .invalidEntropy s) := by
  simp only [exec, execPack, specFromEntBits_none.2 h]

theorem exec_pack_valid {sp : EntropySpec} (hsp : specFromEntBits s.d.entLen.toNat = some sp) :
    exec .pack s =
      if s.d.csLen.toNat ≠ sp.checksumBits then .next (raise .operandError s)
      else .next (complete .ok (s.d.setWords (group (s.d.entBits ++ s.d.csBits) sp.w)) s) := by
  simp only [exec, execPack, hsp]

theorem exec_unpack_row {sp : EntropySpec} (hr : sp ∈ specRows) :
    exec (.unpack sp.w) s = .next (complete .ok
      ((s.d.setEnt (split (ungroup (s.d.wordIdxs sp.w)) sp.entropyBits).1).setCsRx
        (val (split (ungroup (s.d.wordIdxs sp.w)) sp.entropyBits).2) sp.checksumBits) s) := by
  simp only [exec, execUnpack, specFromW_row hr]

end Commands

/-- Settles O46: the characters in use are all hex or one of them is not. -/
theorem hex2bitsResult : Obligations.Hex2bitsResult := by
  refine ⟨decode_encode (i := .hex2bits) rfl, fun s => ⟨fun hl h => ?_, fun h => ?_⟩⟩
  · have hlen : (hexToBits s.d.hexChars).length = 4 * s.d.hexLen.toNat := by
      rw [length_hexToBits, length_hexChars, Nat.min_eq_left hl]
    have hent := entIs_setEnt (hexToBits s.d.hexChars) s.d (by omega) s.d.hexBit fun i hi =>
      getD_hexToBits_hexBit s.d hl i (by omega)
    rw [hlen] at hent
    exact ⟨_, exec_hex2bits_ok hl h, ended_complete _ _ s, hent, rfl⟩
  · exact ⟨_, exec_hex2bits_error (h.imp_right fun ⟨j, hj, _, hbad⟩ => ⟨j, hj, hbad⟩), raised_raise _ s⟩

/-- Settles O47: ENT_LEN is a multiple of 4 or not, and the register invariant says that it is. -/
theorem bits2hexResult : Obligations.Bits2hexResult := by
  refine ⟨decode_encode (i := .bits2hex) rfl, fun s => ⟨fun hl h4 => ?_, fun h4 => ?_, fun hi => ?_⟩⟩
  · have hlen : s.d.entBits.length = s.d.entLen.toNat := by rw [length_entBits, Nat.min_eq_left hl]
    have hhex := hexIs_setHex s.d.entBits s.d _ hlen hl h4 _ fun i hi => getD_entBits s.d i hi (by omega)
    exact ⟨_, exec_bits2hex_ok h4, ended_complete _ _ s, hhex, rfl⟩
  · exact ⟨_, exec_bits2hex_error h4, raised_raise _ s⟩
  · exact ⟨_, exec_bits2hex_ok hi.data.entLen_mod, ended_complete _ _ s⟩

/-- Settles O48: the checks of PACK in their order, each decided by the case's hypotheses. -/
theorem packResult : Obligations.PackResult := by
  refine ⟨decode_encode (i := .pack) rfl, fun s => ?_⟩
  rw [← validEntBits_iff_mem, Bool.not_eq_true]
  refine ⟨fun h => ⟨_, exec_pack_invalid h, raised_raise _ s⟩, fun h hne => ?_, fun h heq => ?_⟩
  · obtain ⟨sp, hsp, hc⟩ := specFromEntBits_of_valid h
    exact ⟨_, (exec_pack_valid hsp).trans (if_pos (hc ▸ hne)), raised_raise _ s⟩
  · obtain ⟨sp, hsp, hc⟩ := specFromEntBits_of_valid h
    obtain ⟨hr, he⟩ := specFromEntBits_some hsp
    obtain ⟨-, -, hsum, -, -, -, hw24, -, he256, -⟩ := specRows_sizes hr
    have hlen : s.d.entBits.length = sp.entropyBits := by rw [length_entBits]; omega
    have hwords := wordsAre_setWords sp hr s.d.cs.toNat s.d.entBits hlen _
      (fun i hi => getD_entBits s.d i (by omega) (by omega)) s.d
    have hcat : s.d.csBits = bitsN sp.checksumBits s.d.cs.toNat := by rw [Data.csBits, heq, hc]
    have hresult : (s.d.setWords (group (s.d.entBits ++ s.d.csBits) sp.w)).resultW.toNat = sp.w := by
      rw [Data.setWords_resultW, length_group, BitVec.toNat_ofNat]
      omega
    refine ⟨_, (exec_pack_valid hsp).trans (if_neg (not_not.2 (heq.trans hc.symm))), ended_complete _ _ s, ?_, ?_, rfl⟩
    · rw [complete_d, hresult]
      omega
    · rw [complete_d, hresult, hcat, ← he]
      exact hwords

/-- Settles O49: the two parts of the words, bit by bit (`decode_parts`), are what ENT and CS_RX hold. -/
theorem unpackResult : Obligations.UnpackResult := by
  refine ⟨fun w hw => ?_, fun s w => ⟨fun h => ?_, fun h => ?_⟩⟩
  · obtain ⟨-, hword, -⟩ := encode_operandForms hw
    rw [← hword]
    exact decode_encode (decide_eq_true hw)
  · obtain ⟨sp, hsp⟩ := specFromW_of_valid h
    obtain ⟨hr, rfl⟩ := specFromW_some hsp
    obtain ⟨-, -, hsum, -, hc8, -, -, -, he256, -⟩ := specRows_sizes hr
    obtain ⟨-, he, -⟩ := specRows_formulas hr
    obtain ⟨hlen, -, hbits, hcs⟩ := decode_parts s.d sp hr
    have hent := entIs_setEnt _ s.d (hlen.trans_le he256) s.d.groupBit (by rwa [hlen])
    have hc : 11 * sp.w - entBitsOf sp.w = sp.checksumBits := by omega
    rw [hlen] at hent
    rw [hc, he]
    refine ⟨_, exec_unpack_row hr, ended_complete _ _ s, hent, ?_, fun k => ?_, rfl⟩
    · rw [complete_d, Data.setCsRx_csRxLen, BitVec.toNat_ofNat, Nat.mod_eq_of_lt (by omega)]
    · rw [complete_d, Data.setCsRx_csRx, BitVec.getLsbD_ofNat, hcs, Bool.and_eq_right_iff_imp]
      intro hk
      simp only [Bool.and_eq_true, decide_eq_true_eq] at hk ⊢
      omega
  · obtain ⟨-, hexec, -⟩ := exec_invalidW h s
    exact ⟨_, hexec, raised_raise _ s⟩

/-! ## UNPACK after PACK (42 R189) -/

/-- ENT is its bits in use, the rest being 0 (10 R38). -/
theorem padTo_entBits {d : Data} (hd : d.Inv) : padTo 256 d.entBits = d.ent := by
  have hlen : d.entBits.length = d.entLen.toNat := by rw [length_entBits, Nat.min_eq_left hd.entLen_le]
  refine BitVec.eq_of_getMsbD_eq fun i h256 => ?_
  rw [getMsbD_padTo _ _ (by rw [length_entBits]; omega)]
  by_cases hi : i < d.entLen.toNat
  · exact getD_entBits d i hi h256
  · rw [List.getD_eq_default _ _ (by omega), hd.ent_tail i (by omega)]

/-- CS is its bits in use (10 R39). -/
theorem val_csBits {d : Data} (hd : d.Inv) : val d.csBits = d.cs.toNat := by
  rw [Data.csBits, val_bitsN, Nat.mod_eq_of_lt hd.cs_lt]

/-- A PACK that ended with code OK has committed the groups, CS_LEN being that of the row. -/
theorem exec_pack_next_ok {s t : State} {sp : EntropySpec} (hsp : specFromEntBits s.d.entLen.toNat = some sp)
    (h : exec .pack s = .next t) (hcode : t.status.code = 0) :
    s.d.csLen.toNat = sp.checksumBits ∧ t.d = s.d.setWords (group (s.d.entBits ++ s.d.csBits) sp.w) := by
  rw [exec_pack_valid hsp] at h
  split at h
  next =>
    cases h
    simp [Code.num] at hcode
  next hc =>
    cases h
    exact ⟨not_not.1 hc, rfl⟩

/-- The words that PACK commits split into the entropy and checksum bits it read. -/
theorem split_packed {d : Data} (hd : d.Inv) {sp : EntropySpec} (hr : sp ∈ specRows)
    (he : sp.entropyBits = d.entLen.toNat) (hc : d.csLen.toNat = sp.checksumBits) :
    split (ungroup ((d.setWords (group (d.entBits ++ d.csBits) sp.w)).wordIdxs sp.w)) sp.entropyBits =
      (d.entBits, d.csBits) := by
  obtain ⟨-, -, hsum, -, -, -, hw24, -⟩ := specRows_sizes hr
  have hent : d.entBits.length = sp.entropyBits := by rw [length_entBits, Nat.min_eq_left hd.entLen_le, he]
  rw [wordIdxs_setWords_group _ hw24, ungroup_group (by rw [List.length_append, length_csBits]; omega), ← hent,
    split_append]

/-- Settles O44: grouping and its inverse go window by window; UNPACK splits the string that PACK joined. -/
theorem packingInverses : Obligations.PackingInverses := by
  refine ⟨fun _ => group_ungroup, fun _ _ => ungroup_group, fun _ _ _ => split_append _ _, ?_⟩
  intro s t u sp hi hsp hpack hcode hunpack
  obtain ⟨hr, he⟩ := specFromEntBits_some hsp
  obtain ⟨hc, htd⟩ := exec_pack_next_ok hsp hpack hcode
  rw [exec_unpack_row hr, htd, split_packed hi.data hr he hc] at hunpack
  cases hunpack
  refine ⟨ended_complete _ _ t, padTo_entBits hi.data, ?_, ?_, ?_⟩
  · rw [complete_d, Data.setCsRx_entLen, Data.setEnt_entLen, length_entBits, Nat.min_eq_left hi.data.entLen_le,
      BitVec.ofNat_toNat, BitVec.setWidth_eq]
  · rw [complete_d, Data.setCsRx_csRx, val_csBits hi.data, BitVec.ofNat_toNat, BitVec.setWidth_eq]
  · rw [complete_d, Data.setCsRx_csRxLen, ← hc, BitVec.ofNat_toNat, BitVec.setWidth_eq]

end Sys2Proof.Machine

/-! # The sequencer and the codec (family `43_codec.md`)

The sequencer's claims (O10, O11) are read off the moves of the agents. ENCODE and an answered GENERATE commit one set,
`encodeData`, whose registers `encodeData_holds` gives; a DECODE that passes its checks commits `Data.decoded`, from the
entropy bits and the checksum its words carry (`Data.carriedEnt`, `Data.carriedCs`). The round trip (O56) and the
soundness of verification (O57) are facts about what the words carry. -/

namespace Sys2Proof.Machine

/-! ## The sequencer (43 R220, R221) -/

section Sequencer

variable {s t : State}

/-- How a command that has answered ends its execution step. -/
theorem ends_of_exec {i : Instr} (h : exec i s = .next t) : Ends i s t := by
  obtain ⟨t', ht', hends⟩ := exec_ends i s
  rw [h] at ht'
  cases ht'
  exact hends

/-- A write moves FSM only as an accepted CMD write (60 R260). -/
theorem memWrite_fsm {off : Int} {v : Word} (h : memWrite off 4 v s = .next t) :
    t.fsm = s.fsm ∨ (off = 0 ∧ s.status.busy = false ∧ t = accept v s) := by
  obtain ⟨ha, ⟨rfl, -⟩ | ⟨rfl, hidle⟩⟩ := memWrite_next h
  · exact .inl rfl
  · rcases writeReg_cases v s (regAt off.toNat) with ⟨hr, hw⟩ | ⟨-, hf, -⟩
    · have hoff := regAt_eq_cmd hr
      obtain ⟨-, h0, -⟩ := (accessOk_iff off 4).1 ha
      exact .inr ⟨by omega, hidle.resolve_left (by rw [hr]; exact Bool.noConfusion), hw⟩
    · exact .inl hf

/-- A command has completed after its execution step, or it waits for entropy with STATUS as it was. -/
theorem Ends.fsm {i : Instr} (h : Ends i s t) :
    (t.fsm = .idle ∧ t.status.done = true ∧ t.status.busy = false) ∨ ∃ g, t.fsm = .rngWait g ∧ t.status = s.status := by
  cases h with
  | raised | completed => exact .inl ⟨rfl, rfl, rfl⟩
  | requested w sp => exact .inr ⟨_, rfl, rfl⟩

theorem State.CtlInv.idle_of_not_busy (hi : s.CtlInv) (hb : s.status.busy = false) : s.fsm = .idle := by
  by_contra hf
  rw [hi.busy_iff.2 hf] at hb
  cases hb

theorem State.CtlInv.busy_of_rngWait {g : GenContext} (hi : s.CtlInv) (hf : s.fsm = .rngWait g) :
    s.status.busy = true :=
  hi.busy_iff.2 (by rw [hf]; exact Fsm.noConfusion)

end Sequencer

/-- Settles O10: each agent's move leaves FSM or is one of the events. -/
theorem sequencerTransitions : Obligations.SequencerTransitions := by
  intro s t hi h
  have hmove := step_moves h
  generalize s.nextTurn = tn at hmove ⊢
  cases hmove with
  | hostDone | blockIdle | noAnswer => exact .inl rfl
  | read off rest _ hp h =>
    obtain ⟨⟨-, -, -, -, hf⟩, -⟩ := memRead_same h
    exact .inl hf
  | write off v rest _ hp h =>
    rcases memWrite_fsm h with hf | ⟨rfl, hb, rfl⟩
    · exact .inl hf
    · exact .inr (.inr (.inl ⟨hi.ctl.idle_of_not_busy hb, rfl, rfl, hb, v, rest, hp, rfl⟩))
  | poll rest hp =>
    obtain ⟨-, -, -, -, hf⟩ := pollStatus_same rest s.popTurn
    exact .inl hf
  | illegal hf => exact .inr (.inr (.inr (.inl ⟨hf, rfl, rfl, rfl⟩)))
  | executed i _ hf hd h =>
    cases ends_of_exec h with
    | raised | completed => exact .inr (.inr (.inr (.inl ⟨hf, rfl, rfl, rfl⟩)))
    | requested w sp hgen hsp hw =>
      subst hgen
      exact .inr (.inr (.inr (.inr (.inl ⟨hf, rfl, w, sp, hd, hsp, hw, rfl⟩))))
  | answered a rest ha =>
    rcases rngAnswer_cases a { s.popTurn with env := { s.popTurn.env with answers := rest } } with
      ⟨g, draw, hf, -, h⟩ | ⟨g, hf, -, h⟩ | ⟨-, h⟩ <;> rw [h]
    · exact .inr (.inr (.inr (.inr (.inr ⟨g, a, rest, hf, rfl, rfl, ha, rfl⟩))))
    · exact .inr (.inr (.inr (.inr (.inr ⟨g, a, rest, hf, rfl, rfl, ha, rfl⟩))))
    · exact .inl rfl
  | reset => exact .inr (.inl ⟨rfl, rfl⟩)

/-- Settles O11: the execution step ends a command or requests entropy; of the transitions out of RNG_WAIT none belongs
to these turns, and BUSY = 1 keeps the data registers. -/
theorem executionStepEnabled : Obligations.ExecutionStepEnabled := by
  refine ⟨fun s hf => ?_, fun s t g hi hf h hturn => ?_⟩
  · obtain ⟨t, ht, ⟨i, -, -, hends⟩ | ⟨-, rfl⟩⟩ := blockTurn_exec hf
    · exact ⟨t, ht, hends.fsm⟩
    · exact ⟨_, ht, .inl ⟨rfl, rfl, rfl⟩⟩
  · have hfsm : t.fsm = .rngWait g := by
      rcases sequencerTransitions s t hi h with
        hsame | ⟨hr, -⟩ | ⟨hidle, -⟩ | ⟨hexec, -⟩ | ⟨hexec, -⟩ | ⟨-, a, rest, -, -, hsource, ha, -⟩
      · exact hsame.trans hf
      · simp [hr] at hturn
      · simp [hf] at hidle
      · simp [hf] at hexec
      · simp [hf] at hexec
      · simp [hsource, ha] at hturn
    have hbusy := (registerInvariantKept s t hi h).ctl.busy_of_rngWait hfsm
    obtain ⟨-, hd, -⟩ := (step_moves h).latched (hi.ctl.busy_of_rngWait hf) hbusy
    exact ⟨hfsm, hbusy, hd⟩

/-! ## The encode path (43 R224, R230, R234, R236) -/

section Encode

variable {s : State} {sp : EntropySpec}

/-- The hex string written back from the entropy bits of a valid one is the lower-case form (42 R185). -/
theorem lower_of_hexIs {d d' : Data} (hok : d.EntropyOk) (h : d'.HexIs (4 * d.hexLen.toNat) d.hexBit) :
    d'.hexLen = d.hexLen ∧ ∀ j, j < d.hexLen.toNat → d'.hexAt j = lowerHex (d.hexAt j) := by
  obtain ⟨-, hhex⟩ := hok
  obtain ⟨hlen, hat⟩ := h
  rw [Nat.mul_div_cancel_left _ (by decide)] at hlen hat
  refine ⟨BitVec.eq_of_toNat_eq hlen, fun j hj => ?_⟩
  rw [hat j, if_pos hj, window_hexBit, hexChar_nib _ (hhex j hj)]

/-- ENCODE, its checks passed, is the encode path on the bytes of HEX (43 R230). -/
theorem exec_encode_ok (hok : s.d.EntropyOk) (hwl : s.wlSize = 2048) :
    ∃ sp, sp ∈ specRows ∧ specFromEntBits (4 * s.d.hexLen.toNat) = some sp ∧ sp.entropyBits = 4 * s.d.hexLen.toNat ∧
      exec .encode s = .next (encodeCore (bytesOf (hexToBits s.d.hexChars)) sp s) := by
  obtain ⟨sp, hr, hsp, he, -, hcore⟩ := execEncode_ok hok
  exact ⟨sp, hr, hsp, he, hcore (wordlistCheck_full hwl)⟩

theorem exec_encode_wordlist {c : Code} (hok : s.d.EntropyOk) (hc : wordlistCheck s.wlSize = some c) :
    exec .encode s = .next (raise c s) := by
  obtain ⟨-, -, -, -, hraise, -⟩ := execEncode_ok hok
  exact hraise c hc

theorem exec_generate_wordlist {w : Nat} {c : Code} (hv : validW w = true) (hc : wordlistCheck s.wlSize = some c) :
    exec (.generate w) s = .next (raise c s) := by
  obtain ⟨sp, hsp⟩ := specFromW_of_valid hv
  simp only [exec, execGenerate, hsp, hc]

/-- The data registers `d` hold the encoding of the entropy bytes `b`, of the row `sp` and with the bits `bit`
(43 R224). -/
structure Data.Encodes (d : Data) (b : List Byte) (sp : EntropySpec) (bit : Nat → Bool) : Prop where
  spec : d.spec = sp
  ent : d.EntIs sp.entropyBits bit
  hex : d.HexIs sp.entropyBits bit
  cs : d.cs.toNat = checksum b sp.checksumBits
  csLen : d.csLen.toNat = sp.checksumBits
  csRx : d.csRx = 0
  csRxLen : d.csRxLen = 0
  words : d.WordsAre sp.w sp.entropyBits bit d.cs.toNat
  resultW : d.resultW.toNat = sp.w
  bytes : b = d.entBytes (sp.entropyBits / 8)

section Encoded

variable {b : List Byte} (hr : sp ∈ specRows) (hb : b.length = sp.entropyBits / 8)

include hr hb

/-- The encode path commits the encoding of its entropy bytes. -/
theorem encodeCore_encodes (bit : Nat → Bool) (hbit : ∀ i, i < sp.entropyBits → (bitsOf b).getD i false = bit i) :
    (encodeCore b sp s).d.Encodes b sp bit := by
  obtain ⟨-, -, -, -, hc8, -⟩ := specRows_sizes hr
  obtain ⟨hspec, hent, hhex, hcs, hcsLen, hrx, hrxLen, hwords, hw, hbytes⟩ :=
    encodeData_holds b _ sp hr hb (checksum_lt b _ hc8) bit hbit
  exact ⟨hspec, hent, hhex, hcs, hcsLen, hrx, hrxLen, hcs.symm ▸ hwords, hw, hbytes⟩

/-- The bits encoded are those of the ENT register committed. -/
theorem encodeCore_encodes_ent : (encodeCore b sp s).d.Encodes b sp (encodeCore b sp s).d.ent.getMsbD := by
  refine encodeCore_encodes hr hb _ fun i hi => ?_
  obtain ⟨-, hent⟩ := (encodeCore_encodes (s := s) hr hb _ fun _ _ => rfl).ent
  rw [hent, decide_eq_true hi, Bool.true_and]

end Encoded

/-- Bit `i` of a byte string is bit `7 - i mod 8` of byte `i / 8` (00 R9). -/
theorem getD_bitsOf_eq_getLsbD (b : List Byte) {i : Nat} (hi : i < 8 * b.length) :
    (bitsOf b).getD i false = (b.getD (i / 8) 0).getLsbD (7 - i % 8) := by
  have h := getD_bitsOf b (i / 8) (i % 8) (by omega) (by omega)
  rwa [Nat.div_add_mod, BitVec.testBit_toNat] at h

/-- The first `n` draws of an answer: their number and their bits (20 R88, log entry 6). -/
theorem drawn_bytes (hr : sp ∈ specRows) (draw : Vector Byte 32) :
    (draw.toList.take (sp.entropyBits / 8)).length = sp.entropyBits / 8 ∧
      ∀ i, i < sp.entropyBits → (bitsOf (draw.toList.take (sp.entropyBits / 8))).getD i false =
        (draw.toList.getD (i / 8) 0).getLsbD (7 - i % 8) := by
  obtain ⟨-, -, -, -, -, -, -, -, he256, he32⟩ := specRows_sizes hr
  have hlen : (draw.toList.take (sp.entropyBits / 8)).length = sp.entropyBits / 8 := by
    rw [List.length_take, Vector.length_toList]
    omega
  refine ⟨hlen, fun i hi => ?_⟩
  have hbyte : i / 8 < sp.entropyBits / 8 := by omega
  rw [getD_bitsOf_eq_getLsbD _ (by omega)]
  simp only [List.getD_eq_getElem?_getD, List.getElem?_take_of_lt hbyte]

/-- Outside RNG_WAIT the entropy source's turn changes no register (20 R88). -/
theorem sourceTurn_sameRegs (hf : ∀ g, s.fsm ≠ .rngWait g) : ∃ u, sourceTurn s = .next u ∧ s.SameRegs u := by
  cases ha : s.env.answers with
  | nil => exact ⟨s, by rw [sourceTurn, ha], rfl, rfl, rfl, rfl, rfl⟩
  | cons a rest => exact ⟨_, strayAnswersDiscarded s a rest hf ha, rfl, rfl, rfl, rfl, rfl⟩

end Encode

/-- Settles O50: the checks of ENCODE in their order, and the encode path's commit set for the bits of HEX. -/
theorem encodeResult : Obligations.EncodeResult := by
  refine ⟨decode_encode (i := .encode) rfl, fun s => ⟨fun hok => ?_, fun hok h0 => ?_, fun hok h0 h1 => ?_,
    fun hok hwl => ?_⟩⟩
  · exact ⟨_, execEncode_error hok, raised_raise _ s⟩
  · exact ⟨_, exec_encode_wordlist hok (wordlistCheck_zero h0), raised_raise _ s⟩
  · exact ⟨_, exec_encode_wordlist hok (wordlistCheck_wrong h0 h1), raised_raise _ s⟩
  · obtain ⟨sp, hr, hsp, he, hexec⟩ := exec_encode_ok hok hwl
    obtain ⟨hlen, hbits⟩ := encode_bytes hok
    rw [← he] at hlen hbits
    have henc := encodeCore_encodes (s := s) hr hlen s.d.hexBit hbits
    obtain ⟨hhexLen, hlower⟩ := lower_of_hexIs hok (he ▸ henc.hex)
    refine ⟨_, sp, hexec, ended_complete _ _ s, hsp, henc.spec, henc.ent, henc.hex, hhexLen, hlower, ?_, henc.csLen,
      henc.csRx, henc.csRxLen, henc.words, henc.resultW⟩
    rw [← henc.bytes]
    exact henc.cs

/-- Settles O51: the checks of GENERATE in their order, and the request of the row. -/
theorem generateResult : Obligations.GenerateResult := by
  refine ⟨fun w hw => ?_, fun s w => ⟨fun hv => ?_, fun hv h0 => ?_, fun hv h0 h1 => ?_, fun hv hwl => ?_⟩⟩
  · obtain ⟨-, -, hword, -⟩ := encode_operandForms hw
    rw [← hword]
    exact decode_encode (decide_eq_true hw)
  · obtain ⟨-, -, hexec, -⟩ := exec_invalidW hv s
    exact ⟨_, hexec, raised_raise _ s⟩
  · exact ⟨_, exec_generate_wordlist hv (wordlistCheck_zero h0), raised_raise _ s⟩
  · exact ⟨_, exec_generate_wordlist hv (wordlistCheck_wrong h0 h1), raised_raise _ s⟩
  · obtain ⟨sp, hsp⟩ := specFromW_of_valid hv
    obtain ⟨hr, rfl⟩ := specFromW_some hsp
    obtain ⟨-, hbits, -, hn⟩ := specRows_formulas hr
    exact ⟨_, sp, execGenerate_ok hsp hwl, hsp, rfl, hn, hbits.symm, rfl, rfl, rfl, rfl, rfl⟩

/-- Settles O52: in RNG_WAIT the source's turn is the encode path on the first `n` draws, or the error, or nothing. -/
theorem generateAnswer : Obligations.GenerateAnswer := by
  intro s sp rest hr hf
  refine ⟨fun draw ha => ?_, fun ha => ?_, fun ha => by rw [sourceTurn, ha], by rw [blockTurn, hf], ?_⟩
  · have hturn : sourceTurn s = .next (encodeCore (draw.toList.take (sp.entropyBits / 8)) sp
        { s with env := { s.env with answers := rest } }) := by
      simp only [sourceTurn, ha, rngAnswer, hf]
    obtain ⟨hlen, hdraw⟩ := drawn_bytes hr draw
    have hown := encodeCore_encodes_ent (s := { s with env := { s.env with answers := rest } }) hr hlen
    exact ⟨_, hturn, ended_complete _ _ _, hown.spec, (encodeCore_encodes hr hlen _ hdraw).ent, hown.hex, hown.cs,
      hown.csLen, hown.csRx, hown.csRxLen, hown.words, hown.resultW⟩
  · refine ⟨_, ?_, raised_raise _ _⟩
    simp only [sourceTurn, ha, rngAnswer, hf]
  · obtain ⟨u, hu, hsame⟩ := sourceTurn_sameRegs (s := resetBlock s) fun _ => Fsm.noConfusion
    exact ⟨_, u, rfl, rfl, rfl, rfl, hu, hsame⟩

/-! ## What the words carry (42 R188, 43 R240 steps 3 to 5) -/

/-- The entropy bits that the first `sp.w` words carry. -/
def Data.carriedEnt (d : Data) (sp : EntropySpec) : Bits := (split (ungroup (d.wordIdxs sp.w)) sp.entropyBits).1

/-- The checksum bits that they carry. -/
def Data.carriedCs (d : Data) (sp : EntropySpec) : Bits := (split (ungroup (d.wordIdxs sp.w)) sp.entropyBits).2

/-- The checksum of the entropy that they carry. -/
def Data.ownChecksum (d : Data) (sp : EntropySpec) : Nat := checksum (bytesOf (d.carriedEnt sp)) sp.checksumBits

/-- What DECODE commits for the words of `d` (43 R240 step 7): a checksum is reported only if it was verified. -/
def Data.decoded (d : Data) (sp : EntropySpec) (vfy : Bool) : Data :=
  decodeData (d.carriedEnt sp) (d.carriedCs sp) (if vfy then d.ownChecksum sp else 0)
    (if vfy then sp.checksumBits else 0) (d.wordIdxs sp.w) sp

section Carried

variable {d : Data} {sp : EntropySpec} (hr : sp ∈ specRows)

include hr

theorem length_carriedEnt (d : Data) : (d.carriedEnt sp).length = sp.entropyBits := by
  obtain ⟨h, -⟩ := decode_parts d sp hr
  exact h

theorem length_carriedCs (d : Data) : (d.carriedCs sp).length = sp.checksumBits := by
  obtain ⟨-, h, -⟩ := decode_parts d sp hr
  exact h

theorem getD_carriedEnt (d : Data) {i : Nat} (hi : i < sp.entropyBits) :
    (d.carriedEnt sp).getD i false = d.groupBit i := by
  obtain ⟨-, -, h, -⟩ := decode_parts d sp hr
  exact h i hi

theorem testBit_carriedCs (d : Data) (k : Nat) :
    (val (d.carriedCs sp)).testBit k = (decide (k < sp.checksumBits) && d.groupBit (11 * sp.w - 1 - k)) := by
  obtain ⟨-, -, -, h⟩ := decode_parts d sp hr
  exact h k

theorem ownChecksum_lt (d : Data) : d.ownChecksum sp < 2 ^ 8 := by
  obtain ⟨-, -, -, -, hc8, -⟩ := specRows_sizes hr
  calc d.ownChecksum sp < 2 ^ sp.checksumBits := checksum_lt _ _ hc8
    _ ≤ 2 ^ 8 := Nat.pow_le_pow_right (by decide) hc8

/-- Bit `i` of the entropy carried is bit `7 - i mod 8` of its byte `i / 8`. -/
theorem getLsbD_bytesOf_carriedEnt (d : Data) {i : Nat} (hi : i < sp.entropyBits) :
    ((bytesOf (d.carriedEnt sp)).getD (i / 8) 0).getLsbD (7 - i % 8) = d.groupBit i := by
  obtain ⟨-, -, -, -, -, -, -, -, -, he32⟩ := specRows_sizes hr
  have hlen := length_carriedEnt hr d
  rw [getLsbD_bytesOf _ _ _ (by omega) (by omega), Nat.div_add_mod, getD_carriedEnt hr d hi]

/-- Words that agree in every entropy bit carry the same entropy. -/
theorem carriedEnt_congr {d' : Data} (h : ∀ p, p < sp.entropyBits → d'.groupBit p = d.groupBit p) :
    d'.carriedEnt sp = d.carriedEnt sp := by
  refine bits_ext (by rw [length_carriedEnt hr, length_carriedEnt hr]) fun i hi => ?_
  rw [length_carriedEnt hr] at hi
  rw [getD_carriedEnt hr _ hi, getD_carriedEnt hr _ hi, h i hi]

/-- Words that differ in a checksum bit carry different checksums. -/
theorem carriedCs_ne {d' : Data} {p : Nat} (h1 : sp.entropyBits ≤ p) (h2 : p < 11 * sp.w)
    (h : d'.groupBit p ≠ d.groupBit p) : val (d'.carriedCs sp) ≠ val (d.carriedCs sp) := by
  obtain ⟨-, -, hsum, -⟩ := specRows_sizes hr
  intro heq
  have hbit := congrArg (fun n => n.testBit (11 * sp.w - 1 - p)) heq
  have hk : 11 * sp.w - 1 - p < sp.checksumBits := by omega
  have hp : 11 * sp.w - 1 - (11 * sp.w - 1 - p) = p := by omega
  simp only [testBit_carriedCs hr, hk, hp, decide_true, Bool.true_and] at hbit
  exact h hbit

end Carried

/-! ## The decode path (43 R225, R240) -/

section Decode

variable {s : State} {sp : EntropySpec}

theorem exec_decode_wordlist {w : Nat} {c : Code} (hv : validW w = true) (hc : wordlistCheck s.wlSize = some c)
    (vfy : Bool) : exec (.decode w vfy) s = .next (raise c s) := by
  obtain ⟨sp, hsp⟩ := specFromW_of_valid hv
  simp only [exec, execDecode, hsp, hc]

/-- A word that was not found ends DECODE with the empty Mnemonic (43 R225). -/
theorem exec_decode_notFound {w i : Nat} (hv : validW w = true) (hwl : s.wlSize = 2048) (hi : i < w)
    (hn : (s.d.wordAt i).nf = true) (vfy : Bool) : exec (.decode w vfy) s = .next (emptyMnemonic s) := by
  obtain ⟨sp, hsp⟩ := specFromW_of_valid hv
  have hw24 : w ≤ 24 := by
    rw [validW_iff] at hv
    omega
  simp only [exec, execDecode, hsp, wordlistCheck_full hwl, (anyNotFound_iff s.d w hw24).2 ⟨i, hi, hn⟩, if_true]

section Found

variable (hr : sp ∈ specRows) (hwl : s.wlSize = 2048) (hnf : ∀ i, i < sp.w → (s.d.wordAt i).nf = false)

include hr hwl hnf

theorem exec_decode_mismatch (h : s.d.ownChecksum sp ≠ val (s.d.carriedCs sp)) :
    exec (.decode sp.w true) s = .next (raise .checksumMismatch s) := by
  obtain ⟨hmismatch, -⟩ := execDecode_ok (specFromW_row hr) hwl hnf
  exact hmismatch h

/-- A DECODE whose words were found and whose checksum, where it is verified, agrees commits what the words carry. -/
theorem exec_decode_ok {vfy : Bool} (h : vfy = true → s.d.ownChecksum sp = val (s.d.carriedCs sp)) :
    exec (.decode sp.w vfy) s = .next (complete .ok (s.d.decoded sp vfy) s) := by
  obtain ⟨-, hverified, hunverified⟩ := execDecode_ok (specFromW_row hr) hwl hnf
  cases vfy with
  | false => exact hunverified
  | true => exact hverified (h rfl)

end Found

/-- The registers after DECODE hold what the words carry. -/
theorem decoded_holds (hr : sp ∈ specRows) (d : Data) (vfy : Bool) :
    (d.decoded sp vfy).spec = sp ∧ (d.decoded sp vfy).EntIs sp.entropyBits d.groupBit ∧
      (d.decoded sp vfy).HexIs sp.entropyBits d.groupBit ∧
      (d.decoded sp vfy).csRx.toNat = val (d.carriedCs sp) ∧ (d.decoded sp vfy).csRxLen.toNat = sp.checksumBits ∧
      (d.decoded sp vfy).cs.toNat = (if vfy then d.ownChecksum sp else 0) ∧
      (d.decoded sp vfy).csLen.toNat = (if vfy then sp.checksumBits else 0) ∧
      (∀ i, (d.decoded sp vfy).wordAt i = if i < sp.w then ⟨(d.wordAt i).idx, false⟩ else ⟨0, false⟩) ∧
      (d.decoded sp vfy).resultW.toNat = sp.w := by
  obtain ⟨-, -, -, -, hc8, -⟩ := specRows_sizes hr
  have hx : (if vfy then d.ownChecksum sp else 0) < 2 ^ 8 := by
    split
    · exact ownChecksum_lt hr d
    · decide
  have hc : (if vfy then sp.checksumBits else 0) ≤ 8 := by
    split
    · exact hc8
    · decide
  exact decodeData_holds _ _ _ _ sp hr d (length_carriedEnt hr d) (length_carriedCs hr d) hx hc d.groupBit
    fun _ => getD_carriedEnt hr d

/-- Every data register of the empty Mnemonic reads 0 (43 R225). -/
theorem readReg_emptyMnemonic (s : State) {r : Reg} (h : r.isData = true) : readReg (emptyMnemonic s) r = 0 := by
  cases r with
  | cmd | status | wlSize | reserved => cases h
  | hexLen | entLen | csum | spec | specBits | resultW => simp [readReg]
  | hexData k => simp [readReg, readHexData]
  | entData k => simp [readReg, readEntData]
  | word i => simp [readReg, readWord]

end Decode

/-- Settles O53: the checks of DECODE in their order, and what its words carry. -/
theorem decodeResult : Obligations.DecodeResult := by
  refine ⟨fun w hw => ?_, fun s w vfy => ⟨fun hv => ?_, fun hv h0 => ?_, fun hv h0 h1 => ?_,
    fun hv hwl ⟨i, hi, hn⟩ => ?_, fun sp hsp hwl hnf => ?_⟩⟩
  · obtain ⟨-, -, -, hword, hwordV⟩ := encode_operandForms hw
    rw [← hword, ← hwordV]
    exact ⟨decode_encode (decide_eq_true hw), decode_encode (decide_eq_true hw)⟩
  · obtain ⟨-, -, -, hexec⟩ := exec_invalidW hv s
    exact ⟨_, hexec vfy, raised_raise _ s⟩
  · exact ⟨_, exec_decode_wordlist hv (wordlistCheck_zero h0) vfy, raised_raise _ s⟩
  · exact ⟨_, exec_decode_wordlist hv (wordlistCheck_wrong h0 h1) vfy, raised_raise _ s⟩
  · exact ⟨_, exec_decode_notFound hv hwl hi hn vfy, ended_complete _ _ s, rfl⟩
  · obtain ⟨hr, rfl⟩ := specFromW_some hsp
    refine ⟨bytesOf (s.d.carriedEnt sp), val (s.d.carriedCs sp), by rw [length_bytesOf, length_carriedEnt hr],
      fun i => getLsbD_bytesOf_carriedEnt hr s.d, testBit_carriedCs hr s.d, fun hvfy hne => ?_, fun hok => ?_⟩
    · subst hvfy
      exact ⟨_, exec_decode_mismatch hr hwl hnf hne, raised_raise _ s⟩
    · obtain ⟨hspec, hent, hhex, hrx, hrxLen, hcs, hcsLen, hword, hw⟩ := decoded_holds hr s.d vfy
      refine ⟨_, exec_decode_ok hr hwl hnf hok, ended_complete _ _ s, hspec, hent, hhex, hrx, hrxLen,
        fun hvfy => ?_, fun hvfy => ?_, hword, hw⟩
      · rw [if_pos hvfy] at hcs hcsLen
        exact ⟨hcs.trans (hok hvfy), hcsLen⟩
      · subst hvfy
        exact ⟨rfl, rfl⟩

/-- Settles O54: the not-found outcome commits the empty Mnemonic (`emptyMnemonic` itself is the model's definition). -/
theorem emptyMnemonicOutcome : Obligations.EmptyMnemonic := fun s _ _ vfy hv hwl hi hn =>
  ⟨_, exec_decode_notFound hv hwl hi hn vfy, rfl, rfl, rfl, rfl, rfl, fun _ => readReg_emptyMnemonic s, rfl, rfl⟩

/-! ## Verification (43 R244) -/

section Verification

variable {s t u : State} {sp : EntropySpec}

theorem Code.eq_ok_of_num {c : Code} (h : c.num = 0) : c = .ok := by
  cases c with
  | ok => rfl
  | _ => exact absurd h (by decide)

/-- A command answers one state: where its code is 0, it can have ended with OK only. -/
theorem code_eq_ok {i : Instr} {c : Code} (h : exec i s = .next t) (hcode : t.status.code = 0)
    (hu : exec i s = .next u) (hended : s.Ended c u) : c = .ok := by
  rw [h] at hu
  cases hu
  exact Code.eq_ok_of_num (hended.code.symm.trans hcode)

/-- An ENCODE that completed with code OK has passed its checks, and has encoded its entropy. -/
theorem exec_encode_next_ok (h : exec .encode s = .next t) (hcode : t.status.code = 0) :
    s.d.EntropyOk ∧ ∃ sp ∈ specRows, sp.entropyBits = 4 * s.d.hexLen.toNat ∧
      t = encodeCore (bytesOf (hexToBits s.d.hexChars)) sp s := by
  by_cases hok : s.d.EntropyOk
  · obtain ⟨sp, hr, -, he, hraise, hcore⟩ := execEncode_ok hok
    cases hc : wordlistCheck s.wlSize with
    | some c =>
      obtain ⟨hended, -⟩ := raised_raise c s
      cases code_eq_ok h hcode (hraise c hc) hended
      exact absurd (wordlistCheck_isError hc) (by decide)
    | none =>
      have hexec := h.symm.trans (hcore hc)
      cases hexec
      exact ⟨hok, sp, hr, he, rfl⟩
  · obtain ⟨hended, -⟩ := raised_raise .invalidEntropy s
    cases code_eq_ok h hcode (execEncode_error hok) hended

/-- A verifying DECODE that completed with code OK has found the checksum its words carry to be their entropy's. -/
theorem exec_decode_next_ok {w : Nat} (h : exec (.decode w true) s = .next t) (hcode : t.status.code = 0) :
    ∃ sp ∈ specRows, sp.w = w ∧ s.d.ownChecksum sp = val (s.d.carriedCs sp) := by
  have raises {c : Code} (hexec : exec (.decode w true) s = .next (raise c s)) : c = .ok :=
    code_eq_ok h hcode hexec (ended_complete c s.d s)
  by_cases hv : validW w = true
  · obtain ⟨sp, hsp⟩ := specFromW_of_valid hv
    obtain ⟨hr, rfl⟩ := specFromW_some hsp
    rcases wordlistCheck_cases s.wlSize with ⟨hc, -⟩ | ⟨hc, -⟩ | ⟨-, hwl⟩
    · cases raises (exec_decode_wordlist hv hc true)
    · cases raises (exec_decode_wordlist hv hc true)
    by_cases hn : ∃ i, i < sp.w ∧ (s.d.wordAt i).nf = true
    · obtain ⟨i, hi, hnf⟩ := hn
      cases code_eq_ok h hcode (exec_decode_notFound hv hwl hi hnf true) (ended_complete _ _ s)
    · refine ⟨sp, hr, rfl, by_contra fun hne => ?_⟩
      cases raises (exec_decode_mismatch hr hwl (by simpa using hn) hne)
  · obtain ⟨-, -, -, hexec⟩ := exec_invalidW (Bool.not_eq_true _ ▸ hv) s
    cases raises (hexec true)

/-- The words of an encoding carry its entropy and its checksum. -/
theorem carried_encodeCore {b : List Byte} (hr : sp ∈ specRows) (hb : b.length = sp.entropyBits / 8) {d : Data}
    (hd : ∀ i, i < sp.w → d.wordAt i = (encodeCore b sp s).d.wordAt i) :
    d.carriedEnt sp = bitsOf b ∧ d.carriedCs sp = bitsN sp.checksumBits (checksum b sp.checksumBits) := by
  obtain ⟨-, -, hsum, -, -, -, hw24, -, -, he32⟩ := specRows_sizes hr
  have hlen : (bitsOf b).length = sp.entropyBits := by rw [length_bitsOf]; omega
  have hidx : d.wordIdxs sp.w = group (bitsOf b ++ bitsN sp.checksumBits (checksum b sp.checksumBits)) sp.w :=
    (congrArg _ (take_word_congr hd)).trans (wordIdxs_setWords_group _ hw24 _)
  have hsplit : split (ungroup (d.wordIdxs sp.w)) sp.entropyBits =
      (bitsOf b, bitsN sp.checksumBits (checksum b sp.checksumBits)) := by
    rw [hidx, ungroup_group (by rw [List.length_append, length_bitsN]; omega), ← hlen, split_append]
  exact Prod.mk.inj hsplit

theorem bytesOf_bitsOf (b : List Byte) : bytesOf (bitsOf b) = b := by
  refine bytes_ext (by simp) fun j k hj hk => ?_
  have hj : j < b.length := by simpa using hj
  rw [getLsbD_bytesOf _ _ _ (by simpa using hj) hk, getD_bitsOf _ _ _ hj hk, BitVec.testBit_toNat]

/-- DECODE's commit set for the words of an encoding: its entropy, and its checksum both as received and as computed. -/
theorem decoded_encodeCore {b : List Byte} (hr : sp ∈ specRows) (hb : b.length = sp.entropyBits / 8) {d : Data}
    (hd : ∀ i, i < sp.w → d.wordAt i = (encodeCore b sp s).d.wordAt i) :
    d.ownChecksum sp = val (d.carriedCs sp) ∧
      d.decoded sp true = decodeData (bitsOf b) (bitsN sp.checksumBits (checksum b sp.checksumBits))
        (checksum b sp.checksumBits) sp.checksumBits (d.wordIdxs sp.w) sp ∧
      val (bitsN sp.checksumBits (checksum b sp.checksumBits)) = checksum b sp.checksumBits := by
  obtain ⟨-, -, -, -, hc8, -⟩ := specRows_sizes hr
  obtain ⟨hent, hcs⟩ := carried_encodeCore hr hb hd
  have hown : d.ownChecksum sp = checksum b sp.checksumBits := by rw [Data.ownChecksum, hent, bytesOf_bitsOf]
  have hval : val (bitsN sp.checksumBits (checksum b sp.checksumBits)) = checksum b sp.checksumBits := by
    rw [val_bitsN, Nat.mod_eq_of_lt (checksum_lt b _ hc8)]
  refine ⟨by rw [hown, hcs, hval], ?_, hval⟩
  rw [Data.decoded, hent, hcs, hown, if_pos rfl, if_pos rfl]

end Verification

/-- Settles O56: the words of an encoding carry its entropy and its checksum, so DECODE finds them to agree. -/
theorem decodeOfEncodedEntropy : Obligations.DecodeOfEncodedEntropy := by
  intro s t u h hcode hwl hwords
  obtain ⟨hok, sp, hr, he, rfl⟩ := exec_encode_next_ok h hcode
  obtain ⟨hlen, hbits⟩ := encode_bytes hok
  rw [← he] at hlen hbits
  have henc := encodeCore_encodes (s := s) hr hlen s.d.hexBit hbits
  obtain ⟨hhexLen, hlower⟩ := lower_of_hexIs hok (he ▸ henc.hex)
  rw [henc.resultW] at hwords ⊢
  obtain ⟨-, hnf, -⟩ := henc.words
  obtain ⟨hagree, hdecoded, hval⟩ := decoded_encodeCore hr hlen hwords
  refine ⟨_, exec_decode_ok hr hwl (fun i hi => by rw [hwords i hi, hnf]) fun _ => hagree, ended_complete _ _ u, ?_⟩
  rw [complete_d, hdecoded]
  refine ⟨rfl, rfl, hhexLen, hlower, ?_, rfl⟩
  exact congrArg (BitVec.ofNat 8) hval

/-- Settles O57: the entropy carried is the same and so is its checksum, but the checksum carried is another. -/
theorem checksumBitChangesFail : Obligations.ChecksumBitChangesFail := by
  rintro s t u w h hcode hwl hnf hsame ⟨p, hp1, hp2, hne⟩
  obtain ⟨sp, hr, rfl, hs⟩ := exec_decode_next_ok h hcode
  obtain ⟨-, hbits, -⟩ := specRows_formulas hr
  rw [hbits] at hsame hp1
  have hent : u.d.ownChecksum sp = s.d.ownChecksum sp := by
    rw [Data.ownChecksum, carriedEnt_congr hr hsame, Data.ownChecksum]
  refine ⟨_, exec_decode_mismatch hr hwl hnf fun hu => ?_, raised_raise _ u⟩
  exact carriedCs_ne hr hp1 hp2 hne (hu.symm.trans (hent.trans hs))

end Sys2Proof.Machine

/-! # Acceptance, completion and errors (family `60_exceptions.md`)

How a command's execution step ends is known from `Ends` (with an error and nothing committed, with a completion, or
with the entropy request) and `Commits` (the commit sets); the frame (O12) and atomicity (O13) are read off these.
Which codes a command can complete with (O14) is read off its outcomes, case by case (`CompletesWith`). -/

namespace Sys2Proof.Machine

/-- Settles O7: at offset 0 stands CMD, whose write is an acceptance; while BUSY it is a dropped write. -/
theorem commandAcceptance : Obligations.CommandAcceptance := fun _ v =>
  ⟨fun hb => ⟨_, memWrite_reg .cmd v hb, rfl, rfl, rfl, rfl, rfl, rfl, rfl, rfl, rfl, rfl⟩,
    fun hb => memWrite_dropped (accessOk_offset .cmd) rfl hb⟩

/-! ## What a command leaves (60 R262, R266) -/

section Frame

variable {s t : State}

/-- However a command ends its execution step, it leaves WL_SIZE, LASTCMD and WDROP, and of the environment all but the
requests, which a GENERATE alone adds to. -/
theorem Ends.leaves_control {i : Instr} (h : Ends i s t) : t.wlSize = s.wlSize ∧ t.lastCmd = s.lastCmd ∧
    t.status.wdrop = s.status.wdrop ∧ t.env = { s.env with requests := t.env.requests } ∧
    ((∀ w, i ≠ .generate w) → t.env.requests = s.env.requests) := by
  cases h with
  | raised | completed => exact ⟨rfl, rfl, rfl, rfl, fun _ => rfl⟩
  | requested w sp hi => exact ⟨rfl, rfl, rfl, rfl, fun hn => absurd hi (hn w)⟩

/-- An answer of the entropy port leaves the same, whether it completes, fails or is discarded (43 R236, 20 R88). -/
theorem rngAnswer_leaves_control (a : RngAnswer) (s : State) : (rngAnswer a s).wlSize = s.wlSize ∧
    (rngAnswer a s).lastCmd = s.lastCmd ∧ (rngAnswer a s).status.wdrop = s.status.wdrop := by
  rcases rngAnswer_cases a s with ⟨g, draw, -, -, h⟩ | ⟨g, -, -, h⟩ | ⟨-, h⟩ <;> rw [h] <;>
    exact ⟨rfl, rfl, rfl⟩

/-- A move that ends a command with an error has raised an error code, and has changed nothing else but, at most, the
environment: reset ends a command without error, and no other move takes FSM to IDLE. -/
theorem Moves.raises {tn : Turn} (h : Moves s tn t) (hf : s.fsm ≠ .idle) (hf' : t.fsm = .idle)
    (he : t.status.err = true) : ∃ c e, 2 ≤ c.num.toNat ∧ t = raise c { s with env := e } := by
  cases h with
  | hostDone | blockIdle | noAnswer => exact absurd hf' hf
  | read off rest _ hp h =>
    obtain ⟨⟨-, -, -, -, hsame⟩, -⟩ := memRead_same h
    exact absurd (hsame.symm.trans hf') hf
  | write off v rest _ hp h =>
    rcases memWrite_fsm h with hsame | ⟨-, -, rfl⟩
    · exact absurd (hsame.symm.trans hf') hf
    · cases hf'
  | poll rest hp =>
    obtain ⟨-, -, -, -, hsame⟩ := pollStatus_same rest s
    exact absurd (hsame.symm.trans hf') hf
  | illegal => exact ⟨.illegalCommand, s.env, by decide, rfl⟩
  | executed i _ _ hd h =>
    cases ends_of_exec h with
    | raised c hc => exact ⟨c, s.env, hc, rfl⟩
    | completed c d hc =>
      have hc' : 2 ≤ c.num.toNat := of_decide_eq_true he
      omega
    | requested => cases hf'
  | answered a rest ha =>
    rcases rngAnswer_cases a { s with env := { s.env with answers := rest } } with
      ⟨g, draw, -, -, h⟩ | ⟨g, -, -, h⟩ | ⟨-, h⟩
    · rw [h] at he
      cases he
    · exact ⟨.entropySourceError, _, by decide, h⟩
    · rw [h] at hf'
      exact absurd hf' hf
  | reset => cases he

end Frame

/-- Settles O12: every commit set is the data registers as they stood with the registers of the command's row updated;
an error and the entropy request leave them all. -/
theorem commandsWriteOnlyTheirSet : Obligations.CommandsWriteOnlyTheirSet := by
  refine ⟨fun i s => ?_, fun a s => ?_⟩
  · obtain ⟨t, ht, hends⟩ := exec_ends i s
    obtain ⟨hwl, hlast, hwdrop, henv, hreq⟩ := hends.leaves_control
    refine ⟨t, ht, hwl, hlast, hwdrop, henv, hreq, ?_⟩
    cases exec_outcome ht with
    | raised | requested =>
      cases i with
      | encode | decode => trivial
      | _ => rfl
    | committed c d h =>
      cases h with
      | encode | decodeEmpty | decode => trivial
      | _ => rfl
  · obtain ⟨hwl, hlast, hwdrop⟩ := rngAnswer_leaves_control a s
    exact ⟨hwl, hlast, hwdrop, rngAnswer_env a s⟩

/-- Settles O13: the step raised its error, and `raise` commits nothing. -/
theorem errorsAreAtomic : Obligations.ErrorsAreAtomic := by
  intro s t h hf hf' he
  obtain ⟨c, e, hc, rfl⟩ := (step_moves h).raises hf hf' he
  exact ⟨rfl, rfl, rfl, rfl, rfl, rfl, hc⟩

/-! ## The codes of each command (60 R265) -/

/-- The execution step of the command ends it with one of the codes `cs`, whatever it commits. -/
def CompletesWith (i : Instr) (s : State) (cs : List Code) : Prop :=
  ∃ c d, exec i s = .next (complete c d s) ∧ c ∈ cs

section Codes

variable {i : Instr} {s t : State} {c : Code} {cs : List Code}

theorem completesWith_complete {d : Data} (h : exec i s = .next (complete c d s)) (hc : c ∈ cs) :
    CompletesWith i s cs :=
  ⟨c, d, h, hc⟩

/-- An error commits the data registers as they stood (60 R266). -/
theorem completesWith_raise (h : exec i s = .next (raise c s)) (hc : c ∈ cs) : CompletesWith i s cs :=
  ⟨c, s.d, h, hc⟩

/-- A command answers one state, so the one it answers has ended with one of the codes. -/
theorem CompletesWith.ended (hi : CompletesWith i s cs) (h : exec i s = .next t) : ∃ c, s.Ended c t ∧ c ∈ cs := by
  obtain ⟨c, d, hexec, hc⟩ := hi
  cases h.symm.trans hexec
  exact ⟨c, ended_complete c d s, hc⟩

theorem specw_completesWith (w : Nat) (s : State) : CompletesWith (.specw w) s [.ok, .invalidWordCount] := by
  cases hv : validW w with
  | false =>
    obtain ⟨hexec, -⟩ := exec_invalidW hv s
    exact completesWith_raise hexec (by decide)
  | true =>
    obtain ⟨sp, hsp⟩ := specFromW_of_valid hv
    obtain ⟨hr, rfl⟩ := specFromW_some hsp
    exact completesWith_complete (exec_specw_row hr s) (by decide)

theorem spece_completesWith (s : State) : CompletesWith .spece s [.ok, .invalidEntropy] := by
  by_cases hok : s.d.EntropyOk
  · obtain ⟨sp, -, -, hexec⟩ := exec_spece_ok hok
    exact completesWith_complete hexec (by decide)
  · exact completesWith_raise (exec_spece_error hok) (by decide)

theorem hex2bits_completesWith (s : State) : CompletesWith .hex2bits s [.ok, .invalidEntropy] := by
  by_cases hbad : 64 < s.d.hexLen.toNat ∨ ∃ j, j < s.d.hexLen.toNat ∧ isHex (s.d.hexAt j) = false
  · exact completesWith_raise (exec_hex2bits_error hbad) (by decide)
  · simp only [not_or, not_lt, not_exists, not_and, Bool.not_eq_false] at hbad
    obtain ⟨hl, hhex⟩ := hbad
    exact completesWith_complete (exec_hex2bits_ok hl hhex) (by decide)

theorem bits2hex_completesWith (s : State) : CompletesWith .bits2hex s [.ok, .invalidEntropy] := by
  by_cases h4 : s.d.entLen.toNat % 4 = 0
  · exact completesWith_complete (exec_bits2hex_ok h4) (by decide)
  · exact completesWith_raise (exec_bits2hex_error h4) (by decide)

theorem csum_completesWith (s : State) : CompletesWith .csum s [.ok, .invalidEntropy] := by
  cases hv : validEntBits s.d.entLen.toNat with
  | false => exact completesWith_raise (exec_csum_invalid hv) (by decide)
  | true => exact completesWith_complete (exec_csum_valid hv) (by decide)

theorem pack_completesWith (s : State) : CompletesWith .pack s [.ok, .invalidEntropy, .operandError] := by
  cases hv : validEntBits s.d.entLen.toNat with
  | false => exact completesWith_raise (exec_pack_invalid hv) (by decide)
  | true =>
    obtain ⟨sp, hsp, -⟩ := specFromEntBits_of_valid hv
    by_cases hlen : s.d.csLen.toNat ≠ sp.checksumBits
    · exact completesWith_raise ((exec_pack_valid hsp).trans (if_pos hlen)) (by decide)
    · exact completesWith_complete ((exec_pack_valid hsp).trans (if_neg hlen)) (by decide)

theorem unpack_completesWith (w : Nat) (s : State) : CompletesWith (.unpack w) s [.ok, .invalidWordCount] := by
  cases hv : validW w with
  | false =>
    obtain ⟨-, hexec, -⟩ := exec_invalidW hv s
    exact completesWith_raise hexec (by decide)
  | true =>
    obtain ⟨sp, hsp⟩ := specFromW_of_valid hv
    obtain ⟨hr, rfl⟩ := specFromW_some hsp
    exact completesWith_complete (exec_unpack_row hr) (by decide)

theorem cschk_completesWith (s : State) :
    CompletesWith .cschk s [.ok, .invalidEntropy, .operandError, .checksumMismatch] := by
  cases hv : validEntBits s.d.entLen.toNat with
  | false => exact completesWith_raise (exec_cschk_invalid hv) (by decide)
  | true =>
    have hexec := exec_cschk_valid hv
    by_cases hlen : s.d.csRxLen.toNat ≠ csBitsOf s.d.entLen.toNat
    · exact completesWith_raise (hexec.trans (if_pos hlen)) (by decide)
    rw [if_neg hlen] at hexec
    by_cases hne : s.d.entChecksum ≠ s.d.csRx.toNat
    · exact completesWith_raise (hexec.trans (if_pos hne)) (by decide)
    · exact completesWith_complete (hexec.trans (if_neg hne)) (by decide)

theorem encode_completesWith (s : State) :
    CompletesWith .encode s [.ok, .invalidEntropy, .emptyWordlist, .wordlistSize] := by
  by_cases hok : s.d.EntropyOk
  · rcases wordlistCheck_cases s.wlSize with ⟨hc, -⟩ | ⟨hc, -⟩ | ⟨-, hwl⟩
    · exact completesWith_raise (exec_encode_wordlist hok hc) (by decide)
    · exact completesWith_raise (exec_encode_wordlist hok hc) (by decide)
    · obtain ⟨sp, -, -, -, hexec⟩ := exec_encode_ok hok hwl
      exact completesWith_complete hexec (by decide)
  · exact completesWith_raise (execEncode_error hok) (by decide)

/-- A GENERATE ends in its execution step with an error only: past its checks it waits for entropy (43 R234). -/
theorem generate_completesWith {w : Nat} (h : exec (.generate w) s = .next t) (hf : t.fsm = .idle) :
    CompletesWith (.generate w) s [.invalidWordCount, .emptyWordlist, .wordlistSize] := by
  cases hv : validW w with
  | false =>
    obtain ⟨-, -, hexec, -⟩ := exec_invalidW hv s
    exact completesWith_raise hexec (by decide)
  | true =>
    rcases wordlistCheck_cases s.wlSize with ⟨hc, -⟩ | ⟨hc, -⟩ | ⟨-, hwl⟩
    · exact completesWith_raise (exec_generate_wordlist hv hc) (by decide)
    · exact completesWith_raise (exec_generate_wordlist hv hc) (by decide)
    · obtain ⟨sp, hsp⟩ := specFromW_of_valid hv
      cases h.symm.trans (execGenerate_ok hsp hwl)
      cases hf

/-- DECODE finds a mismatch only where it verifies (43 R240). -/
theorem decode_completesWith (w : Nat) (vfy : Bool) (s : State) : CompletesWith (.decode w vfy) s
    ([.ok, .notFound, .invalidWordCount, .emptyWordlist, .wordlistSize] ++
      if vfy then [.checksumMismatch] else []) := by
  cases hv : validW w with
  | false =>
    obtain ⟨-, -, -, hexec⟩ := exec_invalidW hv s
    exact completesWith_raise (hexec vfy) (by simp)
  | true =>
    rcases wordlistCheck_cases s.wlSize with ⟨hc, -⟩ | ⟨hc, -⟩ | ⟨-, hwl⟩
    · exact completesWith_raise (exec_decode_wordlist hv hc vfy) (by simp)
    · exact completesWith_raise (exec_decode_wordlist hv hc vfy) (by simp)
    · by_cases hn : ∃ i, i < w ∧ (s.d.wordAt i).nf = true
      · obtain ⟨i, hi, hnf⟩ := hn
        exact completesWith_complete (exec_decode_notFound hv hwl hi hnf vfy) (by simp)
      · obtain ⟨sp, hsp⟩ := specFromW_of_valid hv
        obtain ⟨hr, rfl⟩ := specFromW_some hsp
        simp only [not_exists, not_and, Bool.not_eq_true] at hn
        by_cases hagree : vfy = true → s.d.ownChecksum sp = val (s.d.carriedCs sp)
        · exact completesWith_complete (exec_decode_ok hr hwl hn hagree) (by simp)
        · obtain ⟨rfl, hne⟩ := Classical.not_imp.1 hagree
          exact completesWith_raise (exec_decode_mismatch hr hwl hn hne) (by decide)

end Codes

/-- Settles O14: each command's outcomes, with the codes they complete with. -/
theorem codesOfEachCommand : Obligations.CodesOfEachCommand := by
  intro i s t h hf
  cases i with
  | specw w => exact (specw_completesWith w s).ended h
  | spece => exact (spece_completesWith s).ended h
  | hex2bits => exact (hex2bits_completesWith s).ended h
  | bits2hex => exact (bits2hex_completesWith s).ended h
  | csum => exact (csum_completesWith s).ended h
  | pack => exact (pack_completesWith s).ended h
  | unpack w => exact (unpack_completesWith w s).ended h
  | cschk => exact (cschk_completesWith s).ended h
  | encode => exact (encode_completesWith s).ended h
  | generate w => exact (generate_completesWith h hf).ended h
  | decode w vfy =>
    have hended := (decode_completesWith w vfy s).ended h
    cases vfy with
    | true | false => exact hended

end Sys2Proof.Machine

/-! # Reset and hazards (family `70_reset_and_hazards.md`)

What a move does to STATUS (`StatusMove`) decides WDROP and BUSY alike: WDROP rises only by a dropped write and falls
only by an acceptance or reset (O28), and BUSY rises only by an acceptance, which is a CMD write of the host (O60). The
reset values (O30, O31) are those of `resetBlock`, and the reads while BUSY (O29) are the outcomes of `memRead`. -/

namespace Sys2Proof.Machine

/-! ## What a move does to STATUS (60 R260, R261; 70 R290, R300) -/

/-- The ways in which a move leaves STATUS. -/
inductive StatusMove (s : State) (tn : Turn) (t : State) : Prop where
  | kept (hs : t.status = s.status)
  | cleared (ht : tn = .reset) (hs : t.status = Status.zero)
  | finished (c : Code) (hs : t.status = s.status.finished c)
  | dropped (ht : tn = .host) (op : HostOp) (rest : List HostOp) (hp : s.env.program = op :: rest)
      (hrw : op.writesRW = true) (hb : s.status.busy = true) (hs : t.status = s.status.dropped)
  | accepted (ht : tn = .host) (v : Word) (rest : List HostOp) (hp : s.env.program = .write 0x000 4 v :: rest)
      (hb : s.status.busy = false) (hs : t.status = Status.accepted) (hf : t.fsm = .exec) (hl : t.lastCmd = v)

section Moves

variable {s t : State} {tn : Turn}

/-- A write is dropped, is an acceptance, or leaves STATUS. -/
theorem memWrite_status {off : Int} {v : Word} (h : memWrite off 4 v s = .next t) :
    ((regAt off.toNat).isRW = true ∧ s.status.busy = true ∧ t = dropWrite s) ∨
      (off = 0 ∧ s.status.busy = false ∧ t = accept v s) ∨ t.status = s.status := by
  obtain ⟨ha, ⟨rfl, hrw, hb⟩ | ⟨rfl, hidle⟩⟩ := memWrite_next h
  · exact .inl ⟨hrw, hb, rfl⟩
  · rcases writeReg_cases v s (regAt off.toNat) with ⟨hr, hw⟩ | ⟨-, -, hs, -⟩
    · have hoff := regAt_eq_cmd hr
      obtain ⟨-, h0, -⟩ := (accessOk_iff off 4).1 ha
      exact .inr (.inl ⟨by omega, hidle.resolve_left (by rw [hr]; exact Bool.noConfusion), hw⟩)
    · exact .inr (.inr hs)

theorem Moves.statusMove (h : Moves s tn t) : StatusMove s tn t := by
  cases h with
  | hostDone | blockIdle | noAnswer => exact .kept rfl
  | read off rest _ hp h =>
    obtain ⟨⟨-, hs, -⟩, -⟩ := memRead_same h
    exact .kept hs
  | write off v rest _ hp h =>
    rcases memWrite_status h with ⟨hrw, hb, rfl⟩ | ⟨rfl, hb, rfl⟩ | hs
    · exact .dropped rfl _ rest hp hrw hb rfl
    · exact .accepted rfl v rest hp hb rfl rfl rfl
    · exact .kept hs
  | poll rest hp =>
    obtain ⟨-, hs, -⟩ := pollStatus_same rest s
    exact .kept hs
  | illegal => exact .finished .illegalCommand rfl
  | executed i _ hf hd h =>
    cases ends_of_exec h with
    | raised c | completed c => exact .finished c rfl
    | requested => exact .kept rfl
  | answered a rest ha =>
    rcases rngAnswer_cases a { s with env := { s.env with answers := rest } } with
      ⟨g, draw, -, -, h⟩ | ⟨g, -, -, h⟩ | ⟨-, h⟩ <;> rw [h]
    · exact .finished .ok rfl
    · exact .finished .entropySourceError rfl
    · exact .kept rfl
  | reset => exact .cleared rfl rfl

/-- Only the host starts a command. -/
theorem StatusMove.busy_of_not_host (h : StatusMove s tn t) (hn : tn ≠ .host) (hb : t.status.busy = true) :
    s.status.busy = true := by
  cases h with
  | kept hs => rwa [hs] at hb
  | cleared _ hs | finished c hs => simp [hs] at hb
  | dropped ht | accepted ht => exact absurd ht hn

/-- WDROP is cleared by reset and by an acceptance alone (70 R300). -/
theorem StatusMove.wdrop_stays (h : StatusMove s tn t) (hw : s.status.wdrop = true) :
    t.status.wdrop = true ∨ tn = .reset ∨ (tn = .host ∧ s.status.busy = false ∧ t.status.busy = true ∧ t.fsm = .exec ∧
      ∃ v rest, s.env.program = .write 0x000 4 v :: rest ∧ t.lastCmd = v) := by
  cases h with
  | kept hs | finished c hs | dropped _ _ _ _ _ _ hs => exact .inl (by simp [hs, hw])
  | cleared ht => exact .inr (.inl ht)
  | accepted ht v rest hp hb hs hf hl => exact .inr (.inr ⟨ht, hb, by simp [hs], hf, v, rest, hp, hl⟩)

/-- Only a dropped write sets WDROP (70 R300). -/
theorem StatusMove.wdrop_of_writesWhenIdle (h : StatusMove s tn t)
    (hidle : tn = .host → ∀ op rest, s.env.program = op :: rest → op.writesRW = true → s.status.busy = false)
    (hw : t.status.wdrop = true) : s.status.wdrop = true := by
  cases h with
  | kept hs | finished c hs => simpa [hs] using hw
  | cleared _ hs | accepted _ _ _ _ _ hs => simp [hs] at hw
  | dropped ht op rest hp hrw hb => simp [hidle ht op rest hp hrw] at hb

theorem Moves.program_of_not_host (h : Moves s tn t) (hn : tn ≠ .host) : t.env.program = s.env.program := by
  cases h with
  | hostDone | read | write | poll => exact absurd rfl hn
  | blockIdle | illegal | noAnswer | reset => rfl
  | executed i _ hf hd h => exact exec_program h
  | answered a rest ha => rw [rngAnswer_env]

end Moves

/-! ## Writes and reads while BUSY (70 R300, R301) -/

/-- Settles O28: the host-writable registers stand at the RW offsets alone, and only reset and an acceptance clear
WDROP. -/
theorem busyWritesDropped : Obligations.BusyWritesDropped := by
  refine ⟨fun off v s h4 hw hb => ?_, fun s t hd h => (step_moves h).statusMove.wdrop_stays hd⟩
  have hok := accessOk_of_window h4 hw
  obtain ⟨k, rfl⟩ := Nat.dvd_of_mod_eq_zero h4
  have hrw := regAt_isRW_iff (k := k) (by omega)
  refine ⟨fun h => memWrite_dropped hok (hrw.2 h) hb, fun h => memWrite_ignored hok ?_⟩
  exact Bool.eq_false_iff.2 fun hr => by have := hrw.1 hr; omega

/-- A register that is no data register reads exactly, BUSY or not (70 R301). -/
theorem memRead_control (s : State) {r : Reg} (hr : r.isData = false) : ∃ t, memRead r.offset 4 s = .next t ∧
    t.env.readData = some (readReg s r) ∧ s.SameRegs t :=
  have h := memRead_exact (accessOk_offset r) (regAt_offset r) (.inl hr)
  ⟨_, h, rfl, (memRead_same h).1⟩

/-- Settles O29: STATUS, CMD and WL_SIZE are no data registers. -/
theorem busyReads : Obligations.BusyReads := by
  refine fun s hb => ⟨memRead_control s (r := .status) rfl, memRead_control s (r := .cmd) rfl,
    memRead_control s (r := .wlSize) rfl, fun r hr => ?_⟩
  have h := memRead_free (accessOk_offset r) ((congrArg Reg.isData (regAt_offset r)).trans hr) hb
  exact ⟨_, h, rfl, rfl, (memRead_same h).1⟩

/-! ## Reset (70 R290, R291) -/

theorem readReg_data_congr {s t : State} (hd : t.d = s.d) {r : Reg} (hr : r.isData = true) :
    readReg t r = readReg s r := by
  cases r with
  | cmd | status | wlSize | reserved => cases hr
  | _ => simp only [readReg, hd]

theorem Status.zero_toWord : Status.zero.toWord = 0 := by decide

/-- Every register reads 0 after reset: the data registers are those of the empty Mnemonic (43 R225). -/
theorem readReg_resetBlock (s : State) (r : Reg) : readReg (resetBlock s) r = 0 := by
  cases hr : r.isData with
  | true =>
    have hd : (resetBlock s).d = (emptyMnemonic s).d := rfl
    rw [readReg_data_congr hd hr, readReg_emptyMnemonic s hr]
  | false =>
    cases r with
    | cmd | wlSize | reserved => rfl
    | status => exact Status.zero_toWord
    | _ => cases hr

/-- Settles O30: the next state is `resetBlock`, whatever was running. -/
theorem resetValues : Obligations.ResetValues := fun s =>
  ⟨resetBlock s, rfl, readReg_resetBlock s, rfl, rfl, rfl, rfl, fun _ => zeroFilled_zero.hex _ (Nat.zero_le _),
    fun _ => zeroFilled_zero.ent _ (Nat.zero_le _), rfl, rfl, rfl, rfl, rfl, rfl, rfl,
    fun _ => zeroFilled_zero.word _ (Nat.zero_le _), rfl, rfl⟩

/-- Settles O31: after reset FSM is IDLE, where an answer is discarded. -/
theorem resetAbandonsCommand : Obligations.ResetAbandonsCommand := fun s _ =>
  ⟨resetBlock s, rfl, rfl, rfl, rfl, rfl, rfl, sourceTurn_sameRegs fun _ => Fsm.noConfusion⟩

/-! ## A host that waits (70 R300, R304) -/

/-- Waiting carries over to a BUSY that is no higher. -/
theorem pollsBeforeWrites_of_imp {b b' : Bool} {ops : List HostOp} (hb : b' = true → b = true)
    (h : pollsBeforeWrites b ops = true) : pollsBeforeWrites b' ops = true := by
  cases b with
  | true => exact pollsBeforeWrites_mono b' h
  | false => rwa [Bool.eq_false_iff.2 fun hb' => Bool.noConfusion (hb hb')]

section Waiting

variable {s t : State} {tn : Turn}

theorem State.hostWaits.mono (hw : s.hostWaits) (hp : t.env.program = s.env.program)
    (hb : t.status.busy = true → s.status.busy = true) : t.hostWaits := by
  rw [State.hostWaits, hp]
  exact pollsBeforeWrites_of_imp hb hw

/-- Waiting implies the duty: the program's first write finds BUSY = 0. -/
theorem State.hostWaits.writesWhenIdle (hw : s.hostWaits) : s.writesWhenIdle := by
  rintro op ⟨-, rest, hp⟩ hrw
  rw [State.hostWaits, hp] at hw
  cases op with
  | read | poll => cases hrw
  | write off size v =>
    obtain ⟨hop, -⟩ := Bool.and_eq_true_iff.1 hw
    simpa [hrw] using hop

/-- A write that the host had to issue leaves it waiting: where it starts a command, the rest of the program polls
before its next write. -/
theorem hostWaits_of_memWrite {off : Int} {v : Word} {rest : List HostOp} (hw : s.hostWaits)
    (hp : s.env.program = .write off 4 v :: rest)
    (h : memWrite off 4 v { s with env := { s.env with program := rest } } = .next t) : t.hostWaits := by
  rw [State.hostWaits, hp] at hw
  obtain ⟨-, hrest⟩ := Bool.and_eq_true_iff.1 hw
  rw [State.hostWaits, memWrite_env h]
  refine pollsBeforeWrites_of_imp (fun hb => Bool.or_eq_true_iff.2 ?_) hrest
  rcases memWrite_status h with ⟨-, hbusy, -⟩ | ⟨rfl, -, -⟩ | hs
  · exact .inl hbusy
  · exact .inr rfl
  · exact .inl (hs ▸ hb)

/-- Every move leaves the host waiting: the host's own follow its program, and the others start no command. -/
theorem Moves.hostWaits (h : Moves s tn t) (hw : s.hostWaits) : t.hostWaits := by
  by_cases hn : tn = .host
  · subst hn
    cases h with
    | hostDone => exact hw
    | read off rest _ hp h =>
      obtain ⟨⟨-, hs, -⟩, hrest, -⟩ := memRead_same h
      rw [State.hostWaits, hp] at hw
      rw [State.hostWaits, hs, hrest]
      exact hw
    | write off v rest _ hp h => exact hostWaits_of_memWrite hw hp h
    | poll rest hp =>
      obtain ⟨-, hs, -⟩ := pollStatus_same rest s
      rw [State.hostWaits, hs, pollStatus_program]
      split
      · exact hw
      · rename_i hb
        rw [State.hostWaits, hp] at hw
        exact pollsBeforeWrites_of_imp (fun hb' => absurd hb' hb) hw
  · exact hw.mono (h.program_of_not_host hn) (h.statusMove.busy_of_not_host hn)

/-- A step under the duty of 70 R300 sets no WDROP. -/
theorem wdrop_of_step (hidle : s.writesWhenIdle) (h : step s = .next t) (hw : t.status.wdrop = true) :
    s.status.wdrop = true :=
  (step_moves h).statusMove.wdrop_of_writesWhenIdle (fun ht op rest hp => hidle op ⟨ht, rest, hp⟩) hw

/-- A run keeps the invariant of the machine and, by the host's duty, WDROP = 0. -/
theorem Run.inv_wdrop {wl : Wordlist} {ps : List Phrase} (h : Run wl ps s t) (hi : s.Inv)
    (hw : s.status.wdrop = false) : t.Inv ∧ t.status.wdrop = false := by
  induction h with
  | nil => exact ⟨hi, hw⟩
  | cons duties hstep _ ih =>
    refine ih (registerInvariantKept _ _ hi hstep) (Bool.eq_false_iff.2 fun hw' => ?_)
    rw [wdrop_of_step duties.idle hstep hw'] at hw
    cases hw

end Waiting

/-- Settles O60: each move keeps the waiting, and a run keeps WDROP = 0 and BUSY = 1 only where FSM ≠ IDLE. -/
theorem waitingHostLosesNoWrite : Obligations.WaitingHostLosesNoWrite := by
  refine ⟨fun s hw => hw.writesWhenIdle, fun s t hw h => (step_moves h).hostWaits hw,
    fun s t => wdrop_of_step, fun wl ps env t hrun => ?_⟩
  obtain ⟨hi, hw⟩ := hrun.inv_wdrop (inv_withEnv env registerInvariantAtReset) rfl
  refine ⟨hw, fun hend => hi.ctl.idle_of_not_busy ?_⟩
  obtain ⟨-, hb⟩ := Bool.and_eq_true_iff.1 hend
  simpa using hb

end Sys2Proof.Machine
